-- ==== Sys2Proof/Word.lean ====
section
/-!
DEFINITION. The widths of the PLLCTL control block: a register or serial word is 32 bits with a
3-bit address tag in its low bits (R9, R11, R58), a command or response is 72 bits (R57, R66).
-/

namespace Sys2Proof

/-- A register word, and the word a frame carries: 32 bits, numbered 31 down to 0 (R9, R11, R58). -/
abbrev Word := BitVec 32

/-- A `CMD72` command word: `op` in [71:64], `a` in [63:32], `b` in [31:0] (R57). -/
abbrev CommandWord := BitVec 72

/-- The result part of a `RSP72` response, bits [63:0] (R66). -/
abbrev ResultData := BitVec 64

/-- The number of a register of the Register Model: fixed addresses 0 to 6 (R11). -/
abbrev RegIndex := Fin 7

end Sys2Proof
end

