-- ==== Sys2Proof/Syntax.lean ====
section
/-!
DEFINITION. The instructions: one constructor per row of spec/opcode_table.json, the nineteen
commands of the `CMD72` port (R57, R61) and the eight serial-word rows of the `SER32` link
(R58 to R60); and the thirty named fields of the register file (R16).
-/

namespace Sys2Proof

/-- The named fields, in the order of their field ids 0 to 29 (R16, R63). -/
inductive Field where
  | frac | n | int
  | m | cpl | fcomp
  | muxlo | rdiv | dbr | rdiv2 | lds
  | bsclk | bsHi
  | bsLo | diva | outenA | outenB | mtld | sd0 | sd1 | sd2 | sd3 | sd4
  | adcm | adcs | muxhi
  | vco | vasa | adcv | adc
  deriving DecidableEq, Repr

/-- One instruction. A command keeps the operands its row uses, whole (R62 to R64); the operands
a row does not use are ignored (R57) and are no part of the instruction. A serial word is held
as its payload fields, each at its width, with the unassigned bits (R17) as `rest` (R59). -/
inductive Instr where
  /-- `RDW a`: read a register word (R77). -/
  | rdw (a : BitVec 32)
  /-- `WRW a, b`: write a register word (R78). -/
  | wrw (a b : BitVec 32)
  /-- `RDF a`: read a field (R79). -/
  | rdf (a : BitVec 32)
  /-- `WRF a, b`: write a field (R80). -/
  | wrf (a b : BitVec 32)
  /-- `APPLY6 b`: apply a read-back word to the register-6 view (R81). -/
  | apply6 (b : BitVec 32)
  /-- `WRITEWORD b`: send one frame (R85). -/
  | writeword (b : BitVec 32)
  /-- `WRITEALL`: send registers 5, 4, 3, 2, 1, 0 (R87). -/
  | writeall
  /-- `READREG6`: read the chip's one readable register (R89). -/
  | readreg6
  /-- `SETPFD a, b`: set the reference frequency and divider (R96). -/
  | setpfd (a b : BitVec 32)
  /-- `SETFREQ a`: tune to a target frequency (R99). -/
  | setfreq (a : BitVec 32)
  /-- `POWER b`: logical chip power; only `b[0]` is used (R111). -/
  | power (enable : Bool)
  /-- `OUTEN`: enable the outputs (R112). -/
  | outen
  /-- `OUTDIS`: disable the outputs (R113). -/
  | outdis
  /-- `GETFREQ`: report the realized frequency (R110). -/
  | getfreq
  /-- `READADC`: sample the tuning voltage (R117). -/
  | readadc
  /-- `READTEMP`: sample the die temperature (R119). -/
  | readtemp
  /-- `READVCO`: read the active VCO index (R121). -/
  | readvco
  /-- `READLD`: sample the lock-detect pin (R122). -/
  | readld
  /-- `READDIAG`: all three diagnostics (R123). -/
  | readdiag
  /-- Serial word for chip register 0: `INT` [31], `N` [30:15], `FRAC` [14:3] (R59). -/
  | w0 (int : BitVec 1) (n : BitVec 16) (frac : BitVec 12)
  /-- Serial word for chip register 1: `FCOMP` [17], `CPL` [16:15], `M` [14:3] (R59). -/
  | w1 (rest : BitVec 14) (fcomp : BitVec 1) (cpl : BitVec 2) (m : BitVec 12)
  /-- Serial word for chip register 2: `LDS` [18], `RDIV2` [17], `DBR` [16], `RDIV` [15:6],
  `MUXLO` [5:3] (R59). -/
  | w2 (rest : BitVec 13) (lds rdiv2 dbr : BitVec 1) (rdiv : BitVec 10) (muxlo : BitVec 3)
  /-- Serial word for chip register 3: `BS_HI` [16:15], `BSCLK` [14:3] (R59). -/
  | w3 (rest : BitVec 15) (bsHi : BitVec 2) (bsclk : BitVec 12)
  /-- Serial word for chip register 4: `SD4`..`SD0` [23:19], `MTLD` [18], `OUTEN_B` [17],
  `OUTEN_A` [16], `DIVA` [15:13], `BS_LO` [12:3] (R59). -/
  | w4 (rest : BitVec 8) (sd4 sd3 sd2 sd1 sd0 mtld outenB outenA : BitVec 1) (diva : BitVec 3)
      (bsLo : BitVec 10)
  /-- Serial word for chip register 5: `MUXHI` [7], `ADCS` [6], `ADCM` [5:3] (R59). -/
  | w5 (rest : BitVec 24) (muxhi adcs : BitVec 1) (adcm : BitVec 3)
  /-- Serial word with address tag 6 and some payload bit set: `ADC` [17:11], `ADCV` [10],
  `VASA` [9], `VCO` [8:3] (R59). -/
  | w6 (rest : BitVec 14) (adc : BitVec 7) (adcv vasa : BitVec 1) (vco : BitVec 6)
  /-- The readback request, the serial word `0x00000006` (R60). -/
  | rbreq
  deriving DecidableEq, Repr

/-- What a decoder reads: a `CMD72` word, which the host gives the block, or a `SER32` word, which a
frame carries to the chip (R56). -/
inductive Packet where
  | command (w : CommandWord)
  | serial (v : Word)
  deriving DecidableEq, Repr

end Sys2Proof
end

