-- ==== Sys2Proof/WellFormed.lean ====
section
/-!
DEFINITION. When a term of `Instr` is an instruction of its row. Operand widths are in the types;
what is left is the one overlap of the opcode table: the serial word with tag 6 and an all-zero
payload is the readback request `RBREQ` (R60), not a `W6`.
-/

namespace Sys2Proof

/-- Some payload bit of a tag-6 serial word is set, so the word is no readback request (R60, R71). -/
def hasPayload6 (rest : BitVec 14) (adc : BitVec 7) (adcv vasa : BitVec 1) (vco : BitVec 6) :
    Bool :=
  !(rest == 0 && adc == 0 && adcv == 0 && vasa == 0 && vco == 0)

/-- The instruction is well formed. A register index above 6 or a field id above 29 is a legal
operand, answered with `E_INDEX` (R62, R63), so it is not checked here. -/
def wellFormed : Instr → Bool
  | .rdw _ => true
  | .wrw _ _ => true
  | .rdf _ => true
  | .wrf _ _ => true
  | .apply6 _ => true
  | .writeword _ => true
  | .writeall => true
  | .readreg6 => true
  | .setpfd _ _ => true
  | .setfreq _ => true
  | .power _ => true
  | .outen => true
  | .outdis => true
  | .getfreq => true
  | .readadc => true
  | .readtemp => true
  | .readvco => true
  | .readld => true
  | .readdiag => true
  | .w0 _ _ _ => true
  | .w1 _ _ _ _ => true
  | .w2 _ _ _ _ _ _ => true
  | .w3 _ _ _ => true
  | .w4 _ _ _ _ _ _ _ _ _ _ _ => true
  | .w5 _ _ _ _ => true
  | .w6 rest adc adcv vasa vco => hasPayload6 rest adc adcv vasa vco
  | .rbreq => true

end Sys2Proof
end

