-- ==== Sys2Proof/Decode.lean ====
section
/-!
DEFINITION. The decoder, total on every command word and every serial word, rejecting by name,
and after it the encoder, both written from the same tables (R57 to R61).
-/

namespace Sys2Proof

/-- Why a packet is no instruction of the opcode table. -/
inductive DecodeError where
  /-- The `op` byte has no row in the opcode map; the block answers `E_ILLEGAL` (R70). -/
  | illegalOpcode (op : BitVec 8)
  /-- A serial word with address tag 7, for which there is no format (R58, R71). -/
  | unmappedTag (v : Word)
  deriving DecidableEq, Repr

/-- The operation code of a command, bits [71:64] (R57). -/
def commandOp (w : CommandWord) : BitVec 8 := w.extractLsb' 64 8

/-- The first operand of a command, bits [63:32] (R57). -/
def commandA (w : CommandWord) : BitVec 32 := w.extractLsb' 32 32

/-- The second operand of a command, bits [31:0] (R57). -/
def commandB (w : CommandWord) : BitVec 32 := w.extractLsb' 0 32

/-- Decode a command by its operation code (R61); unused operands are ignored (R57). -/
def decodeCommand (w : CommandWord) : Except DecodeError Instr :=
  match (commandOp w).toNat with
  | 0x00 => .ok (.rdw (commandA w))
  | 0x01 => .ok (.wrw (commandA w) (commandB w))
  | 0x02 => .ok (.rdf (commandA w))
  | 0x03 => .ok (.wrf (commandA w) (commandB w))
  | 0x04 => .ok (.apply6 (commandB w))
  | 0x10 => .ok (.writeword (commandB w))
  | 0x11 => .ok .writeall
  | 0x12 => .ok .readreg6
  | 0x20 => .ok (.setpfd (commandA w) (commandB w))
  | 0x21 => .ok (.setfreq (commandA w))
  | 0x22 => .ok (.power ((commandB w).getLsbD 0))
  | 0x23 => .ok .outen
  | 0x24 => .ok .outdis
  | 0x25 => .ok .getfreq
  | 0x30 => .ok .readadc
  | 0x31 => .ok .readtemp
  | 0x32 => .ok .readvco
  | 0x33 => .ok .readld
  | 0x34 => .ok .readdiag
  | _ => .error (.illegalOpcode (commandOp w))

/-- The address tag of a serial word, bits [2:0] (R58). -/
def serialTag (v : Word) : BitVec 3 := v.extractLsb' 0 3

/-- Decode a serial word by its address tag into its payload fields (R58 to R60). -/
def decodeSerial (v : Word) : Except DecodeError Instr :=
  match (serialTag v).toNat with
  | 0 => .ok (.w0 (v.extractLsb' 31 1) (v.extractLsb' 15 16) (v.extractLsb' 3 12))
  | 1 => .ok (.w1 (v.extractLsb' 18 14) (v.extractLsb' 17 1) (v.extractLsb' 15 2)
      (v.extractLsb' 3 12))
  | 2 => .ok (.w2 (v.extractLsb' 19 13) (v.extractLsb' 18 1) (v.extractLsb' 17 1)
      (v.extractLsb' 16 1) (v.extractLsb' 6 10) (v.extractLsb' 3 3))
  | 3 => .ok (.w3 (v.extractLsb' 17 15) (v.extractLsb' 15 2) (v.extractLsb' 3 12))
  | 4 => .ok (.w4 (v.extractLsb' 24 8) (v.extractLsb' 23 1) (v.extractLsb' 22 1)
      (v.extractLsb' 21 1) (v.extractLsb' 20 1) (v.extractLsb' 19 1) (v.extractLsb' 18 1)
      (v.extractLsb' 17 1) (v.extractLsb' 16 1) (v.extractLsb' 13 3) (v.extractLsb' 3 10))
  | 5 => .ok (.w5 (v.extractLsb' 8 24) (v.extractLsb' 7 1) (v.extractLsb' 6 1)
      (v.extractLsb' 3 3))
  | 6 =>
    if v = 0x00000006 then .ok .rbreq
    else .ok (.w6 (v.extractLsb' 18 14) (v.extractLsb' 11 7) (v.extractLsb' 10 1)
      (v.extractLsb' 9 1) (v.extractLsb' 3 6))
  | _ => .error (.unmappedTag v)

/-- Decode a packet of either encoding (R56); the command port takes commands only (R61). -/
def decode : Packet → Except DecodeError Instr
  | .command w => decodeCommand w
  | .serial v => decodeSerial v

/-- A `CMD72` word from its parts, `op` in the high bits (R57). -/
def commandOf (op : BitVec 8) (a b : BitVec 32) : CommandWord := op ++ a ++ b

/-- The serial word of `W0` (R59). -/
def wordW0 (int : BitVec 1) (n : BitVec 16) (frac : BitVec 12) : Word :=
  int ++ n ++ frac ++ (0b000 : BitVec 3)

/-- The serial word of `W1` (R59). -/
def wordW1 (rest : BitVec 14) (fcomp : BitVec 1) (cpl : BitVec 2) (m : BitVec 12) : Word :=
  rest ++ fcomp ++ cpl ++ m ++ (0b001 : BitVec 3)

/-- The serial word of `W2` (R59). -/
def wordW2 (rest : BitVec 13) (lds rdiv2 dbr : BitVec 1) (rdiv : BitVec 10) (muxlo : BitVec 3) :
    Word :=
  rest ++ lds ++ rdiv2 ++ dbr ++ rdiv ++ muxlo ++ (0b010 : BitVec 3)

/-- The serial word of `W3` (R59). -/
def wordW3 (rest : BitVec 15) (bsHi : BitVec 2) (bsclk : BitVec 12) : Word :=
  rest ++ bsHi ++ bsclk ++ (0b011 : BitVec 3)

/-- The serial word of `W4` (R59). -/
def wordW4 (rest : BitVec 8) (sd4 sd3 sd2 sd1 sd0 mtld outenB outenA : BitVec 1)
    (diva : BitVec 3) (bsLo : BitVec 10) : Word :=
  rest ++ sd4 ++ sd3 ++ sd2 ++ sd1 ++ sd0 ++ mtld ++ outenB ++ outenA ++ diva ++ bsLo ++
    (0b100 : BitVec 3)

/-- The serial word of `W5` (R59). -/
def wordW5 (rest : BitVec 24) (muxhi adcs : BitVec 1) (adcm : BitVec 3) : Word :=
  rest ++ muxhi ++ adcs ++ adcm ++ (0b101 : BitVec 3)

/-- The serial word of `W6` (R59). -/
def wordW6 (rest : BitVec 14) (adc : BitVec 7) (adcv vasa : BitVec 1) (vco : BitVec 6) : Word :=
  rest ++ adc ++ adcv ++ vasa ++ vco ++ (0b110 : BitVec 3)

/-- The packet of an instruction, unused operands zero (R57, R59 to R61, R74). -/
def encode : Instr → Packet
  | .rdw a => .command (commandOf 0x00 a 0)
  | .wrw a b => .command (commandOf 0x01 a b)
  | .rdf a => .command (commandOf 0x02 a 0)
  | .wrf a b => .command (commandOf 0x03 a b)
  | .apply6 b => .command (commandOf 0x04 0 b)
  | .writeword b => .command (commandOf 0x10 0 b)
  | .writeall => .command (commandOf 0x11 0 0)
  | .readreg6 => .command (commandOf 0x12 0 0)
  | .setpfd a b => .command (commandOf 0x20 a b)
  | .setfreq a => .command (commandOf 0x21 a 0)
  | .power enable => .command (commandOf 0x22 0 (if enable then 1 else 0))
  | .outen => .command (commandOf 0x23 0 0)
  | .outdis => .command (commandOf 0x24 0 0)
  | .getfreq => .command (commandOf 0x25 0 0)
  | .readadc => .command (commandOf 0x30 0 0)
  | .readtemp => .command (commandOf 0x31 0 0)
  | .readvco => .command (commandOf 0x32 0 0)
  | .readld => .command (commandOf 0x33 0 0)
  | .readdiag => .command (commandOf 0x34 0 0)
  | .w0 int n frac => .serial (wordW0 int n frac)
  | .w1 rest fcomp cpl m => .serial (wordW1 rest fcomp cpl m)
  | .w2 rest lds rdiv2 dbr rdiv muxlo => .serial (wordW2 rest lds rdiv2 dbr rdiv muxlo)
  | .w3 rest bsHi bsclk => .serial (wordW3 rest bsHi bsclk)
  | .w4 rest sd4 sd3 sd2 sd1 sd0 mtld outenB outenA diva bsLo =>
    .serial (wordW4 rest sd4 sd3 sd2 sd1 sd0 mtld outenB outenA diva bsLo)
  | .w5 rest muxhi adcs adcm => .serial (wordW5 rest muxhi adcs adcm)
  | .w6 rest adc adcv vasa vco => .serial (wordW6 rest adc adcv vasa vco)
  | .rbreq => .serial 0x00000006

/-- The packet a row of the opcode table stands for: 72 bits are a command, 32 bits a serial
word, numbered as the table numbers them. -/
def packetOfTableWord (nbits w : Nat) : Option Packet :=
  if nbits = 72 then some (.command (BitVec.ofNat 72 w))
  else if nbits = 32 then some (.serial (BitVec.ofNat 32 w))
  else none

/-- What the host puts on the command port to have a packet run: a command as it stands; a serial word,
which has no port of its own, as the operand of the one command that sends a given word, `WRITEWORD`
(R61, R71, R85; log entry 4). -/
def portWord : Packet → CommandWord
  | .command w => w
  | .serial v => commandOf 0x10 0 v

/-- The instruction the decoder reads from an opcode-table word of `nbits` bits. -/
def decodeTableWord (nbits w : Nat) : Option Instr :=
  match packetOfTableWord nbits w with
  | none => none
  | some p => (decode p).toOption

end Sys2Proof
end

