-- ==== Sys2Proof/Config.lean ====
section
/-!
DEFINITION. What a build of the block fixes (R7) and the values the spec leaves free. The values
of the parameters stand in Sys2Proof/Machine/Params.lean.
-/

namespace Sys2Proof

/-- The level `DATA_IN` carries at its `k`-th sample, where no level was scheduled: chosen by the
chip, under no law (R25, R27, R40). FREE VALUE, log entry 1. -/
opaque Config.dataInLevel : Nat → Bool

/-- The level `LD_IN` carries at its `k`-th sample, where no level was scheduled: chosen by the
chip, under no law (R25, R27, R122). FREE VALUE, log entry 1. -/
opaque Config.ldInLevel : Nat → Bool

/-- `VASA_EXPECTED`, the one parameter the spec leaves OPEN (R7, R118, D23). FREE VALUE, log
entry 2. -/
opaque Config.vasaExpected : Bool

/-- Where a field lies: its register, its least significant bit and its width (R15). -/
structure Place where
  reg : RegIndex
  lsb : Nat
  width : Nat
  deriving DecidableEq, Repr

/-- `LAYOUT`: a place for each named field (R7, R16). -/
abbrev Layout := Field → Place

/-- `RESCALE_INEXACT`: what the integer branch does with a remainder (R7, R103, D10). -/
inductive RescaleInexact where
  | reject
  | floor
  deriving DecidableEq, Repr

/-- `MUX_RESTORE`: what becomes of the two multiplexer fields after a readback (R7, R92, D21). -/
inductive MuxRestore where
  | leave
  | restoreLocal
  | restoreLocalAndWrite
  deriving DecidableEq, Repr

/-- The implementation parameters of R7, in the order of its table. Frequencies are in MHz,
times in microseconds. -/
structure Params where
  /-- `LAYOUT` -/
  layout : Layout
  /-- `VCO_FLOOR` -/
  vcoFloor : ℚ
  /-- `M_FIXED` -/
  mFixed : Nat
  /-- `LDS_THRESHOLD` -/
  ldsThreshold : ℚ
  /-- `BSCLK_STEP` -/
  bsclkStep : ℚ
  /-- `BS_FACTOR` -/
  bsFactor : ℚ
  /-- `BS_MIN` -/
  bsMin : Int
  /-- `BS_MAX` -/
  bsMax : Int
  /-- `V_OFFSET` -/
  vOffset : ℚ
  /-- `V_SLOPE` -/
  vSlope : ℚ
  /-- `T_OFFSET` -/
  tOffset : ℚ
  /-- `T_SLOPE` -/
  tSlope : ℚ
  /-- `SENTINEL` -/
  sentinel : ℚ
  /-- `T_SETTLE` -/
  tSettle : Nat
  /-- `DIVA_MAX` -/
  divaMax : Nat
  /-- `F_OUT_MIN` -/
  fOutMin : ℚ
  /-- `F_OUT_MAX` -/
  fOutMax : ℚ
  /-- `FREQ_UNIT`, in MHz -/
  freqUnit : ℚ
  /-- `INT_ON` -/
  intOn : Nat
  /-- `INT_OFF` -/
  intOff : Nat
  /-- `FCOMP_ON` -/
  fcompOn : Nat
  /-- `FCOMP_OFF` -/
  fcompOff : Nat
  /-- `CPL_INT` -/
  cplInt : Nat
  /-- `CPL_FRAC` -/
  cplFrac : Nat
  /-- `FRAC_BRANCH_RESTORE` -/
  fracBranchRestore : Bool
  /-- `RESCALE_INEXACT` -/
  rescaleInexact : RescaleInexact
  /-- `DBR_NEUTRAL` -/
  dbrNeutral : Nat
  /-- `RDIV2_NEUTRAL` -/
  rdiv2Neutral : Nat
  /-- The `N_SD` shutdown-control fields -/
  shutdownFields : List Field
  /-- The `N_CH` per-channel output-enable fields -/
  outEnableFields : List Field
  /-- `MUX_RB_HI` -/
  muxRbHi : Nat
  /-- `MUX_RB_LO` -/
  muxRbLo : Nat
  /-- `MUX_RESTORE` -/
  muxRestore : MuxRestore
  /-- `READ_TRAILING_BYTES` -/
  readTrailingBytes : Nat
  /-- `ADCM_VTUNE` -/
  adcmVtune : Nat
  /-- `ADCM_TEMP` -/
  adcmTemp : Nat
  /-- `ADCM_IDLE` -/
  adcmIdle : Nat
  /-- `VASA_EXPECTED` -/
  vasaExpected : Bool
  /-- `LE_DISABLE` -/
  leDisable : Bool
  /-- `LE_ENABLE` -/
  leEnable : Bool
  /-- `CLK_IDLE` -/
  clkIdle : Bool
  /-- `RESET_IMAGE` -/
  resetImage : Vector Word 7
  /-- `RESULT_SCALE` -/
  resultScale : ℚ

end Sys2Proof
end

