-- ==== Sys2Proof/Machine/Arith.lean ====
section
/-!
DEFINITION. The arithmetic primitives of R10 over exact rationals.
-/

namespace Sys2Proof.Machine

/-- `rha(x)`: round half away from zero (R10). -/
def rha (x : ℚ) : Int :=
  if 0 ≤ x then ⌊x + 1 / 2⌋ else -⌊-x + 1 / 2⌋

/-- `clamp(x, a, b)` (R10). -/
def clampInt (x a b : Int) : Int :=
  if x < a then a else if b < x then b else x

/-- `sat_w(n)`: saturate at the largest `w`-bit value (R10). -/
def satW (w n : Nat) : Nat := min n (2 ^ w - 1)

/-- `trunc_w(n)`: keep the low `w` bits (R10). -/
def truncW (w n : Nat) : Nat := n % 2 ^ w

end Sys2Proof.Machine
end

