-- ==== Sys2Proof/Machine/Params.lean ====
section
/-!
DEFINITION. The default instance of the parameters of R7: the layout `LAYOUT_DOC` of R16, the
source's constants and the defaults the spec decides on, and the well-formedness of a layout (R8).
-/

namespace Sys2Proof.Machine

/-- `LAYOUT_DOC`, the default field table (R16). -/
def layoutDoc : Layout
  | .frac => ⟨0, 3, 12⟩
  | .n => ⟨0, 15, 16⟩
  | .int => ⟨0, 31, 1⟩
  | .m => ⟨1, 3, 12⟩
  | .cpl => ⟨1, 15, 2⟩
  | .fcomp => ⟨1, 17, 1⟩
  | .muxlo => ⟨2, 3, 3⟩
  | .rdiv => ⟨2, 6, 10⟩
  | .dbr => ⟨2, 16, 1⟩
  | .rdiv2 => ⟨2, 17, 1⟩
  | .lds => ⟨2, 18, 1⟩
  | .bsclk => ⟨3, 3, 12⟩
  | .bsHi => ⟨3, 15, 2⟩
  | .bsLo => ⟨4, 3, 10⟩
  | .diva => ⟨4, 13, 3⟩
  | .outenA => ⟨4, 16, 1⟩
  | .outenB => ⟨4, 17, 1⟩
  | .mtld => ⟨4, 18, 1⟩
  | .sd0 => ⟨4, 19, 1⟩
  | .sd1 => ⟨4, 20, 1⟩
  | .sd2 => ⟨4, 21, 1⟩
  | .sd3 => ⟨4, 22, 1⟩
  | .sd4 => ⟨4, 23, 1⟩
  | .adcm => ⟨5, 3, 3⟩
  | .adcs => ⟨5, 6, 1⟩
  | .muxhi => ⟨5, 7, 1⟩
  | .vco => ⟨6, 3, 6⟩
  | .vasa => ⟨6, 9, 1⟩
  | .adcv => ⟨6, 10, 1⟩
  | .adc => ⟨6, 11, 7⟩

/-- The fields by their ids: entry `k` of the list has id `k` (R16, R63). -/
def fieldsById : List Field :=
  [.frac, .n, .int, .m, .cpl, .fcomp, .muxlo, .rdiv, .dbr, .rdiv2] ++
  [.lds, .bsclk, .bsHi, .bsLo, .diva, .outenA, .outenB, .mtld, .sd0, .sd1] ++
  [.sd2, .sd3, .sd4, .adcm, .adcs, .muxhi, .vco, .vasa, .adcv, .adc]

/-- A field lies inside bits [31:3] of its register and is 1 to 16 bits wide (R8). -/
def placeOk (pl : Place) : Bool :=
  decide (3 ≤ pl.lsb ∧ pl.lsb + pl.width ≤ 32 ∧ 1 ≤ pl.width ∧ pl.width ≤ 16)

/-- Two places share no bit (R8). -/
def placesApart (p q : Place) : Bool :=
  decide (p.reg ≠ q.reg ∨ p.lsb + p.width ≤ q.lsb ∨ q.lsb + q.width ≤ p.lsb)

/-- The conditions R8 puts on every instance of `LAYOUT`. -/
def layoutOk (l : Layout) : Bool :=
  fieldsById.all (fun f => placeOk (l f)) &&
  fieldsById.all (fun f => fieldsById.all fun g => f == g || placesApart (l f) (l g)) &&
  decide ((l .n).reg = 0 ∧ (l .frac).reg = 0 ∧
    (l .muxhi).reg = 5 ∧ (l .muxlo).reg = 2 ∧
    (l .adcm).reg = 5 ∧ (l .adcs).reg = 5 ∧
    (l .bsLo).reg ≠ (l .bsHi).reg ∧ (l .bsLo).width = 10 ∧ (l .bsHi).width = 2 ∧
    (l .adc).reg = 6 ∧ (l .adcv).reg = 6 ∧ (l .vasa).reg = 6 ∧ (l .vco).reg = 6 ∧
    12 ≤ (l .m).width)

/-- The default parameters (R7, fifth column): the ones the instructions run with (log entry 9). -/
def params : Params where
  layout := layoutDoc
  vcoFloor := 3000
  mFixed := 4000
  ldsThreshold := 32
  bsclkStep := 1 / 10
  bsFactor := 20
  bsMin := 1
  bsMax := 1023
  vOffset := 63 / 200
  vSlope := 33 / 2000
  tOffset := 95
  tSlope := 57 / 50
  sentinel := -1
  tSettle := 100
  divaMax := 7
  fOutMin := 47 / 2
  fOutMax := 6000
  freqUnit := 1 / 1000
  intOn := 1
  intOff := 0
  fcompOn := 1
  fcompOff := 0
  cplInt := 0
  cplFrac := 1
  fracBranchRestore := true
  rescaleInexact := .reject
  dbrNeutral := 0
  rdiv2Neutral := 0
  shutdownFields := [.sd0, .sd1, .sd2, .sd3, .sd4]
  outEnableFields := [.outenA, .outenB]
  muxRbHi := 1
  muxRbLo := 4
  muxRestore := .restoreLocal
  readTrailingBytes := 1
  adcmVtune := 4
  adcmTemp := 1
  adcmIdle := 0
  vasaExpected := Config.vasaExpected
  leDisable := false
  leEnable := true
  clkIdle := false
  resetImage := Vector.replicate 7 0
  resultScale := 10000

end Sys2Proof.Machine
end

