-- ==== Sys2Proof/Machine/State.lean ====
section
/-!
DEFINITION. The state of the block, its pins and ghosts, the inputs its environment has in store,
the reasons a step can stop, and the state right after reset (R11 to R33).
-/

namespace Sys2Proof.Machine

/-- The status codes a command completes with (R145). -/
inductive Code where
  | ok | range | noPfd | zero | field | inexact | index | illegal
  deriving DecidableEq, Repr

/-- The output pins of the serial link (R24). -/
inductive OutPin where
  | le | clk | dataOut
  deriving DecidableEq, Repr

/-- The input pins (R25). -/
inductive InPin where
  | dataIn | ldIn
  deriving DecidableEq, Repr

/-- One entry of `PINTRACE`: a pin driven (R24), a pin sampled (R25), or a wait of at least so
many microseconds (R176). -/
inductive PinEvent where
  | write (p : OutPin) (b : Bool)
  | read (p : InPin) (b : Bool)
  | wait (us : Nat)
  deriving DecidableEq, Repr

/-- The sequencer position `SEQ` (R30): idle, or the command being run with the index of the
current step, of the frame within it and of the bit being shifted. -/
inductive Seq where
  | idle
  | running (op : BitVec 8) (step word bit : Nat)
  deriving DecidableEq, Repr

/-- A `RSP72` response: `status` in [71:64], `data` in [63:0] (R66). -/
structure Response where
  status : BitVec 8
  data : ResultData
  deriving DecidableEq, Repr

/-- What the environment has in store for an input pin: the levels scheduled for its next samples,
oldest first, and how many samples have been taken. Model's own (log entry 1). -/
structure InPort where
  queue : List Bool
  taken : Nat
  deriving DecidableEq, Repr

/-- What the outside does next: a command word on the command port, or the reset input asserted. The
block has no other input but the two pins it samples (R25 to R27, R61, R162). Model's own (log entry
3). -/
inductive Offer where
  | command (w : CommandWord)
  | reset
  deriving DecidableEq, Repr

/-- Why the machine stops with a fault. The spec gives the block no fault: a command that cannot
run completes with an error status (R144), a transport failure is not observable (R147) and
nothing hangs (R159), so the type has no constructor and no step can fault (safe). -/
inductive Fault where
  deriving DecidableEq, Repr

/-- Why an instruction has no meaning. -/
inductive Refusal where
  /-- Raised by an arm of `exec` whose instruction is not modelled yet; no arm is left (safe). -/
  | notModelled (mnemonic : String)
  deriving DecidableEq, Repr

/-- The whole machine. -/
@[ext]
structure State where
  /-- `R[0]`..`R[6]` (R11) -/
  regs : Vector Word 7
  /-- `F_REF` in MHz, `none` while unset (R19) -/
  fRef : Option ℚ
  /-- `RDIV_S`, `none` while unset (R19) -/
  rdivS : Option Nat
  /-- `F_PFD` in MHz, `none` while unset (R19) -/
  fPfd : Option ℚ
  /-- `F_TARGET` in MHz, `none` while unset (R19) -/
  fTarget : Option ℚ
  /-- `STATUS` (R23) -/
  status : BitVec 8
  /-- `BUSY` (R23, R73) -/
  busy : Bool
  /-- `SEQ` (R30) -/
  seq : Seq
  /-- The level of `LE` (R24) -/
  le : Bool
  /-- The level of `CLK` (R24) -/
  clk : Bool
  /-- The level of `DATA_OUT` (R24) -/
  dataOut : Bool
  /-- The response port (R26, R66) -/
  response : Response
  /-- Ghost `CHIP[0]`..`CHIP[6]`, `none` is `unknown` (R28) -/
  chip : Vector (Option Word) 7
  /-- Ghost `CHIP_RB`, `none` is `unknown` (R28, R38) -/
  chipRb : Option Bool
  /-- Ghost `PINTRACE`, oldest event first (R24) -/
  pinTrace : List PinEvent
  /-- Ghost: some command has ended with a status other than `OK` since reset (R151); model's own
  (log entry 6) -/
  errorSeen : Bool
  /-- What the chip will drive on `DATA_IN` (R25, R27); model's own (log entry 1) -/
  dataIn : InPort
  /-- What the chip will drive on `LD_IN` (R25, R27); model's own (log entry 1) -/
  ldIn : InPort
  /-- What the host will offer, oldest first; the head stands on the command port (R26, R73);
  model's own (log entry 3) -/
  offers : List Offer
  deriving DecidableEq, Repr

/-- A word as register `i` stores it: bits [31:3] of the word, tag `i` (R12, R13). -/
def tagged (i : RegIndex) (v : Word) : Word :=
  (v.extractLsb' 3 29 ++ BitVec.ofNat 3 i.val : BitVec (29 + 3))

/-- The machine right after reset (R33), with nothing offered and no input level scheduled. -/
def State.reset : State where
  regs := Vector.ofFn fun i => tagged i (params.resetImage.get i)
  fRef := none
  rdivS := none
  fPfd := none
  fTarget := none
  status := 0x00
  busy := false
  seq := .idle
  le := params.leEnable
  clk := params.clkIdle
  dataOut := false
  response := ⟨0x00, 0⟩
  chip := Vector.replicate 7 none
  chipRb := none
  pinTrace := []
  errorSeen := false
  dataIn := ⟨[], 0⟩
  ldIn := ⟨[], 0⟩
  offers := []

end Sys2Proof.Machine
end

