-- ==== Sys2Proof/Machine/Ops.lean ====
section
/-!
DEFINITION. The shared operations: registers and fields (R11 to R15), pins and waits (R24, R25,
R176), frames and the readback (R84 to R92), the ghost chip (R38), completing a command (R66, R73),
raising an error (R149) and the reset event (R162, R163). The parameters are an argument, so that
each operation is given for every instance of R7; the instructions take the default one.
-/

namespace Sys2Proof.Machine

/-! ### Registers and fields -/

/-- `R[i]`: the whole word of register `i` (R11). -/
def readReg (i : RegIndex) (s : State) : Word := s.regs.get i

/-- `R[i] <- v`: bits [31:3] of `v` are stored, the tag stays `i` (R12, R13). -/
def writeReg (i : RegIndex) (v : Word) (s : State) : State :=
  { s with regs := s.regs.set i.val (tagged i v) i.isLt }

/-- `mask(F)` (R15). -/
def placeMask (pl : Place) : Word := BitVec.ofNat 32 (2 ^ pl.width - 1) <<< pl.lsb

/-- The bits of a place within a word, as an unsigned integer (R15). -/
def getBits (pl : Place) (v : Word) : Nat :=
  ((v >>> pl.lsb) &&& BitVec.ofNat 32 (2 ^ pl.width - 1)).toNat

/-- A word with the bits of a place replaced by `x`, truncated to the width (R15). -/
def putBits (pl : Place) (x : Nat) (v : Word) : Word :=
  (v &&& ~~~placeMask pl) |||
    ((BitVec.ofNat 32 (truncW pl.width x) <<< pl.lsb) &&& placeMask pl)

/-- `fld(F)` (R15). -/
def getField (l : Layout) (f : Field) (s : State) : Nat :=
  getBits (l f) (readReg (l f).reg s)

/-- `fld(F) <- x` (R15). -/
def setField (l : Layout) (f : Field) (x : Nat) (s : State) : State :=
  writeReg (l f).reg (putBits (l f) x (readReg (l f).reg s)) s

/-- A list of field writes, first to last. -/
def setFields (l : Layout) (fs : List (Field × Nat)) (s : State) : State :=
  fs.foldl (fun t fx => setField l fx.1 fx.2 t) s

/-! ### Pins -/

/-- The level an output pin holds after some events: the last one driven on it, else the level `b` it
had (R24). -/
def lastLevel (p : OutPin) (es : List PinEvent) (b : Bool) : Bool :=
  es.foldl (fun l e => match e with
    | .write q x => if q = p then x else l
    | .read _ _ => l
    | .wait _ => l) b

/-- Perform events in order: the pins take their levels and `PINTRACE` grows by them (R24, R49). -/
def drive (es : List PinEvent) (s : State) : State :=
  { s with
    le := lastLevel .le es s.le
    clk := lastLevel .clk es s.clk
    dataOut := lastLevel .dataOut es s.dataOut
    pinTrace := s.pinTrace ++ es }

/-- `PinWrite(p, b)` (R24). -/
def pinWrite (p : OutPin) (b : Bool) (s : State) : State := drive [.write p b] s

/-- `Wait(t)`: one event, nothing else in a model without time (R176; log entry 11). -/
def wait (us : Nat) (s : State) : State := drive [.wait us] s

/-- The level the environment gives the next sample: the scheduled one, else the free value of
that sample (R25). -/
def nextLevel (free : Nat → Bool) (i : InPort) : Bool :=
  match i.queue with
  | b :: _ => b
  | [] => free i.taken

/-- An input pin after one sample. -/
def afterSample (i : InPort) : InPort := ⟨i.queue.tail, i.taken + 1⟩

/-- `PinRead(DATA_IN)` (R25). -/
def readDataIn (s : State) : Bool × State :=
  let b := nextLevel Config.dataInLevel s.dataIn
  (b, drive [.read .dataIn b] { s with dataIn := afterSample s.dataIn })

/-- `PinRead(LD_IN)` (R25). -/
def readLdIn (s : State) : Bool × State :=
  let b := nextLevel Config.ldInLevel s.ldIn
  (b, drive [.read .ldIn b] { s with ldIn := afterSample s.ldIn })

/-! ### The ghost chip -/

/-- `MemWrite(v[2:0], 4, v)`: the ghost effect of one complete frame (R38). A frame with tag 6 and
a payload, or with tag 7, has no ghost effect (R38, R71; log entry 5). -/
def memWrite (v : Word) (s : State) : State :=
  if (serialTag v).toNat ≤ 5 then
    { s with chip := s.chip.setIfInBounds (serialTag v).toNat (some v) }
  else if v = 0x00000006 then { s with chipRb := some true }
  else s

/-- `RB_ROUTED`: the chip's two multiplexer fields hold the readback values (R38). -/
def rbRouted (p : Params) (s : State) : Bool :=
  match s.chip.get 5, s.chip.get 2 with
  | some v5, some v2 =>
    getBits (p.layout .muxhi) v5 == p.muxRbHi && getBits (p.layout .muxlo) v2 == p.muxRbLo
  | _, _ => false

/-- A readback that starts now is well requested (R38). -/
def wellRequested (p : Params) (s : State) : Bool :=
  rbRouted p s && s.chipRb == some true

/-! ### The serial link -/

/-- `ShiftOutBit(d)` as its three events (R84). -/
def bitEvents (p : Params) (d : Bool) : List PinEvent :=
  [.write .dataOut d, .write .clk (!p.clkIdle), .write .clk p.clkIdle]

/-- The bits of a byte of a word in the order they go out, most significant first (R41, R85). -/
def byteBits (v : Word) (k : Nat) : List Bool :=
  [7, 6, 5, 4, 3, 2, 1, 0].map fun j => v.getLsbD (8 * k + j)

/-- The bits of a word in the order they go out (R41, R85). -/
def wordBits (v : Word) : List Bool :=
  [3, 2, 1, 0].flatMap (byteBits v)

/-- The events of one frame: latch-disable, 32 bit cells, latch-enable (R85). -/
def frameEvents (p : Params) (v : Word) : List PinEvent :=
  [.write .le p.leDisable] ++ (wordBits v).flatMap (bitEvents p) ++ [.write .le p.leEnable]

/-- `WRITEWORD(v)`: one frame, and its ghost effect at the latch-enable (R85). -/
def sendFrame (p : Params) (v : Word) (s : State) : State :=
  memWrite v (drive (frameEvents p v) s)

/-- `WRREG i`: the frame of the current local word (R75). -/
def sendReg (p : Params) (i : RegIndex) (s : State) : State :=
  sendFrame p (readReg i s) s

/-- `WRITEALL()`: registers 5, 4, 3, 2, 1, 0 in this order (R87). -/
def writeAll (p : Params) (s : State) : State :=
  ([5, 4, 3, 2, 1, 0] : List RegIndex).foldl (fun t i => sendReg p i t) s

/-- The bits still to come of `XferByte(o)`, `n` of them, most significant first; `r` holds the bits
received so far (R90). -/
def xferBits (p : Params) (o : BitVec 8) : Nat → BitVec 8 → State → BitVec 8 × State
  | 0, r, s => (r, s)
  | j + 1, r, s =>
    let s1 := drive [.write .dataOut (o.getLsbD j), .write .clk (!p.clkIdle)] s
    let bs := readDataIn s1
    let s3 := drive [.write .clk p.clkIdle] bs.2
    xferBits p o j (r ||| (BitVec.ofNat 8 bs.1.toNat <<< j)) s3

/-- `XferByte(o)`: shift a byte out and one in (R90). -/
def xferByte (p : Params) (o : BitVec 8) (s : State) : BitVec 8 × State :=
  xferBits p o 8 0 s

/-- The trailing zero bytes of a readback, what arrives during them ignored (R89 step (c)). -/
def trailingBytes (p : Params) (s : State) : State :=
  drive ((List.replicate p.readTrailingBytes (List.replicate 8 false)).flatten.flatMap
    (bitEvents p)) s

/-- `Reconstruct(B0, B1, B2, B3)`: bit offsets 25, 17, 9 and 1, modulo 2^32 (R91). -/
def reconstruct (b0 b1 b2 b3 : BitVec 8) : Word :=
  (b0.setWidth 32 <<< 25) ||| (b1.setWidth 32 <<< 17) ||| (b2.setWidth 32 <<< 9) |||
    (b3.setWidth 32 <<< 1)

/-- Steps (c) and (d) of `READREG6`: four bytes in, the trailing bytes, the word (R89). -/
def shiftIn (p : Params) (s : State) : Word × State :=
  let x0 := xferByte p 0x00 s
  let x1 := xferByte p 0x00 x0.2
  let x2 := xferByte p 0x00 x1.2
  let x3 := xferByte p 0x00 x2.2
  (reconstruct x0.1 x1.1 x2.1 x3.1, trailingBytes p x3.2)

/-- Steps (a) and (b) of `READREG6`: route the data out, ask for the readback (R89). -/
def requestReadback (p : Params) (s : State) : State :=
  let s1 := setFields p.layout [(.muxhi, p.muxRbHi), (.muxlo, p.muxRbLo)] s
  sendFrame p 0x00000006 (sendReg p 2 (sendReg p 5 s1))

/-- Step (e) of `READREG6`: the end of the temporary routing (R89, R92). -/
def endRouting (p : Params) (hi lo : Nat) (s : State) : State :=
  match p.muxRestore with
  | .leave => s
  | .restoreLocal => setFields p.layout [(.muxhi, hi), (.muxlo, lo)] s
  | .restoreLocalAndWrite =>
    sendReg p 2 (sendReg p 5 (setFields p.layout [(.muxhi, hi), (.muxlo, lo)] s))

/-- `READREG6()` (R89). -/
def readReg6 (p : Params) (s : State) : Word × State :=
  let hi := getField p.layout .muxhi s
  let lo := getField p.layout .muxlo s
  let x := shiftIn p (requestReadback p s)
  (x.1, endRouting p hi lo x.2)

/-! ### Commands -/

/-- The 8-bit value of a status code (R145). -/
def statusByte : Code → BitVec 8
  | .ok => 0x00
  | .range => 0x01
  | .noPfd => 0x02
  | .zero => 0x03
  | .field => 0x04
  | .inexact => 0x05
  | .index => 0x06
  | .illegal => 0x07

/-- A command is accepted: `BUSY` is set and the sequencer starts on it (R23, R30, R73). -/
def accept (op : BitVec 8) (s : State) : State :=
  { s with busy := true, seq := .running op 0 0 31 }

/-- A command completes: the response is delivered, `STATUS` takes its code, `BUSY` is cleared and
the sequencer is idle (R23, R66, R73). -/
def respond (c : Code) (d : ResultData) (s : State) : State :=
  { s with
    status := statusByte c
    response := ⟨statusByte c, d⟩
    busy := false
    seq := .idle
    errorSeen := s.errorSeen || c != .ok }

/-- `raise <Error>`: the command ends with its code and no data, nothing else of the block has
changed (R149). -/
def raiseError (c : Code) (s : State) : State := respond c 0 s

/-- Run one command to completion, as one step (R30, R73; log entry 7): `body` makes its checks first
and answers an error, or the result data and the state it leaves. -/
def runCommand (op : BitVec 8) (body : State → Except Code (ResultData × State)) (s : State) :
    Host.Outcome State Fault Refusal :=
  match body (accept op s) with
  | .ok (d, t) => .next (respond .ok d t)
  | .error c => .next (raiseError c s)

/-- Run a serial word: the block sends a given word only for the explicit `WRITEWORD` that has it as its
operand, so that is the command run (R58, R61, R71, R85; log entry 4). -/
def runSerial (v : Word) (s : State) : Host.Outcome State Fault Refusal :=
  runCommand 0x10 (fun t => .ok (0, sendFrame params v t)) s

/-- The reset event: everything of the block and its ghosts at its reset value; what the
environment has in store is not the block's and stays (R162, R163; log entry 8). -/
def resetEvent (s : State) : State :=
  { State.reset with dataIn := s.dataIn, ldIn := s.ldIn, offers := s.offers }

end Sys2Proof.Machine
end

