-- ==== Sys2Proof/Machine/Operands.lean ====
section
/-!
DEFINITION. The operand forms of the commands (R62 to R65) and the forms of their results
(R67 to R69).
-/

namespace Sys2Proof.Machine

/-- The register index operand: all 32 bits, 0 to 6 (R62). -/
def regOperand (a : BitVec 32) : Except Code RegIndex :=
  if h : a.toNat < 7 then .ok ⟨a.toNat, h⟩ else .error .index

/-- The field id operand: all 32 bits, 0 to 29 (R63). -/
def fieldOperand (a : BitVec 32) : Except Code Field :=
  match fieldsById[a.toNat]? with
  | some f => .ok f
  | none => .error .index

/-- A frequency operand in MHz: a count of `FREQ_UNIT` (R64). -/
def freqOperand (p : Params) (a : BitVec 32) : ℚ := (a.toNat : ℚ) * p.freqUnit

/-- The low part of a band-select value, `bs & 0x3FF` (R65, R96). -/
def bandLow (bs : Nat) : Nat := bs &&& 0x3FF

/-- The high part of a band-select value, `(bs >> 8) & 0x3` (R65, R96). -/
def bandHigh (bs : Nat) : Nat := (bs >>> 8) &&& 0x3

/-- Result data that is a word: [31:0] (R67). -/
def dataOfWord (v : Word) : ResultData := v.setWidth 64

/-- Result data that is a field value: [15:0] (R67). -/
def dataOfField (x : Nat) : ResultData := (BitVec.ofNat 16 x).setWidth 64

/-- Result data that is a frequency in Hz, rounded down (R67, R110). -/
def dataOfFreq (f : ℚ) : ResultData := BitVec.ofInt 64 ⌊f * 10 ^ 6⌋

/-- Result data that is one pin level: [0] (R67). -/
def dataOfLevel (b : Bool) : ResultData := (BitVec.ofBool b).setWidth 64

/-- A diagnostic value as 32-bit two's complement at scale `RESULT_SCALE` (R68). -/
def fixedPoint (p : Params) (x : ℚ) : BitVec 32 := BitVec.ofInt 32 ⌊x * p.resultScale⌋

/-- Result data of `READADC` and `READTEMP`: value [31:0], valid [32], ADC code [47:40] (R67). -/
def dataOfReading (p : Params) (valid : Bool) (x : ℚ) (code : Nat) : ResultData :=
  (BitVec.ofNat 8 code ++ (0 : BitVec 7) ++ BitVec.ofBool valid ++ fixedPoint p x :
    BitVec (8 + 7 + 1 + 32)).setWidth 64

/-- Result data of `READDIAG`: voltage code [15:0], temperature code [31:16], VCO [47:32], voltage
valid [48], temperature valid [49] (R67, R69). -/
def dataOfDiag (vv tv : Bool) (cv ct vco : Nat) : ResultData :=
  (BitVec.ofBool tv ++ BitVec.ofBool vv ++ BitVec.ofNat 16 vco ++ BitVec.ofNat 16 ct ++
    BitVec.ofNat 16 cv : BitVec (1 + 1 + 16 + 16 + 16)).setWidth 64

end Sys2Proof.Machine
end

