-- ==== Sys2Proof/Machine/Flags.lean ====
section
/-!
DEFINITION. The flag-like fields (R22) and the rules that compute or test them: the lock-detect-speed
flag of `SETPFD` (R96), the mode fields of `SETFREQ` (R103, R105) and the guards and decodes of the
diagnostics (R118, R120). The block has no arithmetic condition codes (R22).
-/

namespace Sys2Proof.Machine

/-- The lock-detect-speed field: 1 when the PFD frequency is above the threshold (R96). -/
def lockSpeed (p : Params) (f : ℚ) : Nat := if p.ldsThreshold < f then 1 else 0

/-- The mode fields `INT`, `FCOMP`, `CPL` that `SETFREQ` writes: integer mode when the fractional
part is zero (R103), else fractional mode if that branch rewrites them (R105). -/
def modeFields (p : Params) (frac : Int) : List (Field × Nat) :=
  if frac = 0 then [(.int, p.intOn), (.fcomp, p.fcompOff), (.cpl, p.cplInt)]
  else if p.fracBranchRestore then [(.int, p.intOff), (.fcomp, p.fcompOn), (.cpl, p.cplFrac)]
  else []

/-- The current configuration is in integer mode (R21, R109). -/
def integerMode (p : Params) (s : State) : Bool := getField p.layout .int s == p.intOn

/-- The voltage guard: ADC-valid set and the auto-select bit as expected (R118). -/
def voltsValid (p : Params) (s : State) : Bool :=
  getField p.layout .adcv s == 1 && getField p.layout .vasa s == p.vasaExpected.toNat

/-- `DecodeVolts()` (R118). -/
def decodeVolts (p : Params) (s : State) : Bool × ℚ :=
  (voltsValid p s,
    if voltsValid p s then p.vOffset + p.vSlope * (getField p.layout .adc s : ℚ) else p.sentinel)

/-- The temperature guard: ADC-valid set (R120). -/
def degreesValid (p : Params) (s : State) : Bool := getField p.layout .adcv s == 1

/-- `DecodeTemp()` (R120). -/
def decodeDegrees (p : Params) (s : State) : Bool × ℚ :=
  (degreesValid p s,
    if degreesValid p s then p.tOffset - p.tSlope * (getField p.layout .adc s : ℚ)
    else p.sentinel)

end Sys2Proof.Machine
end

