-- ==== Sys2Proof/Machine/DiagnosticsReader.lean ====
section
/-!
DEFINITION. The Diagnostics Reader family: `READADC`, `READTEMP`, `READVCO`, `READLD`, `READDIAG`
(R115 to R125). No operation of the family can fail (R115, R146).
-/

namespace Sys2Proof.Machine

/-- One ADC reading: the mode field at `mode`, conversion started, register 5 sent, the settle wait,
the readback, the ADC fields at idle, register 5 sent again, the word applied to `R[6]` (R116, R117,
R119). -/
def sampleAdc (p : Params) (mode : Nat) (s : State) : State :=
  let s1 := sendReg p 5 (setFields p.layout [(.adcm, mode), (.adcs, 1)] s)
  let x := readReg6 p (wait p.tSettle s1)
  let s2 := sendReg p 5 (setFields p.layout [(.adcm, p.adcmIdle), (.adcs, 0)] x.2)
  writeReg 6 x.1 s2

/-- What a reading answers: its guard, its value, its raw code. -/
structure Reading where
  valid : Bool
  value : ℚ
  code : Nat
  deriving DecidableEq, Repr

/-- `READADC()` (R117). -/
def readAdc (p : Params) (s : State) : Reading × State :=
  let t := sampleAdc p p.adcmVtune s
  (⟨(decodeVolts p t).1, (decodeVolts p t).2, getField p.layout .adc t⟩, t)

/-- `READTEMP()` (R119). -/
def readTemp (p : Params) (s : State) : Reading × State :=
  let t := sampleAdc p p.adcmTemp s
  (⟨(decodeDegrees p t).1, (decodeDegrees p t).2, getField p.layout .adc t⟩, t)

/-- `READVCO()`: a bare readback, applied to `R[6]` (R116, R121). -/
def readVco (p : Params) (s : State) : Nat × State :=
  let x := readReg6 p s
  let t := writeReg 6 x.1 x.2
  (getField p.layout .vco t, t)

/-- The model-level result of `READDIAG`, and the state it leaves: voltage, temperature, VCO, in
this order (R69, R123). -/
def readDiag (p : Params) (s : State) : (Reading × Reading × Nat) × State :=
  let v := readAdc p s
  let t := readTemp p v.2
  let o := readVco p t.2
  ((v.1, t.1, o.1), o.2)

/-- `READADC` (R117). -/
def execReadadc (s : State) : Host.Outcome State Fault Refusal :=
  runCommand 0x30 (fun t =>
    let x := readAdc params t
    .ok (dataOfReading params x.1.valid x.1.value x.1.code, x.2)) s

/-- `READTEMP` (R119). -/
def execReadtemp (s : State) : Host.Outcome State Fault Refusal :=
  runCommand 0x31 (fun t =>
    let x := readTemp params t
    .ok (dataOfReading params x.1.valid x.1.value x.1.code, x.2)) s

/-- `READVCO` (R121). -/
def execReadvco (s : State) : Host.Outcome State Fault Refusal :=
  runCommand 0x32 (fun t =>
    let x := readVco params t
    .ok (dataOfField x.1, x.2)) s

/-- `READLD` (R122). -/
def execReadld (s : State) : Host.Outcome State Fault Refusal :=
  runCommand 0x33 (fun t =>
    let x := readLdIn t
    .ok (dataOfLevel x.1, x.2)) s

/-- `READDIAG` (R123). -/
def execReaddiag (s : State) : Host.Outcome State Fault Refusal :=
  runCommand 0x34 (fun t =>
    let x := readDiag params t
    .ok (dataOfDiag x.1.1.valid x.1.2.1.valid x.1.1.code x.1.2.1.code x.1.2.2, x.2)) s

end Sys2Proof.Machine
end

