-- ==== Sys2Proof/Machine/RegisterModel.lean ====
section
/-!
DEFINITION. The Register Model family: `RDW`, `WRW`, `RDF`, `WRF`, `APPLY6` (R76 to R82). No
operation of the family drives a pin or touches the Synthesizer State.
-/

namespace Sys2Proof.Machine

/-- `RDW a` (R77). -/
def execRdw (a : BitVec 32) (s : State) : Host.Outcome State Fault Refusal :=
  runCommand 0x00 (fun t => (regOperand a).map fun i => (dataOfWord (readReg i t), t)) s

/-- `WRW a, b` (R78). -/
def execWrw (a b : BitVec 32) (s : State) : Host.Outcome State Fault Refusal :=
  runCommand 0x01 (fun t => (regOperand a).map fun i => (0, writeReg i b t)) s

/-- `RDF a` (R79). -/
def execRdf (a : BitVec 32) (s : State) : Host.Outcome State Fault Refusal :=
  runCommand 0x02 (fun t =>
    (fieldOperand a).map fun f => (dataOfField (getField params.layout f t), t)) s

/-- `WRF a, b` (R80). -/
def execWrf (a b : BitVec 32) (s : State) : Host.Outcome State Fault Refusal :=
  runCommand 0x03 (fun t =>
    (fieldOperand a).map fun f => (0, setField params.layout f b.toNat t)) s

/-- `APPLY6 b` (R81). -/
def execApply6 (b : BitVec 32) (s : State) : Host.Outcome State Fault Refusal :=
  runCommand 0x04 (fun t => .ok (0, writeReg 6 b t)) s

end Sys2Proof.Machine
end

