-- ==== Sys2Proof/Machine/SerialTransport.lean ====
section
/-!
DEFINITION. The Serial Transport family: `WRITEWORD`, `WRITEALL`, `READREG6` (R83 to R94). No
operation of the family can fail (R93).
-/

namespace Sys2Proof.Machine

/-- `WRITEWORD b` (R85). -/
def execWriteword (b : BitVec 32) (s : State) : Host.Outcome State Fault Refusal :=
  runCommand 0x10 (fun t => .ok (0, sendFrame params b t)) s

/-- `WRITEALL` (R87). -/
def execWriteall (s : State) : Host.Outcome State Fault Refusal :=
  runCommand 0x11 (fun t => .ok (0, writeAll params t)) s

/-- `READREG6` (R89). -/
def execReadreg6 (s : State) : Host.Outcome State Fault Refusal :=
  runCommand 0x12 (fun t =>
    let x := readReg6 params t
    .ok (dataOfWord x.1, x.2)) s

end Sys2Proof.Machine
end

