-- ==== Sys2Proof/Machine/SerialWords.lean ====
section
/-!
DEFINITION. The serial words `W0` to `W6` and `RBREQ`: each is run as the explicit `WRITEWORD` that
has the word as its operand, the one frame that carries it with the ghost effect of that frame on the
chip, and the response of a command (R38, R56, R58 to R61, R71, R85; log entry 4).
-/

namespace Sys2Proof.Machine

/-- `W0`: chip register 0 (R38, R59). -/
def execW0 (int : BitVec 1) (n : BitVec 16) (frac : BitVec 12) (s : State) :
    Host.Outcome State Fault Refusal :=
  runSerial (wordW0 int n frac) s

/-- `W1`: chip register 1 (R38, R59). -/
def execW1 (rest : BitVec 14) (fcomp : BitVec 1) (cpl : BitVec 2) (m : BitVec 12) (s : State) :
    Host.Outcome State Fault Refusal :=
  runSerial (wordW1 rest fcomp cpl m) s

/-- `W2`: chip register 2 (R38, R59). -/
def execW2 (rest : BitVec 13) (lds rdiv2 dbr : BitVec 1) (rdiv : BitVec 10) (muxlo : BitVec 3)
    (s : State) : Host.Outcome State Fault Refusal :=
  runSerial (wordW2 rest lds rdiv2 dbr rdiv muxlo) s

/-- `W3`: chip register 3 (R38, R59). -/
def execW3 (rest : BitVec 15) (bsHi : BitVec 2) (bsclk : BitVec 12) (s : State) :
    Host.Outcome State Fault Refusal :=
  runSerial (wordW3 rest bsHi bsclk) s

/-- `W4`: chip register 4 (R38, R59). -/
def execW4 (rest : BitVec 8) (sd4 sd3 sd2 sd1 sd0 mtld outenB outenA : BitVec 1)
    (diva : BitVec 3) (bsLo : BitVec 10) (s : State) : Host.Outcome State Fault Refusal :=
  runSerial (wordW4 rest sd4 sd3 sd2 sd1 sd0 mtld outenB outenA diva bsLo) s

/-- `W5`: chip register 5 (R38, R59). -/
def execW5 (rest : BitVec 24) (muxhi adcs : BitVec 1) (adcm : BitVec 3) (s : State) :
    Host.Outcome State Fault Refusal :=
  runSerial (wordW5 rest muxhi adcs adcm) s

/-- `W6`: sent like any other word, with no ghost effect (R38, R71). -/
def execW6 (rest : BitVec 14) (adc : BitVec 7) (adcv vasa : BitVec 1) (vco : BitVec 6)
    (s : State) : Host.Outcome State Fault Refusal :=
  runSerial (wordW6 rest adc adcv vasa vco) s

/-- `RBREQ`: the chip has been asked to shift out register 6 (R38, R60). -/
def execRbreq (s : State) : Host.Outcome State Fault Refusal :=
  runSerial 0x00000006 s

end Sys2Proof.Machine
end

