-- ==== Sys2Proof/Machine/SynthesisEngine.lean ====
section
/-!
DEFINITION. The Synthesis Engine family: `SETPFD`, `SETFREQ`, `GETFREQ`, `POWER`, `OUTEN`, `OUTDIS`
(R95 to R114). Every check precedes every write (R95).
-/

namespace Sys2Proof.Machine

/-! ### SETPFD -/

/-- The band-select clock divider: `f / BSCLK_STEP` rounded, saturated at its field width (R96). -/
def bandClock (p : Params) (f : ℚ) : Nat :=
  satW (p.layout .bsclk).width (rha (f / p.bsclkStep)).toNat

/-- The band-select value: `floor(f * BS_FACTOR)` clamped (R96, R98). -/
def bandSelect (p : Params) (f : ℚ) : Nat :=
  (clampInt ⌊f * p.bsFactor⌋ p.bsMin p.bsMax).toNat

/-- The fields `SETPFD` writes, in the order of its rule (R96). -/
def pfdFields (p : Params) (f : ℚ) (div : Nat) : List (Field × Nat) :=
  [(.lds, lockSpeed p f), (.bsclk, bandClock p f), (.dbr, p.dbrNeutral), (.rdiv2, p.rdiv2Neutral),
    (.rdiv, div), (.bsLo, bandLow (bandSelect p f)), (.bsHi, bandHigh (bandSelect p f))]

/-- `SETPFD(a, b)`: the checks of R97, then R96. -/
def setPfd (p : Params) (a b : BitVec 32) (s : State) : Except Code State :=
  if a = 0 ∨ b = 0 then .error .zero
  else if 2 ^ (p.layout .rdiv).width - 1 < b.toNat then .error .field
  else
    let ref := freqOperand p a
    let f := ref / (b.toNat : ℚ)
    let s1 := { s with fRef := some ref, rdivS := some b.toNat, fPfd := some f }
    .ok (writeAll p (setFields p.layout (pfdFields p f b.toNat) s1))

/-! ### SETFREQ -/

/-- The search from exponent `d` on, `fuel` exponents left to try (R100). -/
def divaFrom (p : Params) (f : ℚ) : Nat → Nat → Except Code Nat
  | 0, _ => .error .range
  | fuel + 1, d => if f * 2 ^ d < p.vcoFloor then divaFrom p f fuel (d + 1) else .ok d

/-- `DivaSearch(f)`: the smallest exponent up to `DIVA_MAX` that reaches the VCO floor (R100). -/
def divaSearch (p : Params) (f : ℚ) : Except Code Nat := divaFrom p f (p.divaMax + 1) 0

/-- What `SETFREQ` computes before it writes (R99). -/
structure Tuning where
  diva : Nat
  nPre : Int
  frac : Int
  nStored : Int
  deriving DecidableEq, Repr

/-- `C`, the PLL coefficient (R101). -/
def coefficient (pfd f : ℚ) (diva : Nat) : ℚ := f * 2 ^ diva / pfd

/-- `FRAC` of a coefficient: the remainder over its rounding, clamped at zero, in units of
`1 / M_FIXED` (R102). -/
def fracPart (p : Params) (c : ℚ) : Int := rha ((p.mFixed : ℚ) * max (c - rha c) 0)

/-- The integer-mode rescale by `2^diva` (R103). -/
def rescale (p : Params) (nPre : Int) (diva : Nat) : Except Code Int :=
  if nPre % 2 ^ diva ≠ 0 then
    match p.rescaleInexact with
    | .reject => .error .inexact
    | .floor => .ok (nPre / 2 ^ diva)
  else .ok (nPre / 2 ^ diva)

/-- The `N` to store: rescaled when the fractional part is zero (R103), else as it is (R105). -/
def storedN (p : Params) (nPre frac : Int) (diva : Nat) : Except Code Int :=
  if frac = 0 then rescale p nPre diva else .ok nPre

/-- The checks and computations of `SETFREQ` for a target `f` at PFD frequency `pfd`, in the order of
R99 and R107. -/
def planTuning (p : Params) (pfd f : ℚ) : Except Code Tuning :=
  if f < p.fOutMin ∨ p.fOutMax < f then .error .range
  else
    match divaSearch p f with
    | .error e => .error e
    | .ok d =>
      let c := coefficient pfd f d
      match storedN p (rha c) (fracPart p c) d with
      | .error e => .error e
      | .ok n =>
        if 2 ^ (p.layout .n).width - 1 < n then .error .field
        else .ok ⟨d, rha c, fracPart p c, n⟩

/-- The fields `SETFREQ` writes, in the order of its rule (R99, R106). -/
def tuneFields (p : Params) (t : Tuning) : List (Field × Nat) :=
  modeFields p t.frac ++
    [(.n, t.nStored.toNat), (.frac, t.frac.toNat), (.m, p.mFixed), (.diva, t.diva), (.mtld, 1)]

/-- `SETFREQ(a)` (R99). -/
def setFreq (p : Params) (a : BitVec 32) (s : State) : Except Code State :=
  match s.fPfd with
  | none => .error .noPfd
  | some pfd =>
    match planTuning p pfd (freqOperand p a) with
    | .error e => .error e
    | .ok t =>
      .ok (writeAll p (setFields p.layout (tuneFields p t)
        { s with fTarget := some (freqOperand p a) }))

/-! ### The realized frequency -/

/-- `F_REAL` at PFD frequency `pfd`, from the registers as they stand (R109). -/
def realFreq (p : Params) (pfd : ℚ) (s : State) : ℚ :=
  if integerMode p s then pfd * (getField p.layout .n s : ℚ)
  else
    pfd * ((getField p.layout .n s : ℚ) +
      (getField p.layout .frac s : ℚ) / (getField p.layout .m s : ℚ)) /
      2 ^ getField p.layout .diva s

/-- `GETFREQ()` (R110): the frequency in MHz. -/
def getFreq (p : Params) (s : State) : Except Code ℚ :=
  match s.fPfd with
  | none => .error .noPfd
  | some pfd =>
    if getField p.layout .int s = p.intOff ∧ getField p.layout .m s = 0 then .error .zero
    else .ok (realFreq p pfd s)

/-! ### Power and output enable -/

/-- Write one value to each field of a list, then send everything (R111 to R113). -/
def setGroup (p : Params) (fs : List Field) (x : Nat) (s : State) : State :=
  writeAll p (setFields p.layout (fs.map fun f => (f, x)) s)

/-! ### The instructions -/

/-- `SETPFD a, b` (R96). -/
def execSetpfd (a b : BitVec 32) (s : State) : Host.Outcome State Fault Refusal :=
  runCommand 0x20 (fun t => (setPfd params a b t).map fun u => (0, u)) s

/-- `SETFREQ a` (R99). -/
def execSetfreq (a : BitVec 32) (s : State) : Host.Outcome State Fault Refusal :=
  runCommand 0x21 (fun t => (setFreq params a t).map fun u => (0, u)) s

/-- `GETFREQ` (R110). -/
def execGetfreq (s : State) : Host.Outcome State Fault Refusal :=
  runCommand 0x25 (fun t => (getFreq params t).map fun f => (dataOfFreq f, t)) s

/-- `POWER b`: the shutdown fields take the inverse of `enable` (R111). -/
def execPower (enable : Bool) (s : State) : Host.Outcome State Fault Refusal :=
  runCommand 0x22 (fun t =>
    .ok (0, setGroup params params.shutdownFields (1 - enable.toNat) t)) s

/-- `OUTEN` (R112). -/
def execOuten (s : State) : Host.Outcome State Fault Refusal :=
  runCommand 0x23 (fun t => .ok (0, setGroup params params.outEnableFields 1 t)) s

/-- `OUTDIS` (R113). -/
def execOutdis (s : State) : Host.Outcome State Fault Refusal :=
  runCommand 0x24 (fun t => .ok (0, setGroup params params.outEnableFields 0 t)) s

end Sys2Proof.Machine
end

