-- ==== Sys2Proof/Machine/Dispatch.lean ====
section
/-!
DEFINITION. The meaning of each instruction: one arm per constructor of `Instr`.
-/

namespace Sys2Proof.Machine

def exec (i : Instr) (s : State) : Host.Outcome State Fault Refusal :=
  match i with
  | .rdw a => Sys2Proof.Machine.execRdw a s
  | .wrw a b => Sys2Proof.Machine.execWrw a b s
  | .rdf a => Sys2Proof.Machine.execRdf a s
  | .wrf a b => Sys2Proof.Machine.execWrf a b s
  | .apply6 b => Sys2Proof.Machine.execApply6 b s
  | .writeword b => Sys2Proof.Machine.execWriteword b s
  | .writeall => Sys2Proof.Machine.execWriteall s
  | .readreg6 => Sys2Proof.Machine.execReadreg6 s
  | .setpfd a b => Sys2Proof.Machine.execSetpfd a b s
  | .setfreq a => Sys2Proof.Machine.execSetfreq a s
  | .power enable => Sys2Proof.Machine.execPower enable s
  | .outen => Sys2Proof.Machine.execOuten s
  | .outdis => Sys2Proof.Machine.execOutdis s
  | .getfreq => Sys2Proof.Machine.execGetfreq s
  | .readadc => Sys2Proof.Machine.execReadadc s
  | .readtemp => Sys2Proof.Machine.execReadtemp s
  | .readvco => Sys2Proof.Machine.execReadvco s
  | .readld => Sys2Proof.Machine.execReadld s
  | .readdiag => Sys2Proof.Machine.execReaddiag s
  | .w0 int n frac => Sys2Proof.Machine.execW0 int n frac s
  | .w1 rest fcomp cpl m => Sys2Proof.Machine.execW1 rest fcomp cpl m s
  | .w2 rest lds rdiv2 dbr rdiv muxlo => Sys2Proof.Machine.execW2 rest lds rdiv2 dbr rdiv muxlo s
  | .w3 rest bsHi bsclk => Sys2Proof.Machine.execW3 rest bsHi bsclk s
  | .w4 rest sd4 sd3 sd2 sd1 sd0 mtld outenB outenA diva bsLo => Sys2Proof.Machine.execW4 rest sd4 sd3 sd2 sd1 sd0 mtld outenB outenA diva bsLo s
  | .w5 rest muxhi adcs adcm => Sys2Proof.Machine.execW5 rest muxhi adcs adcm s
  | .w6 rest adc adcv vasa vco => Sys2Proof.Machine.execW6 rest adc adcv vasa vco s
  | .rbreq => Sys2Proof.Machine.execRbreq s

end Sys2Proof.Machine
end

