-- ==== Sys2Proof/Machine/Port.lean ====
section
/-!
DEFINITION. The command port: the one way the host has the block do something (R26, R61, R73).
-/

namespace Sys2Proof.Machine

/-- A command word is accepted: the decoded instruction runs; an operation code with no row in the opcode
map, the only thing a command can fail to decode for, ends with `E_ILLEGAL` (R61, R70). -/
def runWord (w : CommandWord) (s : State) : Host.Outcome State Fault Refusal :=
  match decodeCommand w with
  | .ok i => exec i s
  | .error _ => .next (raiseError .illegal s)

end Sys2Proof.Machine
end

