-- ==== Sys2Proof/Machine/Step.lean ====
section
/-!
DEFINITION. One step of the machine: the block takes what the outside offers next.
-/

namespace Sys2Proof.Machine

/-- One step. With nothing offered the block stays idle (R158). The reset input acts whether or not
a command runs (R162, R174). A command is accepted only when `BUSY = 0`; offered while `BUSY = 1` it
is not accepted yet and stays on the port (R73). Nothing else makes the block act (R61). -/
def step (s : State) : Host.Outcome State Fault Refusal :=
  match s.offers with
  | [] => .next s
  | .reset :: rest => .next (resetEvent { s with offers := rest })
  | .command w :: rest => if s.busy then .next s else runWord w { s with offers := rest }

/-- The same state with an opcode-table word standing where the next step takes its instruction:
the head of the offers, a serial word as the operand of its `WRITEWORD`, the block idle so that it
accepts it (R73; log entries 3 and 4). -/
def State.withFetchWord (s : State) (nbits w : Nat) : State :=
  match packetOfTableWord nbits w with
  | none => s
  | some p => { s with offers := .command (portWord p) :: s.offers, busy := false, seq := .idle }

end Sys2Proof.Machine
end

