-- ==== Sys2Proof/Safety.lean ====
section
/-!
DEFINITION. The terms the statements use: the machine's invariants, what a command leaves alone, the
levels the environment gives the coming samples, and a receiver that hears the serial link.
-/

namespace Sys2Proof.Machine

/-! ### Invariants -/

/-- Bits [2:0] of `R[i]` hold `i`, for every register (R12). -/
abbrev TagsOk (s : State) : Prop :=
  ∀ i : RegIndex, serialTag (readReg i s) = BitVec.ofNat 3 i.val

/-- The pins stand as they do between commands: `LE` at latch-enable, `CLK` idle (R94). -/
abbrev PinsIdle (s : State) : Prop := s.le = params.leEnable ∧ s.clk = params.clkIdle

/-- Between commands: not busy, the sequencer idle (R30, R73). -/
abbrev Quiet (s : State) : Prop := s.busy = false ∧ s.seq = .idle

/-- The last `SETPFD` that completed had the operands `a` and `b`, and the Synthesizer State is what
it computed (R19, R20, R96, R97). -/
def SetBy (a b : BitVec 32) (s : State) : Prop :=
  a ≠ 0 ∧ b ≠ 0 ∧ b.toNat ≤ 1023 ∧
    s.fRef = some ((a.toNat : ℚ) / 1000) ∧ s.rdivS = some b.toNat ∧
    s.fPfd = some ((a.toNat : ℚ) / 1000 / (b.toNat : ℚ))

/-- The Synthesizer State is coherent (R19, R20): unset as a whole, or the doing of one `SETPFD`;
and a target, if set, was accepted within the bounds, after a `SETPFD` (R107). -/
def SynthOk (s : State) : Prop :=
  ((s.fRef = none ∧ s.rdivS = none ∧ s.fPfd = none ∧ s.fTarget = none) ∨ ∃ a b, SetBy a b s) ∧
    ∀ f, s.fTarget = some f → params.fOutMin ≤ f ∧ f ≤ params.fOutMax

/-- `STATUS` is one of the codes of R145 and is the status of the response port, an error response
carries no data (R66), and the sticky record has seen a standing error (R151). -/
def StatusOk (s : State) : Prop :=
  s.status.toNat ≤ 7 ∧ s.response.status = s.status ∧
    (s.status ≠ 0 → s.response.data = 0 ∧ s.errorSeen = true)

/-- A known ghost chip register holds a word with its own tag, and register 6 is never known: frames
write registers 0 to 5 only (R28, R37, R38). -/
def ChipOk (s : State) : Prop :=
  ∀ (i : RegIndex) (v : Word), s.chip.get i = some v →
    serialTag v = BitVec.ofNat 3 i.val ∧ i ≠ 6

/-- The chip holds the whole local configuration: `CHIP[i] = R[i]` for `i` in 0..5 (R51). -/
abbrev ChipInSync (s : State) : Prop :=
  ∀ i : RegIndex, i ≠ 6 → s.chip.get i = some (readReg i s)

/-- `CHIP_RB` is unknown or true: no rule ever makes it false (R38). -/
abbrev ReadbackFlagOk (s : State) : Prop := s.chipRb ≠ some false

/-! ### What a command leaves alone -/

/-- The command completed with `OK` and the result `d` (R66, R73), and left the sticky record and the
offers, the model's own (log entries 6 and 3), as they were. -/
def Answered (s t : State) (d : ResultData) : Prop :=
  t.status = 0x00 ∧ t.response = ⟨0x00, d⟩ ∧ t.busy = false ∧ t.seq = .idle ∧
    t.errorSeen = s.errorSeen ∧ t.offers = s.offers

/-- The command ended with an error: the code is in `STATUS` and in the response, with no data, and
nothing else of the machine has changed (R149), but the sticky record, the model's own, is set (log
entry 6). -/
def Failed (s t : State) (code : BitVec 8) : Prop :=
  t = { s with status := code, response := ⟨code, 0⟩, busy := false, seq := .idle,
               errorSeen := true }

/-- `F_REF`, `RDIV_S`, `F_PFD` and `F_TARGET` are as they were. -/
def SynthSame (s t : State) : Prop :=
  t.fRef = s.fRef ∧ t.rdivS = s.rdivS ∧ t.fPfd = s.fPfd ∧ t.fTarget = s.fTarget

/-- No pin has moved, nothing has been traced and the ghost chip is as it was. -/
def LinkSame (s t : State) : Prop :=
  t.le = s.le ∧ t.clk = s.clk ∧ t.dataOut = s.dataOut ∧ t.pinTrace = s.pinTrace ∧
    t.chip = s.chip ∧ t.chipRb = s.chipRb

/-- No input has been sampled. -/
def InputsSame (s t : State) : Prop := t.dataIn = s.dataIn ∧ t.ldIn = s.ldIn

/-- Every register is as it was. -/
def RegsSame (s t : State) : Prop := ∀ i : RegIndex, readReg i t = readReg i s

/-- Every register but those of a list is as it was. -/
def RegsSameBut (js : List RegIndex) (s t : State) : Prop :=
  ∀ i : RegIndex, i ∉ js → readReg i t = readReg i s

/-- Every field but those of a list is as it was, and so is every bit of a register that belongs to
no field (R17). -/
def FieldsSameBut (fs : List Field) (s t : State) : Prop :=
  ∀ (i : RegIndex) (k : Nat),
    (∀ f ∈ fs, ¬((layoutDoc f).reg = i ∧ (layoutDoc f).lsb ≤ k ∧
      k < (layoutDoc f).lsb + (layoutDoc f).width)) →
    (readReg i t).getLsbD k = (readReg i s).getLsbD k

/-- The unsigned value of a field: its bits, counted from its least significant one (R15). -/
def fieldValue (f : Field) (s : State) : Nat :=
  (readReg (layoutDoc f).reg s).toNat / 2 ^ (layoutDoc f).lsb % 2 ^ (layoutDoc f).width

/-- The 98 events of the frame of a word: latch-disable, then for bit 31 down to bit 0 the data level and
a clock pulse, then latch-enable (R84, R85). -/
def frameOf (v : Word) : List PinEvent :=
  [.write .le false] ++
    (List.range 32).flatMap (fun k =>
      [.write .dataOut (v.getLsbD (31 - k)), .write .clk true, .write .clk false]) ++
    [.write .le true]

/-- The link and its ghosts after the one frame of a word (R38, R85): the trace, the pin levels, the chip
register of the word's tag if that is 0 to 5, the readback flag if the word is the readback request. -/
def FrameSent (v : Word) (s t : State) : Prop :=
  t.pinTrace = s.pinTrace ++ frameOf v ∧
    t.le = true ∧ t.clk = false ∧ t.dataOut = v.getLsbD 0 ∧
    (∀ i : RegIndex, t.chip.get i =
      if v.toNat % 8 = i.val ∧ i.val ≤ 5 then some v else s.chip.get i) ∧
    t.chipRb = if v = 0x00000006 then some true else s.chipRb

/-- The six frames of `WRITEALL` with the registers as they now stand, and what they leave: the chip in
step with the registers, the readback flag as it was (R51, R87). -/
def ConfigSent (s t : State) : Prop :=
  t.pinTrace = s.pinTrace ++ frameOf (readReg 5 t) ++ frameOf (readReg 4 t) ++
      frameOf (readReg 3 t) ++ frameOf (readReg 2 t) ++ frameOf (readReg 1 t) ++
      frameOf (readReg 0 t) ∧
    t.le = true ∧ t.clk = false ∧ t.dataOut = false ∧ ChipInSync t ∧
    t.chip.get 6 = s.chip.get 6 ∧ t.chipRb = s.chipRb

/-- A word with the `width` bits from bit `lsb` on replaced by `x` truncated to them, every other bit as it
was: the part below, the new bits, the part above (R15). -/
def replaceBits (lsb width x : Nat) (v : Word) : Word :=
  BitVec.ofNat 32 (v.toNat % 2 ^ lsb + x % 2 ^ width * 2 ^ lsb +
    v.toNat / 2 ^ (lsb + width) * 2 ^ (lsb + width))

/-- Register 5 with the multiplexer field, bit 7, at its readback value 1 (R7, R16, R89). -/
def routed5 (v : Word) : Word := replaceBits 7 1 1 v

/-- Register 2 with the multiplexer field, bits [5:3], at its readback value 4 (R7, R16, R89). -/
def routed2 (v : Word) : Word := replaceBits 3 3 4 v

/-- Register 5 with the ADC mode, bits [5:3], at `mode` and the ADC start, bit 6, set (R16, R117). -/
def adcRequest (mode : Nat) (v : Word) : Word := replaceBits 6 1 1 (replaceBits 3 3 mode v)

/-- Register 5 with the ADC mode, bits [5:3], and the ADC start, bit 6, at idle (R7, R16, R117). -/
def adcAtIdle (v : Word) : Word := replaceBits 6 1 0 (replaceBits 3 3 0 v)

/-- A word as register 6 stores it: bits [31:3] of the word, tag 6 (R81). -/
def applied6 (w : Word) : Word := BitVec.ofNat 32 (w.toNat / 8 * 8 + 6)

/-! ### The environment's levels -/

/-- The level the environment gives the `k`-th coming sample of a pin (R25). -/
def levelAt (free : Nat → Bool) (i : InPort) (k : Nat) : Bool :=
  match i.queue[k]? with
  | some b => b
  | none => free (i.taken + k)

/-- The byte formed by the eight `DATA_IN` samples from the `k`-th coming one on, the first in bit 7
(R42, R90). -/
def levelByte (s : State) (k : Nat) : BitVec 8 :=
  BitVec.ofBool (levelAt Config.dataInLevel s.dataIn k) ++
  BitVec.ofBool (levelAt Config.dataInLevel s.dataIn (k + 1)) ++
  BitVec.ofBool (levelAt Config.dataInLevel s.dataIn (k + 2)) ++
  BitVec.ofBool (levelAt Config.dataInLevel s.dataIn (k + 3)) ++
  BitVec.ofBool (levelAt Config.dataInLevel s.dataIn (k + 4)) ++
  BitVec.ofBool (levelAt Config.dataInLevel s.dataIn (k + 5)) ++
  BitVec.ofBool (levelAt Config.dataInLevel s.dataIn (k + 6)) ++
  BitVec.ofBool (levelAt Config.dataInLevel s.dataIn (k + 7))

/-- The word of a readback whose first sample is the `k`-th coming one: the four bytes at bit offsets
25, 17, 9 and 1, modulo 2^32 (R91). -/
def answeredWord (s : State) (k : Nat) : Word :=
  BitVec.ofNat 32 ((levelByte s k).toNat * 2 ^ 25 + (levelByte s (k + 8)).toNat * 2 ^ 17 +
    (levelByte s (k + 16)).toNat * 2 ^ 9 + (levelByte s (k + 24)).toNat * 2)

/-- The events of the read phase of a readback whose first sample is the `k`-th coming one: 32 bits in, a
zero shifted out with each, then one zero byte out (R89, R90). -/
def readPhase (s : State) (k : Nat) : List PinEvent :=
  (List.range 32).flatMap (fun j =>
      [.write .dataOut false, .write .clk true,
        .read .dataIn (levelAt Config.dataInLevel s.dataIn (k + j)), .write .clk false]) ++
    (List.range 8).flatMap (fun _ => [.write .dataOut false, .write .clk true, .write .clk false])

/-- The 446 events of a readback by registers 5 and 2 as given, its first sample the `k`-th coming one:
the two routing frames, the readback request, the read phase (R89). -/
def readbackTrace (r5 r2 : Word) (s : State) (k : Nat) : List PinEvent :=
  frameOf (routed5 r5) ++ frameOf (routed2 r2) ++ frameOf 0x00000006 ++ readPhase s k

/-- The 642 events and the one wait of an ADC reading by registers 5 and 2 as given (R117, R119). -/
def adcTrace (mode : Nat) (r5 r2 : Word) (s : State) (k : Nat) : List PinEvent :=
  frameOf (adcRequest mode r5) ++ [.wait 100] ++ readbackTrace (adcRequest mode r5) r2 s k ++
    frameOf (adcAtIdle r5)

/-- The link after events that ended with a readback or an ADC reading: the pins between commands, the
data level `d`, the chip's registers 5 and 2 as given and its other registers as they were, the readback
asked for (R38, R94). -/
def LinkLeft (s t : State) (c5 c2 : Word) (d : Bool) : Prop :=
  t.le = true ∧ t.clk = false ∧ t.dataOut = d ∧ t.chipRb = some true ∧
    t.chip.get 5 = some c5 ∧ t.chip.get 2 = some c2 ∧
    ∀ i : RegIndex, i ≠ 5 → i ≠ 2 → t.chip.get i = s.chip.get i

/-- The registers after an ADC reading that was answered the word `w`: the ADC fields at idle, register 6
the word, every other register as it was (R116, R117, R124). -/
def ReadingApplied (w : Word) (s t : State) : Prop :=
  RegsSameBut [5, 6] s t ∧ readReg 5 t = adcAtIdle (readReg 5 s) ∧ readReg 6 t = applied6 w

/-- A port after `n` samples. -/
def samplesTaken (n : Nat) (i : InPort) : InPort := ⟨i.queue.drop n, i.taken + n⟩

/-- The ADC code of a word read back, bits [17:11] (R16). -/
def codeOf (w : Word) : Nat := w.toNat / 2 ^ 11 % 2 ^ 7

/-- The ADC-valid bit of a word read back, bit 10 (R16). -/
def adcValidOf (w : Word) : Bool := w.getLsbD 10

/-- The active-VCO index of a word read back, bits [8:3] (R16). -/
def vcoOf (w : Word) : Nat := w.toNat / 2 ^ 3 % 2 ^ 6

/-- The voltage guard on a word read back: ADC-valid set and the auto-select bit, bit 9, as expected
(R118). -/
def voltsValidOf (w : Word) : Bool := w.getLsbD 10 && w.getLsbD 9 == Config.vasaExpected

/-- The result of a reading: value in [31:0], valid in [32], ADC code in [47:40], every other bit 0
(R67). -/
def ReadingData (d : ResultData) (value : Int) (valid : Bool) (code : Nat) : Prop :=
  d.extractLsb' 0 32 = BitVec.ofInt 32 value ∧ d.getLsbD 32 = valid ∧
    (d.extractLsb' 40 8).toNat = code ∧ d.extractLsb' 33 7 = 0 ∧ d.extractLsb' 48 16 = 0

/-- The value of `READADC` at scale 10000: the voltage `0.315 + 0.0165 * code` if the guard holds, else the
sentinel -1 (R68, R118). -/
def voltsResult (w : Word) : Int := if voltsValidOf w then 3150 + 165 * codeOf w else -10000

/-- The value of `READTEMP` at scale 10000: `95 - 1.14 * code` degrees if the ADC is valid, else the sentinel
-1 (R68, R120). -/
def degreesResult (w : Word) : Int := if adcValidOf w then 950000 - 11400 * codeOf w else -10000

/-- `F_REAL` at PFD frequency `pfd`, from the fields as they stand (R109). -/
def realizedAt (pfd : ℚ) (s : State) : ℚ :=
  if fieldValue .int s = 1 then pfd * (fieldValue .n s : ℚ)
  else pfd * ((fieldValue .n s : ℚ) + (fieldValue .frac s : ℚ) / (fieldValue .m s : ℚ)) /
    2 ^ fieldValue .diva s

/-! ### A receiver on the link -/

/-- A receiver that hears the three output pins: the levels, the bits taken since the last
latch-disable, the words latched so far (R84 to R86). -/
structure Receiver where
  le : Bool
  clk : Bool
  dataOut : Bool
  shifted : List Bool
  words : List Word
  deriving DecidableEq, Repr

/-- The word of 32 received bits, the first in bit 31 (R41). -/
def wordOfBits (bs : List Bool) : Word := bs.foldl (fun v b => (v <<< 1) ||| BitVec.ofNat 32 b.toNat) 0

/-- One event heard: a bit is taken at the leading clock edge while the latch is disabled (R84), and
exactly 32 bits are latched as a word when the latch is enabled again (R86). -/
def hear (r : Receiver) : PinEvent → Receiver
  | .write .dataOut b => { r with dataOut := b }
  | .write .clk b =>
    if r.clk = params.clkIdle ∧ b ≠ params.clkIdle ∧ r.le = params.leDisable then
      { r with clk := b, shifted := r.shifted ++ [r.dataOut] }
    else { r with clk := b }
  | .write .le b =>
    if r.le = params.leDisable ∧ b = params.leEnable ∧ r.shifted.length = 32 then
      { r with le := b, shifted := [], words := r.words ++ [wordOfBits r.shifted] }
    else { r with le := b, shifted := [] }
  | .read _ _ => r
  | .wait _ => r

/-- The words a receiver that starts on the pins of `s` latches from some events, in order. -/
def framesHeard (s : State) (es : List PinEvent) : List Word :=
  (es.foldl hear ⟨s.le, s.clk, s.dataOut, [], []⟩).words

/-- The ghost effect of latching some words in order (R28, R38). -/
def latchAll (ws : List Word) (s : State) : State := ws.foldl (fun t v => memWrite v t) s

/-- The events a step has added to the trace. -/
def newEvents (s t : State) : List PinEvent := t.pinTrace.drop s.pinTrace.length

/-- Each output pin holds the last level the trace since reset has driven it to, its reset level if none
(R24, R33). -/
abbrev PinsTraced (s : State) : Prop :=
  s.le = lastLevel .le s.pinTrace true ∧ s.clk = lastLevel .clk s.pinTrace false ∧
    s.dataOut = lastLevel .dataOut s.pinTrace false

/-- A receiver that has heard the whole trace since reset, starting on the reset levels, stands on the
levels of the pins with no bit half taken, and latching the words it has heard makes the ghost chip out of
an unknown one (R28, R33, R38, R49). -/
def TraceExplains (s : State) : Prop :=
  ∃ ws, s.pinTrace.foldl hear ⟨true, false, false, [], []⟩ = ⟨s.le, s.clk, s.dataOut, [], ws⟩ ∧
    s.chip = (latchAll ws State.reset).chip ∧ s.chipRb = (latchAll ws State.reset).chipRb

/-- An event is a wait and no pin event (R176, R177). -/
def isWait : PinEvent → Bool
  | .wait _ => true
  | .write _ _ => false
  | .read _ _ => false

/-- The address tags of the frames an instruction sends when it completes with `OK`, in order: fixed by
its opcode alone, but for the word of `WRITEWORD` (R72, R85, R87, R89, R117, R119, R121, R123); a serial
word is one frame with its row's tag (R58; log entry 4). -/
def frameTags : Instr → List Nat
  | .rdw _ => []
  | .wrw _ _ => []
  | .rdf _ => []
  | .wrf _ _ => []
  | .apply6 _ => []
  | .writeword b => [b.toNat % 8]
  | .writeall => [5, 4, 3, 2, 1, 0]
  | .readreg6 => [5, 2, 6]
  | .setpfd _ _ => [5, 4, 3, 2, 1, 0]
  | .setfreq _ => [5, 4, 3, 2, 1, 0]
  | .power _ => [5, 4, 3, 2, 1, 0]
  | .outen => [5, 4, 3, 2, 1, 0]
  | .outdis => [5, 4, 3, 2, 1, 0]
  | .getfreq => []
  | .readadc => [5, 5, 2, 6, 5]
  | .readtemp => [5, 5, 2, 6, 5]
  | .readvco => [5, 2, 6]
  | .readld => []
  | .readdiag => [5, 5, 2, 6, 5, 5, 5, 2, 6, 5, 5, 2, 6]
  | .w0 _ _ _ => [0]
  | .w1 _ _ _ _ => [1]
  | .w2 _ _ _ _ _ _ => [2]
  | .w3 _ _ _ => [3]
  | .w4 _ _ _ _ _ _ _ _ _ _ _ => [4]
  | .w5 _ _ _ _ => [5]
  | .w6 _ _ _ _ _ => [6]
  | .rbreq => [6]

/-- How many pin events an instruction produces when it completes with `OK` (R177); a serial word those of
the `WRITEWORD` that carries it (log entry 4). -/
def eventCount : Instr → Nat
  | .rdw _ => 0
  | .wrw _ _ => 0
  | .rdf _ => 0
  | .wrf _ _ => 0
  | .apply6 _ => 0
  | .writeword _ => 98
  | .writeall => 588
  | .readreg6 => 446
  | .setpfd _ _ => 588
  | .setfreq _ => 588
  | .power _ => 588
  | .outen => 588
  | .outdis => 588
  | .getfreq => 0
  | .readadc => 642
  | .readtemp => 642
  | .readvco => 446
  | .readld => 1
  | .readdiag => 1730
  | .w0 _ _ _ => 98
  | .w1 _ _ _ _ => 98
  | .w2 _ _ _ _ _ _ => 98
  | .w3 _ _ _ => 98
  | .w4 _ _ _ _ _ _ _ _ _ _ _ => 98
  | .w5 _ _ _ _ => 98
  | .w6 _ _ _ _ _ => 98
  | .rbreq => 98

/-- How many waits an instruction makes when it completes with `OK` (R177). -/
def waitCount : Instr → Nat
  | .rdw _ => 0
  | .wrw _ _ => 0
  | .rdf _ => 0
  | .wrf _ _ => 0
  | .apply6 _ => 0
  | .writeword _ => 0
  | .writeall => 0
  | .readreg6 => 0
  | .setpfd _ _ => 0
  | .setfreq _ => 0
  | .power _ => 0
  | .outen => 0
  | .outdis => 0
  | .getfreq => 0
  | .readadc => 1
  | .readtemp => 1
  | .readvco => 0
  | .readld => 0
  | .readdiag => 2
  | .w0 _ _ _ => 0
  | .w1 _ _ _ _ => 0
  | .w2 _ _ _ _ _ _ => 0
  | .w3 _ _ _ => 0
  | .w4 _ _ _ _ _ _ _ _ _ _ _ => 0
  | .w5 _ _ _ _ => 0
  | .w6 _ _ _ _ _ => 0
  | .rbreq => 0

end Sys2Proof.Machine
end

