-- ==== Sys2Proof/Certificates/Slice0/Obligations.lean ====
section
/-!
DEFINITION. The statements about the model, for the provers. Each docstring names the rule it
formalises, or says what it is derived from. Statements about an instruction are for the parameters at
their defaults (R7; log entry 9), each command one step (R30; log entry 7). Where a frame speaks of the
offers, of the input ports or of the sticky record, those fields are the model's own (log entries 3, 1
and 6).
-/

open Sys2Proof Sys2Proof.Machine

/-! ### Encodings -/

/-- Decode and encode agree: every well-formed instruction is read back from its packet, with every
operand at every value (derived from R57 to R61). -/
def Obligations.DecodeEncodeAgree : Prop :=
  ∀ i : Instr, wellFormed i = true → decode (encode i) = .ok i

/-- A serial word has one meaning: what it decodes to is well formed and encodes to that very word, and
exactly the words with tag 7 decode to nothing (derived from R58 to R60, R71). -/
def Obligations.SerialWordHasOneMeaning : Prop :=
  ∀ v : Word,
    (∀ i, decode (.serial v) = .ok i → wellFormed i = true ∧ encode i = .serial v) ∧
    ((∃ i, decode (.serial v) = .ok i) ↔ v.toNat % 8 ≠ 7)

/-- The command word `op * 2^64 + a * 2^32 + b` is decoded by its operation code alone; operands an
operation does not use are ignored, whatever they hold, and a code with no row is refused by name (R57;
codes R61, R70). -/
def Obligations.CommandWordDecoded : Prop :=
  ∀ (op : BitVec 8) (a b : BitVec 32),
    decode (.command (BitVec.ofNat 72 (op.toNat * 2 ^ 64 + a.toNat * 2 ^ 32 + b.toNat))) =
      if op = 0x00 then .ok (.rdw a)
      else if op = 0x01 then .ok (.wrw a b)
      else if op = 0x02 then .ok (.rdf a)
      else if op = 0x03 then .ok (.wrf a b)
      else if op = 0x04 then .ok (.apply6 b)
      else if op = 0x10 then .ok (.writeword b)
      else if op = 0x11 then .ok .writeall
      else if op = 0x12 then .ok .readreg6
      else if op = 0x20 then .ok (.setpfd a b)
      else if op = 0x21 then .ok (.setfreq a)
      else if op = 0x22 then .ok (.power (decide (b.toNat % 2 = 1)))
      else if op = 0x23 then .ok .outen
      else if op = 0x24 then .ok .outdis
      else if op = 0x25 then .ok .getfreq
      else if op = 0x30 then .ok .readadc
      else if op = 0x31 then .ok .readtemp
      else if op = 0x32 then .ok .readvco
      else if op = 0x33 then .ok .readld
      else if op = 0x34 then .ok .readdiag
      else .error (.illegalOpcode op)

/-- A few words written out from the spec's encodings decode to what they stand for: `SETFREQ 2400000`
(R74), `WRF 14, 1`, `SETPFD 10000, 1`, `READDIAG` and `WRITEALL` with unused operands set (file 95), the
readback request (R60), and serial words of registers 0 and 4. -/
def Obligations.DecodedWords : Prop :=
  decodeTableWord 72 0x2100249F0000000000 = some (.setfreq 2400000) ∧
  decodeTableWord 72 0x030000000E00000001 = some (.wrf 14 1) ∧
  decodeTableWord 72 0x200000271000000001 = some (.setpfd 10000 1) ∧
  decodeTableWord 72 0x11DEADBEEF12345678 = some .writeall ∧
  decodeTableWord 72 0x340000000000000000 = some .readdiag ∧
  decodeTableWord 72 0x050000000000000000 = none ∧
  decodeTableWord 32 0x00000006 = some .rbreq ∧
  decodeTableWord 32 0x80780000 = some (.w0 1 240 0) ∧
  decodeTableWord 32 0x00072644 = some (.w4 0 0 0 0 0 0 1 1 1 1 200)

/-! ### The step -/

/-- A step runs the decoded instruction: with its command word at the head of the offers and the block not
busy, step is exec of the decoded instruction, the word taken; a serial word reaches the block only as the
operand of a `WRITEWORD`, and so the instruction it decodes to runs; and so does an opcode-table word placed
for the next step (derived from R49, R61, R71, R73; the offers are the model's own, log entry 3; that a
serial word is run as its `WRITEWORD` is the model's choice, log entry 4). -/
def Obligations.StepRunsDecodedInstruction : Prop :=
  (∀ (s : State) (w : CommandWord) (rest : List Offer) (i : Instr),
    s.offers = .command w :: rest → s.busy = false → decode (.command w) = .ok i →
      step s = exec i { s with offers := rest }) ∧
  (∀ (s : State) (a : BitVec 32) (v : Word) (rest : List Offer) (i : Instr),
    s.offers = .command (0x10#8 ++ a ++ v) :: rest → s.busy = false → decode (.serial v) = .ok i →
      step s = exec i { s with offers := rest }) ∧
  ∀ (s : State) (nbits w : Nat) (i : Instr), decodeTableWord nbits w = some i →
    step (s.withFetchWord nbits w) = exec i { s with busy := false, seq := .idle }

/-- An operation code with no row: 237 of the 256 values; the command completes with `E_ILLEGAL` whatever
its operands, changes no state but the status, the response and the model's sticky record (log entry 6),
and drives no pin; a code with a row is accepted whatever its operand bits hold (R70). -/
def Obligations.IllegalOpcodeRefused : Prop :=
  ((List.range 256).filter fun n => !([0x00, 0x01, 0x02, 0x03, 0x04, 0x10, 0x11, 0x12, 0x20, 0x21,
      0x22, 0x23, 0x24, 0x25, 0x30, 0x31, 0x32, 0x33, 0x34].contains n)).length = 237 ∧
  (∀ (s : State) (w : CommandWord) (rest : List Offer),
    s.offers = .command w :: rest → s.busy = false →
    w.toNat / 2 ^ 64 ∉ [0x00, 0x01, 0x02, 0x03, 0x04, 0x10, 0x11, 0x12, 0x20, 0x21,
      0x22, 0x23, 0x24, 0x25, 0x30, 0x31, 0x32, 0x33, 0x34] →
      ∃ t, step s = .next t ∧ Failed { s with offers := rest } t 0x07) ∧
  ∀ w : CommandWord,
    w.toNat / 2 ^ 64 ∈ [0x00, 0x01, 0x02, 0x03, 0x04, 0x10, 0x11, 0x12, 0x20, 0x21,
      0x22, 0x23, 0x24, 0x25, 0x30, 0x31, 0x32, 0x33, 0x34] → ∃ i, decode (.command w) = .ok i

/-- Words with tag 7, and words with tag 6 and a payload, never go out on the link except through an
explicit `WRITEWORD` with that very operand; `WRITEWORD` sends them without complaint, the frame stands in
the trace, and there is no ghost effect (R71). -/
def Obligations.OddTagsOnlyByExplicitWriteword : Prop :=
  (∀ (s t : State) (v : Word), TagsOk s → PinsIdle s → step s = .next t →
    v ∈ framesHeard s (newEvents s t) → v.toNat % 8 = 7 ∨ (v.toNat % 8 = 6 ∧ v.toNat / 8 ≠ 0) →
      s.busy = false ∧ ∃ (a : BitVec 32) (rest : List Offer),
        s.offers = .command (0x10#8 ++ a ++ v) :: rest) ∧
  ∀ (s : State) (v : Word), v.toNat % 8 = 7 ∨ (v.toNat % 8 = 6 ∧ v.toNat / 8 ≠ 0) →
    ∃ t, exec (.writeword v) s = .next t ∧ Answered s t 0 ∧ t.pinTrace = s.pinTrace ++ frameOf v ∧
      t.le = true ∧ t.clk = false ∧ t.dataOut = v.getLsbD 0 ∧ t.chip = s.chip ∧ t.chipRb = s.chipRb ∧
      RegsSame s t ∧ SynthSame s t ∧ InputsSame s t

/-- With nothing offered the block is idle, and a command offered while it is busy is not accepted, not
queued and not dropped (derived from R73, R158). That such a state then does nothing at all, and does not
resume a running command, is the model's choice: a command is one step, so that no run reaches a busy state
(log entry 7); the offers are the model's own (log entry 3). -/
def Obligations.IdleAndBusyStepsChangeNothing : Prop :=
  ∀ s : State, (s.offers = [] → step s = .next s) ∧
    (∀ w rest, s.offers = .command w :: rest → s.busy = true → step s = .next s)

/-- The reset event, in the middle of anything, and the machine right after reset: every piece of state at
the value of the reset table, no frame sent, the environment's inputs and later offers untouched (R33,
R162, R163). -/
def Obligations.ResetLeavesTheResetTable : Prop :=
  let table : State → Prop := fun t =>
    (∀ i : RegIndex, readReg i t = BitVec.ofNat 32 i.val) ∧
      t.fRef = none ∧ t.rdivS = none ∧ t.fPfd = none ∧ t.fTarget = none ∧
      t.status = 0x00 ∧ t.busy = false ∧ t.seq = .idle ∧
      t.le = true ∧ t.clk = false ∧ t.dataOut = false ∧ t.response = ⟨0x00, 0⟩ ∧
      (∀ i : RegIndex, t.chip.get i = none) ∧ t.chipRb = none ∧ t.pinTrace = []
  table State.reset ∧
  ∀ (s : State) (rest : List Offer), s.offers = .reset :: rest →
    ∃ t, step s = .next t ∧ table t ∧ InputsSame s t ∧ t.offers = rest

/-- Nothing hangs and nothing faults: from every state there is a next one, by step and by every
instruction (derived from R144, R159). -/
def Obligations.EveryStepAnswers : Prop :=
  ∀ s : State, (∃ t, step s = .next t) ∧ ∀ i : Instr, ∃ t, exec i s = .next t

/-! ### Invariants that every step keeps -/

/-- Bits [2:0] of `R[i]` always hold `i` (R12). -/
def Obligations.AddressTagsNeverChange : Prop :=
  ∀ s t : State, TagsOk s → step s = .next t → TagsOk t

/-- Between commands the latch is enabled and the clock idle, and each output pin holds its last driven
level, the reset level if none has been driven (R94; derived from R24, R33). -/
def Obligations.PinsStayAtTheirLastLevels : Prop :=
  ∀ s t : State, TagsOk s → PinsIdle s → PinsTraced s → step s = .next t → PinsIdle t ∧ PinsTraced t

/-- The Synthesizer State stays coherent: unset as a whole or the doing of one `SETPFD`, with `F_PFD` exactly
the reference over the divider; a target only within the bounds (derived from R19, R20, R97, R107). -/
def Obligations.SynthesizerStateStaysCoherent : Prop :=
  ∀ s t : State, SynthOk s → step s = .next t → SynthOk t

/-- Between commands the block is not busy and the sequencer idle, `STATUS` is a code of the table and is
the status of the response, an error response carries no data, and the sticky record has seen every error
(derived from R23, R30, R66, R73, R145; the record, the model's own, R151 and log entry 6). -/
def Obligations.CommandSideStaysCoherent : Prop :=
  ∀ s t : State, Quiet s → StatusOk s → step s = .next t → Quiet t ∧ StatusOk t

/-- The ghost chip holds, in a known register, a word with that register's own tag, never anything for
register 6, and its readback flag never becomes false (derived from R37, R38). -/
def Obligations.GhostChipStaysCoherent : Prop :=
  ∀ s t : State, ChipOk s → ReadbackFlagOk s → step s = .next t → ChipOk t ∧ ReadbackFlagOk t

/-- The reset state meets every one of these invariants: the address tags, the idle pins, the pins at the
last levels of the trace, the Synthesizer State, the command side, the ghost chip, and the trace that
explains the ghost chip (derived from R33). -/
def Obligations.ResetMeetsTheInvariants : Prop :=
  TagsOk State.reset ∧ PinsIdle State.reset ∧ PinsTraced State.reset ∧ SynthOk State.reset ∧
    Quiet State.reset ∧ StatusOk State.reset ∧ ChipOk State.reset ∧ ReadbackFlagOk State.reset ∧
    TraceExplains State.reset

/-- A receiver that only hears the three wires, taking a bit at each leading clock edge and a word at each
latch-enable after exactly 32 bits, learns exactly the ghost chip: `CHIP[]` and `CHIP_RB` after any step
but a reset are what latching the heard words makes of them, and the trace has only grown (derived from
R28, R38, R39, R41, R49, R84 to R86). -/
def Obligations.GhostChipIsWhatTheLinkCarried : Prop :=
  ∀ s t : State, TagsOk s → PinsIdle s → (∀ rest, s.offers ≠ .reset :: rest) → step s = .next t →
    t.pinTrace = s.pinTrace ++ newEvents s t ∧
    t.chip = (latchAll (framesHeard s (newEvents s t)) s).chip ∧
    t.chipRb = (latchAll (framesHeard s (newEvents s t)) s).chipRb

/-- Since reset, the whole pin trace explains the ghost chip and the pin levels: an invariant of every step,
the reset event included (derived from R28, R33, R38, R49). -/
def Obligations.TraceExplainsTheGhostChip : Prop :=
  ∀ s t : State, TagsOk s → PinsIdle s → TraceExplains s → step s = .next t → TraceExplains t

/-- The number and the order of the frames of a command that completes with `OK` are fixed by its opcode
alone, but for the word of `WRITEWORD`; every engine command but `GETFREQ` ends with registers 5, 4, 3, 2,
1, 0 (derived from R72, R87, R88, R167). The rows of serial words are covered as the model runs them, by the
one frame of the `WRITEWORD` that carries the word, with its tag: the model's choice (log entry 4). -/
def Obligations.FramesFixedByOpcode : Prop :=
  ∀ (i : Instr) (s t : State), TagsOk s → PinsIdle s → exec i s = .next t → t.status = 0x00 →
    (framesHeard s (newEvents s t)).map (fun v => v.toNat % 8) = frameTags i

/-- The table of event counts: the pin events, the waits and the frames of every command that completes with
`OK`; a command that ends in an error has none (derived from R85, R87, R89, R117, R119, R121, R122, R123, R149;
the spec's table R177 is its own inference from these). A serial word counts as the `WRITEWORD` that carries
it, the model's choice (log entry 4). -/
def Obligations.EventCounts : Prop :=
  ∀ (i : Instr) (s t : State), TagsOk s → PinsIdle s → exec i s = .next t →
    (t.status = 0x00 →
      (newEvents s t).length = eventCount i + waitCount i ∧
      (newEvents s t).countP isWait = waitCount i ∧
      (framesHeard s (newEvents s t)).length = (frameTags i).length) ∧
    (t.status ≠ 0x00 → t.pinTrace = s.pinTrace)

/-! ### Errors, ownership and what does not matter -/

/-- A command that ends with an error has changed no register, no field, no Synthesizer State and no pin:
only the status, the response, and (between commands already so) the busy flag and the sequencer; the
sticky record, the model's own, is set (R149; the record is log entry 6). -/
def Obligations.ErrorsChangeNothing : Prop :=
  ∀ (i : Instr) (s t : State), exec i s = .next t → t.status ≠ 0x00 → Failed s t t.status

/-- `R[6]` changes only by `APPLY6`, by the diagnostics that apply the word they read, and by an explicit
`WRW 6` or `WRF` of one of its fields: no other instruction changes it, and no `READREG6` does (R18). -/
def Obligations.RegisterSixChangesOnlyByItsList : Prop :=
  ∀ (i : Instr) (s t : State), exec i s = .next t → readReg 6 t ≠ readReg 6 s →
    (∃ b, i = .apply6 b) ∨ i = .readadc ∨ i = .readtemp ∨ i = .readvco ∨ i = .readdiag ∨
    (∃ a b, i = .wrw a b ∧ a.toNat = 6) ∨
    (∃ a b, i = .wrf a b ∧ 26 ≤ a.toNat ∧ a.toNat ≤ 29)

/-- Only `SETPFD` writes `F_REF`, `RDIV_S` and `F_PFD`, and only `SETFREQ` writes `F_TARGET` (derived from
R19). -/
def Obligations.SynthesizerStateHasTwoWriters : Prop :=
  ∀ (i : Instr) (s t : State), exec i s = .next t →
    ((∀ a b, i ≠ .setpfd a b) → t.fRef = s.fRef ∧ t.rdivS = s.rdivS ∧ t.fPfd = s.fPfd) ∧
    ((∀ a, i ≠ .setfreq a) → t.fTarget = s.fTarget)

/-- What the chip will drive on the input wires matters to no instruction but the ones that sample them, and
`READLD` alone samples `LD_IN`: two states that differ in nothing else answer alike (derived from R25,
R27, R40). -/
def Obligations.InputsMatterOnlyToReadings : Prop :=
  ∀ (i : Instr) (s t : State) (d l : InPort), exec i s = .next t →
    (i ∉ [Instr.readreg6, .readadc, .readtemp, .readvco, .readld, .readdiag] →
      exec i { s with dataIn := d, ldIn := l } = .next { t with dataIn := d, ldIn := l }) ∧
    (i ≠ .readld → exec i { s with ldIn := l } = .next { t with ldIn := l })

/-- No rule that computes a value reads a ghost: the chip shadow, the readback flag, the pin trace and the
sticky record do not reach the registers, the Synthesizer State, the pins, the status or the response
(derived from R28, R32). -/
def Obligations.GhostsAreNeverRead : Prop :=
  ∀ (i : Instr) (s t : State) (c : Vector (Option Word) 7) (r : Option Bool) (tr : List PinEvent)
    (e : Bool), exec i s = .next t →
    ∃ u, exec i { s with chip := c, chipRb := r, pinTrace := tr, errorSeen := e } = .next u ∧
      { t with chip := u.chip, chipRb := u.chipRb, pinTrace := u.pinTrace,
               errorSeen := u.errorSeen } = u

/-! ### Register Model -/

/-- `RDW`: the whole word of a register, its tag in the low bits, nothing changed; an index above 6 ends
with `E_INDEX` (R77). -/
def Obligations.RdwReadsTheWord : Prop :=
  ∀ (a : BitVec 32) (s : State),
    (∀ i : RegIndex, a.toNat = i.val →
      ∃ t, exec (.rdw a) s = .next t ∧ Answered s t ((readReg i s).setWidth 64) ∧
        (TagsOk s → t.response.data.toNat % 8 = a.toNat) ∧
        RegsSame s t ∧ SynthSame s t ∧ LinkSame s t ∧ InputsSame s t) ∧
    (6 < a.toNat → ∃ t, exec (.rdw a) s = .next t ∧ Failed s t 0x06)

/-- `WRW`: bits [31:3] of the operand are stored, the tag stays, no other register and no pin moves; an
index above 6 ends with `E_INDEX` (R78). -/
def Obligations.WrwStoresTheWord : Prop :=
  ∀ (a b : BitVec 32) (s : State),
    (∀ i : RegIndex, a.toNat = i.val →
      ∃ t, exec (.wrw a b) s = .next t ∧ Answered s t 0 ∧
        readReg i t = BitVec.ofNat 32 (b.toNat / 8 * 8 + i.val) ∧
        RegsSameBut [i] s t ∧ SynthSame s t ∧ LinkSame s t ∧ InputsSame s t) ∧
    (6 < a.toNat → ∃ t, exec (.wrw a b) s = .next t ∧ Failed s t 0x06)

/-- `RDF`: the field's bits, zero-extended, below `2^width`, nothing changed; an id above 29 ends with
`E_INDEX` (R79). The id, the name, the register, the least significant bit and the width of each of the
thirty fields stand here as the rows of the field table (R16), and the name means those very bits. -/
def Obligations.RdfReadsTheField : Prop :=
  ∀ (a : BitVec 32) (s : State),
    (∀ (k : Nat) (f : Field) (reg : RegIndex) (lsb width : Nat), (k, f, reg, lsb, width) ∈
      [(0, Field.frac, 0, 3, 12), (1, .n, 0, 15, 16), (2, .int, 0, 31, 1), (3, .m, 1, 3, 12),
       (4, .cpl, 1, 15, 2), (5, .fcomp, 1, 17, 1), (6, .muxlo, 2, 3, 3), (7, .rdiv, 2, 6, 10),
       (8, .dbr, 2, 16, 1), (9, .rdiv2, 2, 17, 1), (10, .lds, 2, 18, 1), (11, .bsclk, 3, 3, 12),
       (12, .bsHi, 3, 15, 2), (13, .bsLo, 4, 3, 10), (14, .diva, 4, 13, 3),
       (15, .outenA, 4, 16, 1), (16, .outenB, 4, 17, 1), (17, .mtld, 4, 18, 1),
       (18, .sd0, 4, 19, 1), (19, .sd1, 4, 20, 1), (20, .sd2, 4, 21, 1), (21, .sd3, 4, 22, 1),
       (22, .sd4, 4, 23, 1), (23, .adcm, 5, 3, 3), (24, .adcs, 5, 6, 1), (25, .muxhi, 5, 7, 1),
       (26, .vco, 6, 3, 6), (27, .vasa, 6, 9, 1), (28, .adcv, 6, 10, 1), (29, .adc, 6, 11, 7)] →
      a.toNat = k →
      ∃ t, exec (.rdf a) s = .next t ∧
        Answered s t (BitVec.ofNat 64 ((readReg reg s).toNat / 2 ^ lsb % 2 ^ width)) ∧
        t.response.data.toNat = (readReg reg s).toNat / 2 ^ lsb % 2 ^ width ∧
        t.response.data.toNat < 2 ^ width ∧
        fieldValue f s = (readReg reg s).toNat / 2 ^ lsb % 2 ^ width ∧
        RegsSame s t ∧ SynthSame s t ∧ LinkSame s t ∧ InputsSame s t) ∧
    (29 < a.toNat → ∃ t, exec (.rdf a) s = .next t ∧ Failed s t 0x06)

/-- `WRF`: the field takes the operand truncated to its width; every bit of every register outside the
field, the tag included, is unchanged, as is all else; an id above 29 ends with `E_INDEX` (R80).
The id, the name, the register, the least significant bit and the width of each of the thirty fields stand
here as the rows of the field table (R16), and the name means those very bits. -/
def Obligations.WrfStoresTheField : Prop :=
  ∀ (a b : BitVec 32) (s : State), TagsOk s →
    (∀ (k : Nat) (f : Field) (reg : RegIndex) (lsb width : Nat), (k, f, reg, lsb, width) ∈
      [(0, Field.frac, 0, 3, 12), (1, .n, 0, 15, 16), (2, .int, 0, 31, 1), (3, .m, 1, 3, 12),
       (4, .cpl, 1, 15, 2), (5, .fcomp, 1, 17, 1), (6, .muxlo, 2, 3, 3), (7, .rdiv, 2, 6, 10),
       (8, .dbr, 2, 16, 1), (9, .rdiv2, 2, 17, 1), (10, .lds, 2, 18, 1), (11, .bsclk, 3, 3, 12),
       (12, .bsHi, 3, 15, 2), (13, .bsLo, 4, 3, 10), (14, .diva, 4, 13, 3),
       (15, .outenA, 4, 16, 1), (16, .outenB, 4, 17, 1), (17, .mtld, 4, 18, 1),
       (18, .sd0, 4, 19, 1), (19, .sd1, 4, 20, 1), (20, .sd2, 4, 21, 1), (21, .sd3, 4, 22, 1),
       (22, .sd4, 4, 23, 1), (23, .adcm, 5, 3, 3), (24, .adcs, 5, 6, 1), (25, .muxhi, 5, 7, 1),
       (26, .vco, 6, 3, 6), (27, .vasa, 6, 9, 1), (28, .adcv, 6, 10, 1), (29, .adc, 6, 11, 7)] →
      a.toNat = k →
      ∃ t, exec (.wrf a b) s = .next t ∧ Answered s t 0 ∧
        (readReg reg t).toNat / 2 ^ lsb % 2 ^ width = b.toNat % 2 ^ width ∧
        fieldValue f t = b.toNat % 2 ^ width ∧
        (∀ (i : RegIndex) (j : Nat), ¬(i = reg ∧ lsb ≤ j ∧ j < lsb + width) →
          (readReg i t).getLsbD j = (readReg i s).getLsbD j) ∧
        SynthSame s t ∧ LinkSame s t ∧ InputsSame s t) ∧
    (29 < a.toNat → ∃ t, exec (.wrf a b) s = .next t ∧ Failed s t 0x06)

/-- `APPLY6`: bits [31:3] of the operand go to the register-6 view and the tag stays 6, so its four fields
take the operand's bits at their positions; exactly the effect of `WRW 6` (R81). -/
def Obligations.Apply6AppliesTheWord : Prop :=
  ∀ (b : BitVec 32) (s : State),
    exec (.apply6 b) s = exec (.wrw 6 b) s ∧
    ∃ t, exec (.apply6 b) s = .next t ∧ Answered s t 0 ∧
      readReg 6 t = applied6 b ∧ fieldValue .adc t = codeOf b ∧
      fieldValue .adcv t = (adcValidOf b).toNat ∧ fieldValue .vasa t = (b.getLsbD 9).toNat ∧
      fieldValue .vco t = vcoOf b ∧
      RegsSameBut [6] s t ∧ SynthSame s t ∧ LinkSame s t ∧ InputsSame s t

/-- The consistency laws of words and fields, for every layout that is well formed (derived from R8,
R12, R13, R15; the spec lists them in R82 as its own inference from these). -/
def Obligations.WordAndFieldViewsAgree : Prop :=
  ∀ (l : Layout) (s : State), layoutOk l = true → TagsOk s →
    (∀ (i : RegIndex) (v : Word),
      readReg i (writeReg i v s) = BitVec.ofNat 32 (v.toNat / 8 * 8 + i.val)) ∧
    (∀ (f : Field) (v : Nat), getField l f (setField l f v s) = v % 2 ^ (l f).width) ∧
    (∀ (f g : Field) (v : Nat), g ≠ f → getField l g (setField l f v s) = getField l g s) ∧
    (∀ (f : Field) (v : Nat) (j : RegIndex), j ≠ (l f).reg →
      readReg j (setField l f v s) = readReg j s) ∧
    (∀ (f : Field) (v : Nat), serialTag (readReg (l f).reg (setField l f v s)) =
      serialTag (readReg (l f).reg s)) ∧
    (∀ f : Field, setField l f (getField l f s) s = s) ∧
    (∀ (f : Field) (v w : Nat), setField l f w (setField l f v s) = setField l f w s) ∧
    (∀ (f g : Field) (v w : Nat), g ≠ f →
      setField l g w (setField l f v s) = setField l f v (setField l g w s))

/-! ### Serial Transport -/

/-- `WRITEWORD`: one frame of 98 events with the operand exactly as given, most significant bit first, with
the ghost effect of its tag; registers untouched, never an error (R85). -/
def Obligations.WritewordSendsOneFrame : Prop :=
  ∀ (b : BitVec 32) (s : State),
    (frameOf b).length = 98 ∧
    ∃ t, exec (.writeword b) s = .next t ∧ Answered s t 0 ∧ FrameSent b s t ∧
      RegsSame s t ∧ SynthSame s t ∧ InputsSame s t

/-- `WRITEALL`: the six registers 5, 4, 3, 2, 1, 0 in this order, 588 events, register 6 never; afterwards
`CHIP[i] = R[i]` for `i` in 0..5 (R87). -/
def Obligations.WriteallSendsTheConfiguration : Prop :=
  ∀ s : State, TagsOk s →
    ∃ t, exec .writeall s = .next t ∧ Answered s t 0 ∧ RegsSame s t ∧ ConfigSent s t ∧
      (newEvents s t).length = 588 ∧ SynthSame s t ∧ InputsSame s t

/-- `READREG6`: two routing frames, the readback request, four bytes in, one zero byte out; the word of the
four bytes at offsets 25, 17, 9, 1 is the result; no register is changed in the end, while the chip keeps
the readback routing (derived from R89, R90, R92 under the default parameters). -/
def Obligations.Readreg6ReadsTheChip : Prop :=
  ∀ s : State, TagsOk s →
    ∃ t, exec .readreg6 s = .next t ∧ Answered s t ((answeredWord s 0).setWidth 64) ∧
      RegsSame s t ∧ SynthSame s t ∧
      t.pinTrace = s.pinTrace ++ readbackTrace (readReg 5 s) (readReg 2 s) s 0 ∧
      LinkLeft s t (routed5 (readReg 5 s)) (routed2 (readReg 2 s)) false ∧
      t.dataIn = samplesTaken 32 s.dataIn ∧ t.ldIn = s.ldIn

/-- A readback of the block is always well requested: when the first bit is sampled the ghost chip has the
routing values in its two multiplexer fields and has been asked for register 6 (derived from R38, R89). -/
def Obligations.ReadbackIsWellRequested : Prop :=
  ∀ s : State, TagsOk s → wellRequested params (requestReadback params s) = true

/-- The reconstruction: `(B0 << 25) | (B1 << 17) | (B2 << 9) | (B3 << 1)` modulo `2^32`; the bytes do not
overlap, bit 7 of the first falls off, bit 0 is always 0, and the result is the four bytes side by side,
shifted by one (derived from R91, which marks these consequences as its own inference). -/
def Obligations.ReconstructionOffsets : Prop :=
  (∀ b0 b1 b2 b3 : BitVec 8,
    (reconstruct b0 b1 b2 b3).toNat =
      (b0.toNat <<< 25 ||| b1.toNat <<< 17 ||| b2.toNat <<< 9 ||| b3.toNat <<< 1) % 2 ^ 32 ∧
    (reconstruct b0 b1 b2 b3).toNat =
      (b0.toNat * 2 ^ 25 + b1.toNat * 2 ^ 17 + b2.toNat * 2 ^ 9 + b3.toNat * 2) % 2 ^ 32 ∧
    reconstruct b0 b1 b2 b3 = (b0 ++ b1 ++ b2 ++ b3 : BitVec (8 + 8 + 8 + 8)) <<< 1 ∧
    (reconstruct b0 b1 b2 b3).getLsbD 0 = false ∧
    reconstruct (b0 &&& 0x7F) b1 b2 b3 = reconstruct b0 b1 b2 b3) ∧
  reconstruct 0x12 0x34 0x56 0x78 = 0x2468ACF0 ∧ reconstruct 0xFF 0 0 0 = 0xFE000000 ∧
  reconstruct 0x80 0 0 0 = 0x00000000 ∧ reconstruct 0 0 0 0xFF = 0x000001FE ∧
  reconstruct 0xFF 0xFF 0xFF 0xFF = 0xFFFFFFFE

/-- A read word is not checked and may be any word: for every word with bit 0 clear there are levels of
`DATA_IN` that make `READREG6` answer it (derived from R40, R91, R172). -/
def Obligations.ReadbackMayAnswerAnyWord : Prop :=
  ∀ (w : Word) (s : State), TagsOk s → w.getLsbD 0 = false →
    ∃ (d : InPort) (t : State), exec .readreg6 { s with dataIn := d } = .next t ∧
      Answered s t (w.setWidth 64)

/-! ### Serial words -/

/-- The serial words of chip registers 0 to 5 are each run as the one frame of the word, with its payload
fields at their bit positions, and answered `OK` (formats R58, R59; that a serial word is run as the
`WRITEWORD` that carries it is the model's choice, log entry 4). -/
def Obligations.SerialWordsAreFrames : Prop :=
  ∀ s : State,
    (∀ (int : BitVec 1) (n : BitVec 16) (frac : BitVec 12),
      ∃ t, exec (.w0 int n frac) s = .next t ∧ Answered s t 0 ∧
        FrameSent (BitVec.ofNat 32 (int.toNat * 2 ^ 31 + n.toNat * 2 ^ 15 + frac.toNat * 2 ^ 3)) s t ∧
        RegsSame s t ∧ SynthSame s t ∧ InputsSame s t) ∧
    (∀ (rest : BitVec 14) (fcomp : BitVec 1) (cpl : BitVec 2) (m : BitVec 12),
      ∃ t, exec (.w1 rest fcomp cpl m) s = .next t ∧ Answered s t 0 ∧
        FrameSent (BitVec.ofNat 32 (rest.toNat * 2 ^ 18 + fcomp.toNat * 2 ^ 17 +
          cpl.toNat * 2 ^ 15 + m.toNat * 2 ^ 3 + 1)) s t ∧
        RegsSame s t ∧ SynthSame s t ∧ InputsSame s t) ∧
    (∀ (rest : BitVec 13) (lds rdiv2 dbr : BitVec 1) (rdiv : BitVec 10) (muxlo : BitVec 3),
      ∃ t, exec (.w2 rest lds rdiv2 dbr rdiv muxlo) s = .next t ∧ Answered s t 0 ∧
        FrameSent (BitVec.ofNat 32 (rest.toNat * 2 ^ 19 + lds.toNat * 2 ^ 18 + rdiv2.toNat * 2 ^ 17 +
          dbr.toNat * 2 ^ 16 + rdiv.toNat * 2 ^ 6 + muxlo.toNat * 2 ^ 3 + 2)) s t ∧
        RegsSame s t ∧ SynthSame s t ∧ InputsSame s t) ∧
    (∀ (rest : BitVec 15) (bsHi : BitVec 2) (bsclk : BitVec 12),
      ∃ t, exec (.w3 rest bsHi bsclk) s = .next t ∧ Answered s t 0 ∧
        FrameSent (BitVec.ofNat 32 (rest.toNat * 2 ^ 17 + bsHi.toNat * 2 ^ 15 +
          bsclk.toNat * 2 ^ 3 + 3)) s t ∧
        RegsSame s t ∧ SynthSame s t ∧ InputsSame s t) ∧
    (∀ (rest : BitVec 8) (sd4 sd3 sd2 sd1 sd0 mtld outenB outenA : BitVec 1) (diva : BitVec 3)
      (bsLo : BitVec 10),
      ∃ t, exec (.w4 rest sd4 sd3 sd2 sd1 sd0 mtld outenB outenA diva bsLo) s = .next t ∧ Answered s t 0 ∧
        FrameSent (BitVec.ofNat 32 (rest.toNat * 2 ^ 24 + sd4.toNat * 2 ^ 23 + sd3.toNat * 2 ^ 22 +
          sd2.toNat * 2 ^ 21 + sd1.toNat * 2 ^ 20 + sd0.toNat * 2 ^ 19 + mtld.toNat * 2 ^ 18 +
          outenB.toNat * 2 ^ 17 + outenA.toNat * 2 ^ 16 + diva.toNat * 2 ^ 13 +
          bsLo.toNat * 2 ^ 3 + 4)) s t ∧
        RegsSame s t ∧ SynthSame s t ∧ InputsSame s t) ∧
    (∀ (rest : BitVec 24) (muxhi adcs : BitVec 1) (adcm : BitVec 3),
      ∃ t, exec (.w5 rest muxhi adcs adcm) s = .next t ∧ Answered s t 0 ∧
        FrameSent (BitVec.ofNat 32 (rest.toNat * 2 ^ 8 + muxhi.toNat * 2 ^ 7 + adcs.toNat * 2 ^ 6 +
          adcm.toNat * 2 ^ 3 + 5)) s t ∧
        RegsSame s t ∧ SynthSame s t ∧ InputsSame s t)

/-- A serial word with tag 6, run as the one frame of the word: with a payload it is sent and has no ghost
effect, the readback request sets the readback flag of the ghost chip and nothing else of it (R38, R60, R71;
that a serial word is run as the `WRITEWORD` that carries it is the model's choice, log entry 4; log entry 5).
-/
def Obligations.TagSixWordsOnTheLink : Prop :=
  ∀ s : State,
    (∀ (rest : BitVec 14) (adc : BitVec 7) (adcv vasa : BitVec 1) (vco : BitVec 6),
      wellFormed (.w6 rest adc adcv vasa vco) = true →
      ∃ t, exec (.w6 rest adc adcv vasa vco) s = .next t ∧ Answered s t 0 ∧
        FrameSent (BitVec.ofNat 32 (rest.toNat * 2 ^ 18 + adc.toNat * 2 ^ 11 + adcv.toNat * 2 ^ 10 +
          vasa.toNat * 2 ^ 9 + vco.toNat * 2 ^ 3 + 6)) s t ∧ t.chip = s.chip ∧ t.chipRb = s.chipRb ∧
        RegsSame s t ∧ SynthSame s t ∧ InputsSame s t) ∧
    (∃ t, exec .rbreq s = .next t ∧ Answered s t 0 ∧ FrameSent 0x00000006 s t ∧ t.chip = s.chip ∧
      t.chipRb = some true ∧ RegsSame s t ∧ SynthSame s t ∧ InputsSame s t)

/-! ### Synthesis Engine -/

/-- `SETPFD`: the reference, the divider and their quotient are stored, the seven fields take the values of
the rule, every other bit of every register stays, and the whole configuration is sent (R96). -/
def Obligations.SetpfdComputesAndSends : Prop :=
  ∀ (a b : BitVec 32) (s : State), TagsOk s → a ≠ 0 → b ≠ 0 → b.toNat ≤ 1023 →
    let f : ℚ := (a.toNat : ℚ) / 1000 / (b.toNat : ℚ)
    let bs : Nat := (max 1 (min ⌊f * 20⌋ 1023)).toNat
    ∃ t, exec (.setpfd a b) s = .next t ∧ Answered s t 0 ∧ SetBy a b t ∧ t.fTarget = s.fTarget ∧
      fieldValue .lds t = (if 32 < f then 1 else 0) ∧
      fieldValue .bsclk t = min (rha (f / (1 / 10))).toNat 4095 ∧
      fieldValue .dbr t = 0 ∧ fieldValue .rdiv2 t = 0 ∧ fieldValue .rdiv t = b.toNat ∧
      fieldValue .bsLo t = bs % 1024 ∧ fieldValue .bsHi t = bs / 256 % 4 ∧
      FieldsSameBut [.lds, .bsclk, .dbr, .rdiv2, .rdiv, .bsLo, .bsHi] s t ∧
      ConfigSent s t ∧ InputsSame s t

/-- The checks of `SETPFD` in their order: a zero operand ends with `E_ZERO`, then a divider above 1023 ends
with `E_FIELD`, each with nothing changed (R97). -/
def Obligations.SetpfdRefuses : Prop :=
  ∀ (a b : BitVec 32) (s : State),
    (a = 0 ∨ b = 0 → ∃ t, exec (.setpfd a b) s = .next t ∧ Failed s t 0x03) ∧
    (a ≠ 0 → 1023 < b.toNat → ∃ t, exec (.setpfd a b) s = .next t ∧ Failed s t 0x04)

/-- The band-select corners: below 1/20 MHz the value is clamped to 1 and the clock divider is 0; from 51.2
MHz on it is clamped to 1023; the high field is always bits [9:8] of the value, which the low field holds
whole (derived from R96; the spec lists the corners in R98 as its own inference from it). -/
def Obligations.BandSelectCorners : Prop :=
  ∀ (a b : BitVec 32) (s t : State), TagsOk s → a ≠ 0 → b ≠ 0 → b.toNat ≤ 1023 →
    exec (.setpfd a b) s = .next t →
    let f : ℚ := (a.toNat : ℚ) / 1000 / (b.toNat : ℚ)
    (f < 1 / 20 → fieldValue .bsLo t = 1 ∧ fieldValue .bsHi t = 0 ∧ fieldValue .bsclk t = 0) ∧
    (512 / 10 ≤ f → fieldValue .bsLo t = 1023 ∧ fieldValue .bsHi t = 3) ∧
    (1 / 20 ≤ f → f < 512 / 10 → (fieldValue .bsLo t : ℤ) = ⌊20 * f⌋) ∧
    fieldValue .bsHi t = (if fieldValue .bsLo t < 256 then 0 else if fieldValue .bsLo t < 512 then 1
      else if fieldValue .bsLo t < 768 then 2 else 3)

/-- The divider search answers the smallest exponent that lifts the target to the VCO floor, for any bound on
it, and refuses exactly when no exponent up to the bound does; under the defaults every accepted target has
one (derived from R100, which marks its table of the ranges as its own inference). -/
def Obligations.DivaSearchIsMinimal : Prop :=
  (∀ (p : Params) (f : ℚ) (d : Nat), divaSearch p f = .ok d ↔
    d ≤ p.divaMax ∧ p.vcoFloor ≤ f * 2 ^ d ∧ ∀ m < d, f * 2 ^ m < p.vcoFloor) ∧
  (∀ (p : Params) (f : ℚ) (c : Code), divaSearch p f = .error c ↔
    c = .range ∧ ∀ m ≤ p.divaMax, f * 2 ^ m < p.vcoFloor) ∧
  (∀ f : ℚ, 47 / 2 ≤ f → ∃ d, d ≤ 7 ∧ divaSearch params f = .ok d) ∧
  (∀ f : ℚ, 3000 ≤ f → divaSearch params f = .ok 0) ∧
  (∀ (f : ℚ) (d : Nat), 1 ≤ d → d ≤ 7 → 3000 / 2 ^ d ≤ f → f < 3000 / 2 ^ (d - 1) →
    divaSearch params f = .ok d)

/-- The integer and the fractional part of a coefficient: below a half the integer is the floor and the
numerator is the rounded remainder, at most 2000; from a half on the integer is the next one and the
numerator 0; the numerator is 0 also below 1/8000 and never reaches 4000 (derived from R102, which marks
these consequences as its own inference). -/
def Obligations.FractionCollapsesAboveHalf : Prop :=
  ∀ c : ℚ, 0 ≤ c →
    (Int.fract c < 1 / 2 → rha c = ⌊c⌋ ∧ fracPart params c = rha (4000 * Int.fract c) ∧
      0 ≤ fracPart params c ∧ fracPart params c ≤ 2000) ∧
    (1 / 2 ≤ Int.fract c → rha c = ⌊c⌋ + 1 ∧ fracPart params c = 0) ∧
    (Int.fract c < 1 / 8000 → fracPart params c = 0) ∧
    fracPart params c = rha (4000 * max (c - rha c) 0) ∧ fracPart params c < 4000

/-- `rha` rounds to the nearest integer, a half away from zero, on both sides of zero (derived from R10). -/
def Obligations.RoundHalfAwayFromZero : Prop :=
  (∀ (x : ℚ) (n : ℤ), |x - n| < 1 / 2 → rha x = n) ∧
  (∀ n : ℤ, 0 ≤ n → rha ((n : ℚ) + 1 / 2) = n + 1) ∧
  (∀ n : ℤ, n ≤ 0 → rha ((n : ℚ) - 1 / 2) = n - 1)

/-- `SETFREQ` to a target with a fractional coefficient: the divider is stored as it is, the numerator over
4000, fractional mode, mute-on-retune; the target is recorded and the whole configuration sent (derived
from R99, R101, R102, R105, R106 under the default parameters). -/
def Obligations.SetfreqFractional : Prop :=
  ∀ (a : BitVec 32) (s : State) (pfd : ℚ) (d : Nat), TagsOk s → s.fPfd = some pfd → 0 < pfd →
    let f : ℚ := (a.toNat : ℚ) / 1000
    47 / 2 ≤ f → f ≤ 6000 → 3000 ≤ f * 2 ^ d → (∀ m < d, f * 2 ^ m < 3000) →
    let c : ℚ := f * 2 ^ d / pfd
    let frac : ℤ := rha (4000 * max (c - rha c) 0)
    frac ≠ 0 → rha c ≤ 65535 →
    ∃ t, exec (.setfreq a) s = .next t ∧ Answered s t 0 ∧
      t.fRef = s.fRef ∧ t.rdivS = s.rdivS ∧ t.fPfd = s.fPfd ∧ t.fTarget = some f ∧
      (fieldValue .n t : ℤ) = rha c ∧ (fieldValue .frac t : ℤ) = frac ∧ fieldValue .m t = 4000 ∧
      fieldValue .diva t = d ∧ fieldValue .int t = 0 ∧ fieldValue .fcomp t = 1 ∧
      fieldValue .cpl t = 1 ∧ fieldValue .mtld t = 1 ∧
      FieldsSameBut [.int, .fcomp, .cpl, .n, .frac, .m, .diva, .mtld] s t ∧
      ConfigSent s t ∧ InputsSame s t

/-- `SETFREQ` to a target whose numerator rounds to zero: integer mode, the compensation field off, the
integer divided exactly by the output divider; the target is recorded and the whole configuration sent
(derived from R99, R101 to R103, R106 under the default parameters). -/
def Obligations.SetfreqInteger : Prop :=
  ∀ (a : BitVec 32) (s : State) (pfd : ℚ) (d : Nat), TagsOk s → s.fPfd = some pfd → 0 < pfd →
    let f : ℚ := (a.toNat : ℚ) / 1000
    47 / 2 ≤ f → f ≤ 6000 → 3000 ≤ f * 2 ^ d → (∀ m < d, f * 2 ^ m < 3000) →
    let c : ℚ := f * 2 ^ d / pfd
    rha (4000 * max (c - rha c) 0) = 0 → rha c % 2 ^ d = 0 → rha c / 2 ^ d ≤ 65535 →
    ∃ t, exec (.setfreq a) s = .next t ∧ Answered s t 0 ∧
      t.fRef = s.fRef ∧ t.rdivS = s.rdivS ∧ t.fPfd = s.fPfd ∧ t.fTarget = some f ∧
      (fieldValue .n t : ℤ) * 2 ^ d = rha c ∧ fieldValue .frac t = 0 ∧ fieldValue .m t = 4000 ∧
      fieldValue .diva t = d ∧ fieldValue .int t = 1 ∧ fieldValue .fcomp t = 0 ∧
      fieldValue .cpl t = 0 ∧ fieldValue .mtld t = 1 ∧
      FieldsSameBut [.int, .fcomp, .cpl, .n, .frac, .m, .diva, .mtld] s t ∧
      ConfigSent s t ∧ InputsSame s t

/-- The checks of `SETFREQ` in their order, each with nothing changed: no PFD frequency, a target outside the
bounds, a failed search (for parameters under which it can fail, before anything is computed from it), an
inexact rescale in the integer branch, a divider that does not fit its field (R107). -/
def Obligations.SetfreqRefuses : Prop :=
  ∀ (a : BitVec 32) (s : State),
    (s.fPfd = none → ∃ t, exec (.setfreq a) s = .next t ∧ Failed s t 0x02) ∧
    ∀ pfd : ℚ, s.fPfd = some pfd → 0 < pfd →
    let f : ℚ := (a.toNat : ℚ) / 1000
    (f < 47 / 2 ∨ 6000 < f → ∃ t, exec (.setfreq a) s = .next t ∧ Failed s t 0x01) ∧
    (∀ p : Params, p.fOutMin ≤ f → f ≤ p.fOutMax → (∀ m ≤ p.divaMax, f * 2 ^ m < p.vcoFloor) →
      planTuning p pfd f = .error .range) ∧
    ∀ d : Nat, 47 / 2 ≤ f → f ≤ 6000 → 3000 ≤ f * 2 ^ d → (∀ m < d, f * 2 ^ m < 3000) →
    let c : ℚ := f * 2 ^ d / pfd
    let frac : ℤ := rha (4000 * max (c - rha c) 0)
    (frac = 0 → rha c % 2 ^ d ≠ 0 → ∃ t, exec (.setfreq a) s = .next t ∧ Failed s t 0x05) ∧
    (frac = 0 → rha c % 2 ^ d = 0 → 65535 < rha c / 2 ^ d →
      ∃ t, exec (.setfreq a) s = .next t ∧ Failed s t 0x04) ∧
    (frac ≠ 0 → 65535 < rha c → ∃ t, exec (.setfreq a) s = .next t ∧ Failed s t 0x04)

/-- How far the realized frequency of a `SETFREQ` that returns `OK` is from the target, by the fraction `t`
of the coefficient: within `1/8000` PFD cycle of the output in the fractional case, exactly `t` of a cycle
below it when the fraction rounds to zero, exactly `1 - t` of a cycle above it from a half on; always
`F_PFD * (N_pre + FRAC/4000) / 2^diva`, whatever the rescale stored (derived from R99 to R103, R105,
R106, R109; the spec lists these properties in R108 as its own inference). -/
def Obligations.RealizedFrequencyError : Prop :=
  ∀ (a : BitVec 32) (s u : State) (pfd : ℚ), TagsOk s → s.fPfd = some pfd → 0 < pfd →
    exec (.setfreq a) s = .next u → u.status = 0x00 →
    let f : ℚ := (a.toNat : ℚ) / 1000
    let d := fieldValue .diva u
    let c : ℚ := f * 2 ^ d / pfd
    let t : ℚ := Int.fract c
    3000 ≤ f * 2 ^ d ∧ (∀ m < d, f * 2 ^ m < 3000) ∧
    realizedAt pfd u =
      pfd * ((rha c : ℚ) + (rha (4000 * max (c - rha c) 0) : ℚ) / 4000) / 2 ^ d ∧
    (1 / 8000 ≤ t → t < 1 / 2 → fieldValue .int u = 0 ∧
      |c - ((fieldValue .n u : ℚ) + (fieldValue .frac u : ℚ) / 4000)| ≤ 1 / 8000 ∧
      |f - realizedAt pfd u| ≤ pfd / (8000 * 2 ^ d)) ∧
    (t < 1 / 8000 → fieldValue .int u = 1 ∧ rha c = ⌊c⌋ ∧
      f - realizedAt pfd u = t * pfd / 2 ^ d) ∧
    (1 / 2 ≤ t → fieldValue .int u = 1 ∧ rha c = ⌊c⌋ + 1 ∧
      realizedAt pfd u - f = (1 - t) * pfd / 2 ^ d)

/-- `GETFREQ`: the realized frequency of the registers as they stand, in Hz, rounded down, nothing changed;
`E_NOPFD` without a PFD frequency, `E_ZERO` in fractional mode with a zero denominator (R109, R110). -/
def Obligations.GetfreqReportsTheRealizedFrequency : Prop :=
  ∀ s : State, SynthOk s →
    (∀ pfd : ℚ, s.fPfd = some pfd → ¬(fieldValue .int s = 0 ∧ fieldValue .m s = 0) →
      ∃ t d, exec .getfreq s = .next t ∧ Answered s t d ∧
        (d.toNat : ℤ) = ⌊realizedAt pfd s * 10 ^ 6⌋ ∧
        RegsSame s t ∧ SynthSame s t ∧ LinkSame s t ∧ InputsSame s t) ∧
    (s.fPfd = none → ∃ t, exec .getfreq s = .next t ∧ Failed s t 0x02) ∧
    (∀ pfd : ℚ, s.fPfd = some pfd → fieldValue .int s = 0 → fieldValue .m s = 0 →
      ∃ t, exec .getfreq s = .next t ∧ Failed s t 0x03)

/-- `POWER`: the five shutdown fields take the inverse of bit 0 of the operand, every other bit of every
register stays, and the whole configuration is sent (R111). -/
def Obligations.PowerFlipsTheShutdownFields : Prop :=
  (∀ a b : BitVec 32, decode (.command (0x22#8 ++ a ++ b)) = .ok (.power (b.getLsbD 0))) ∧
  ∀ (enable : Bool) (s : State), TagsOk s →
    ∃ t, exec (.power enable) s = .next t ∧ Answered s t 0 ∧
      (∀ f ∈ [Field.sd0, .sd1, .sd2, .sd3, .sd4], fieldValue f t = if enable then 0 else 1) ∧
      FieldsSameBut [.sd0, .sd1, .sd2, .sd3, .sd4] s t ∧
      SynthSame s t ∧ ConfigSent s t ∧ InputsSame s t

/-- `OUTEN` sets and `OUTDIS` clears both output-enable fields together; every other bit of every register
stays, and the whole configuration is sent (R112, R113). -/
def Obligations.OutputsSwitchTogether : Prop :=
  ∀ s : State, TagsOk s →
    (∃ t, exec .outen s = .next t ∧ Answered s t 0 ∧
      fieldValue .outenA t = 1 ∧ fieldValue .outenB t = 1 ∧ FieldsSameBut [.outenA, .outenB] s t ∧
      SynthSame s t ∧ ConfigSent s t ∧ InputsSame s t) ∧
    (∃ t, exec .outdis s = .next t ∧ Answered s t 0 ∧
      fieldValue .outenA t = 0 ∧ fieldValue .outenB t = 0 ∧ FieldsSameBut [.outenA, .outenB] s t ∧
      SynthSame s t ∧ ConfigSent s t ∧ InputsSame s t)

/-- Power, output enable and tuning write disjoint groups of fields, so they commute as far as the final
registers go (derived from R111 to R113, R96, R99; R114 is the spec's own inference from them). `SETPFD` and
`SETFREQ` are no pair of this statement: read literally R114 takes them in, but `SETFREQ` computes from the
`F_PFD` that `SETPFD` writes, and the model follows their pseudocode (log entry 14). -/
def Obligations.PowerAndOutputsCommuteWithTuning : Prop :=
  ∀ (i j : Instr) (s t u t' u' : State), TagsOk s →
    (((∃ e, i = .power e) ∧ (j = .outen ∨ j = .outdis)) ∨
      (((∃ e, i = .power e) ∨ i = .outen ∨ i = .outdis) ∧
        ((∃ a b, j = .setpfd a b) ∨ ∃ a, j = .setfreq a))) →
    exec i s = .next t → exec j t = .next u → exec j s = .next t' → exec i t' = .next u' →
      RegsSame u u'

/-! ### Diagnostics Reader -/

/-- `READADC`: register 5 with the voltage mode and the ADC start, the settle wait, the readback, register 5
at idle again; the word goes to `R[6]`; the answer is the decoded voltage or the sentinel, the valid flag
and the code (R117; the decode R118, the packing R67, R68). -/
def Obligations.ReadadcSamplesTheVoltage : Prop :=
  ∀ s : State, TagsOk s →
    ∃ t d, exec .readadc s = .next t ∧ Answered s t d ∧
      ReadingData d (voltsResult (answeredWord s 0)) (voltsValidOf (answeredWord s 0))
        (codeOf (answeredWord s 0)) ∧
      ReadingApplied (answeredWord s 0) s t ∧ SynthSame s t ∧
      t.pinTrace = s.pinTrace ++ adcTrace 4 (readReg 5 s) (readReg 2 s) s 0 ∧
      LinkLeft s t (readReg 5 t) (routed2 (readReg 2 s)) true ∧
      t.dataIn = samplesTaken 32 s.dataIn ∧ t.ldIn = s.ldIn

/-- `READTEMP`: as `READADC` with the temperature mode, decoded by the temperature formula, valid with the
ADC-valid bit alone (R119; the decode R120, the packing R67, R68). -/
def Obligations.ReadtempSamplesTheTemperature : Prop :=
  ∀ s : State, TagsOk s →
    ∃ t d, exec .readtemp s = .next t ∧ Answered s t d ∧
      ReadingData d (degreesResult (answeredWord s 0)) (adcValidOf (answeredWord s 0))
        (codeOf (answeredWord s 0)) ∧
      ReadingApplied (answeredWord s 0) s t ∧ SynthSame s t ∧
      t.pinTrace = s.pinTrace ++ adcTrace 1 (readReg 5 s) (readReg 2 s) s 0 ∧
      LinkLeft s t (readReg 5 t) (routed2 (readReg 2 s)) true ∧
      t.dataIn = samplesTaken 32 s.dataIn ∧ t.ldIn = s.ldIn

/-- `READVCO`: a bare readback, the word applied to `R[6]`, the active-VCO field answered (R121). -/
def Obligations.ReadvcoReadsTheIndex : Prop :=
  ∀ s : State, TagsOk s →
    ∃ t, exec .readvco s = .next t ∧
      Answered s t (BitVec.ofNat 64 (vcoOf (answeredWord s 0))) ∧
      RegsSameBut [6] s t ∧ readReg 6 t = applied6 (answeredWord s 0) ∧ SynthSame s t ∧
      t.pinTrace = s.pinTrace ++ readbackTrace (readReg 5 s) (readReg 2 s) s 0 ∧
      LinkLeft s t (routed5 (readReg 5 s)) (routed2 (readReg 2 s)) false ∧
      t.dataIn = samplesTaken 32 s.dataIn ∧ t.ldIn = s.ldIn

/-- `READLD`: one sample of the lock-detect pin, answered raw; no frame, no state change (R122). -/
def Obligations.ReadldSamplesThePin : Prop :=
  ∀ s : State,
    ∃ t, exec .readld s = .next t ∧
      Answered s t (BitVec.ofNat 64 (levelAt Config.ldInLevel s.ldIn 0).toNat) ∧
      RegsSame s t ∧ SynthSame s t ∧
      t.pinTrace = s.pinTrace ++ [.read .ldIn (levelAt Config.ldInLevel s.ldIn 0)] ∧
      t.le = s.le ∧ t.clk = s.clk ∧ t.dataOut = s.dataOut ∧ t.chip = s.chip ∧ t.chipRb = s.chipRb ∧
      t.ldIn = samplesTaken 1 s.ldIn ∧ t.dataIn = s.dataIn

/-- `READDIAG`: the whole sequences of `READADC`, `READTEMP` and `READVCO` in this order, their codes, index
and flags packed; `R[6]` ends as the word of the third (R123; the packing R67). -/
def Obligations.ReaddiagRunsAllThree : Prop :=
  ∀ s : State, TagsOk s →
    ∃ t d, exec .readdiag s = .next t ∧ Answered s t d ∧
      (d.extractLsb' 0 16).toNat = codeOf (answeredWord s 0) ∧
      (d.extractLsb' 16 16).toNat = codeOf (answeredWord s 32) ∧
      (d.extractLsb' 32 16).toNat = vcoOf (answeredWord s 64) ∧
      d.getLsbD 48 = voltsValidOf (answeredWord s 0) ∧
      d.getLsbD 49 = adcValidOf (answeredWord s 32) ∧ d.extractLsb' 50 14 = 0 ∧
      ReadingApplied (answeredWord s 64) s t ∧ SynthSame s t ∧
      t.pinTrace = s.pinTrace ++ adcTrace 4 (readReg 5 s) (readReg 2 s) s 0 ++
        adcTrace 1 (readReg 5 t) (readReg 2 s) s 32 ++
        readbackTrace (readReg 5 t) (readReg 2 s) s 64 ∧
      LinkLeft s t (routed5 (readReg 5 t)) (routed2 (readReg 2 s)) false ∧
      t.dataIn = samplesTaken 96 s.dataIn ∧ t.ldIn = s.ldIn

/-- The result encodings are exact: a decoded value times 10000 is the integer of the rule, volts from 3150 in
steps of 165, degrees from 950000 down in steps of 11400, the sentinel -10000; and neither a valid voltage
nor a valid temperature is ever the sentinel (R68). -/
def Obligations.ResultEncodingsExact : Prop :=
  ∀ s : State,
    (decodeVolts params s).2 * 10000 = (if (decodeVolts params s).1 then
      ((3150 + 165 * fieldValue .adc s : ℤ) : ℚ) else -10000) ∧
    (decodeDegrees params s).2 * 10000 = (if (decodeDegrees params s).1 then
      ((950000 - 11400 * fieldValue .adc s : ℤ) : ℚ) else -10000) ∧
    ((decodeVolts params s).1 = true → 0 ≤ (decodeVolts params s).2) ∧
    ((decodeDegrees params s).1 = true → (decodeDegrees params s).2 ≠ -1) ∧
    (fixedPoint params (decodeVolts params s).2).toInt =
      (if (decodeVolts params s).1 then (3150 + 165 * fieldValue .adc s : ℤ) else -10000) ∧
    (fixedPoint params (decodeDegrees params s).2).toInt =
      (if (decodeDegrees params s).1 then (950000 - 11400 * fieldValue .adc s : ℤ) else -10000)
end

