-- ==== Sys2Proof/Laws/Params.lean ====
section
/-!
SUPPORT. The value of each parameter of the default instance (R7).
-/

namespace Sys2Proof.Machine

@[simp] theorem params_layout : params.layout = layoutDoc := rfl

@[simp] theorem params_vcoFloor : params.vcoFloor = 3000 := rfl

@[simp] theorem params_mFixed : params.mFixed = 4000 := rfl

@[simp] theorem params_ldsThreshold : params.ldsThreshold = 32 := rfl

@[simp] theorem params_bsclkStep : params.bsclkStep = 1 / 10 := rfl

@[simp] theorem params_bsFactor : params.bsFactor = 20 := rfl

@[simp] theorem params_bsMin : params.bsMin = 1 := rfl

@[simp] theorem params_bsMax : params.bsMax = 1023 := rfl

@[simp] theorem params_vOffset : params.vOffset = 63 / 200 := rfl

@[simp] theorem params_vSlope : params.vSlope = 33 / 2000 := rfl

@[simp] theorem params_tOffset : params.tOffset = 95 := rfl

@[simp] theorem params_tSlope : params.tSlope = 57 / 50 := rfl

@[simp] theorem params_sentinel : params.sentinel = -1 := rfl

@[simp] theorem params_tSettle : params.tSettle = 100 := rfl

@[simp] theorem params_divaMax : params.divaMax = 7 := rfl

@[simp] theorem params_fOutMin : params.fOutMin = 47 / 2 := rfl

@[simp] theorem params_fOutMax : params.fOutMax = 6000 := rfl

@[simp] theorem params_freqUnit : params.freqUnit = 1 / 1000 := rfl

@[simp] theorem params_intOn : params.intOn = 1 := rfl

@[simp] theorem params_intOff : params.intOff = 0 := rfl

@[simp] theorem params_fcompOn : params.fcompOn = 1 := rfl

@[simp] theorem params_fcompOff : params.fcompOff = 0 := rfl

@[simp] theorem params_cplInt : params.cplInt = 0 := rfl

@[simp] theorem params_cplFrac : params.cplFrac = 1 := rfl

@[simp] theorem params_fracBranchRestore : params.fracBranchRestore = true := rfl

@[simp] theorem params_rescaleInexact : params.rescaleInexact = .reject := rfl

@[simp] theorem params_dbrNeutral : params.dbrNeutral = 0 := rfl

@[simp] theorem params_rdiv2Neutral : params.rdiv2Neutral = 0 := rfl

@[simp] theorem params_shutdownFields : params.shutdownFields = [.sd0, .sd1, .sd2, .sd3, .sd4] := rfl

@[simp] theorem params_outEnableFields : params.outEnableFields = [.outenA, .outenB] := rfl

@[simp] theorem params_muxRbHi : params.muxRbHi = 1 := rfl

@[simp] theorem params_muxRbLo : params.muxRbLo = 4 := rfl

@[simp] theorem params_muxRestore : params.muxRestore = .restoreLocal := rfl

@[simp] theorem params_readTrailingBytes : params.readTrailingBytes = 1 := rfl

@[simp] theorem params_adcmVtune : params.adcmVtune = 4 := rfl

@[simp] theorem params_adcmTemp : params.adcmTemp = 1 := rfl

@[simp] theorem params_adcmIdle : params.adcmIdle = 0 := rfl

@[simp] theorem params_vasaExpected : params.vasaExpected = Config.vasaExpected := rfl

@[simp] theorem params_leDisable : params.leDisable = false := rfl

@[simp] theorem params_leEnable : params.leEnable = true := rfl

@[simp] theorem params_clkIdle : params.clkIdle = false := rfl

@[simp] theorem params_resetImage : params.resetImage = Vector.replicate 7 0 := rfl

@[simp] theorem params_resultScale : params.resultScale = 10000 := rfl

end Sys2Proof.Machine
end

