-- ==== Sys2Proof/Laws/State.lean ====
section
/-!
SUPPORT. One lemma per field of `State` and per update: what each operation writes to a field, or
that it leaves it. Later proofs rewrite with these instead of unfolding a record update.
-/

namespace Sys2Proof.Machine

/-! ### Registers and fields -/

@[simp] theorem writeReg_fRef (i : RegIndex) (v : Word) (s : State) :
    (writeReg i v s).fRef = s.fRef := by cases s; rfl

@[simp] theorem writeReg_rdivS (i : RegIndex) (v : Word) (s : State) :
    (writeReg i v s).rdivS = s.rdivS := by cases s; rfl

@[simp] theorem writeReg_fPfd (i : RegIndex) (v : Word) (s : State) :
    (writeReg i v s).fPfd = s.fPfd := by cases s; rfl

@[simp] theorem writeReg_fTarget (i : RegIndex) (v : Word) (s : State) :
    (writeReg i v s).fTarget = s.fTarget := by cases s; rfl

@[simp] theorem writeReg_status (i : RegIndex) (v : Word) (s : State) :
    (writeReg i v s).status = s.status := by cases s; rfl

@[simp] theorem writeReg_busy (i : RegIndex) (v : Word) (s : State) :
    (writeReg i v s).busy = s.busy := by cases s; rfl

@[simp] theorem writeReg_seq (i : RegIndex) (v : Word) (s : State) :
    (writeReg i v s).seq = s.seq := by cases s; rfl

@[simp] theorem writeReg_le (i : RegIndex) (v : Word) (s : State) :
    (writeReg i v s).le = s.le := by cases s; rfl

@[simp] theorem writeReg_clk (i : RegIndex) (v : Word) (s : State) :
    (writeReg i v s).clk = s.clk := by cases s; rfl

@[simp] theorem writeReg_dataOut (i : RegIndex) (v : Word) (s : State) :
    (writeReg i v s).dataOut = s.dataOut := by cases s; rfl

@[simp] theorem writeReg_response (i : RegIndex) (v : Word) (s : State) :
    (writeReg i v s).response = s.response := by cases s; rfl

@[simp] theorem writeReg_chip (i : RegIndex) (v : Word) (s : State) :
    (writeReg i v s).chip = s.chip := by cases s; rfl

@[simp] theorem writeReg_chipRb (i : RegIndex) (v : Word) (s : State) :
    (writeReg i v s).chipRb = s.chipRb := by cases s; rfl

@[simp] theorem writeReg_pinTrace (i : RegIndex) (v : Word) (s : State) :
    (writeReg i v s).pinTrace = s.pinTrace := by cases s; rfl

@[simp] theorem writeReg_errorSeen (i : RegIndex) (v : Word) (s : State) :
    (writeReg i v s).errorSeen = s.errorSeen := by cases s; rfl

@[simp] theorem writeReg_dataIn (i : RegIndex) (v : Word) (s : State) :
    (writeReg i v s).dataIn = s.dataIn := by cases s; rfl

@[simp] theorem writeReg_ldIn (i : RegIndex) (v : Word) (s : State) :
    (writeReg i v s).ldIn = s.ldIn := by cases s; rfl

@[simp] theorem writeReg_offers (i : RegIndex) (v : Word) (s : State) :
    (writeReg i v s).offers = s.offers := by cases s; rfl

@[simp] theorem setField_fRef (l : Layout) (f : Field) (x : Nat) (s : State) :
    (setField l f x s).fRef = s.fRef := by cases s; rfl

@[simp] theorem setField_rdivS (l : Layout) (f : Field) (x : Nat) (s : State) :
    (setField l f x s).rdivS = s.rdivS := by cases s; rfl

@[simp] theorem setField_fPfd (l : Layout) (f : Field) (x : Nat) (s : State) :
    (setField l f x s).fPfd = s.fPfd := by cases s; rfl

@[simp] theorem setField_fTarget (l : Layout) (f : Field) (x : Nat) (s : State) :
    (setField l f x s).fTarget = s.fTarget := by cases s; rfl

@[simp] theorem setField_status (l : Layout) (f : Field) (x : Nat) (s : State) :
    (setField l f x s).status = s.status := by cases s; rfl

@[simp] theorem setField_busy (l : Layout) (f : Field) (x : Nat) (s : State) :
    (setField l f x s).busy = s.busy := by cases s; rfl

@[simp] theorem setField_seq (l : Layout) (f : Field) (x : Nat) (s : State) :
    (setField l f x s).seq = s.seq := by cases s; rfl

@[simp] theorem setField_le (l : Layout) (f : Field) (x : Nat) (s : State) :
    (setField l f x s).le = s.le := by cases s; rfl

@[simp] theorem setField_clk (l : Layout) (f : Field) (x : Nat) (s : State) :
    (setField l f x s).clk = s.clk := by cases s; rfl

@[simp] theorem setField_dataOut (l : Layout) (f : Field) (x : Nat) (s : State) :
    (setField l f x s).dataOut = s.dataOut := by cases s; rfl

@[simp] theorem setField_response (l : Layout) (f : Field) (x : Nat) (s : State) :
    (setField l f x s).response = s.response := by cases s; rfl

@[simp] theorem setField_chip (l : Layout) (f : Field) (x : Nat) (s : State) :
    (setField l f x s).chip = s.chip := by cases s; rfl

@[simp] theorem setField_chipRb (l : Layout) (f : Field) (x : Nat) (s : State) :
    (setField l f x s).chipRb = s.chipRb := by cases s; rfl

@[simp] theorem setField_pinTrace (l : Layout) (f : Field) (x : Nat) (s : State) :
    (setField l f x s).pinTrace = s.pinTrace := by cases s; rfl

@[simp] theorem setField_errorSeen (l : Layout) (f : Field) (x : Nat) (s : State) :
    (setField l f x s).errorSeen = s.errorSeen := by cases s; rfl

@[simp] theorem setField_dataIn (l : Layout) (f : Field) (x : Nat) (s : State) :
    (setField l f x s).dataIn = s.dataIn := by cases s; rfl

@[simp] theorem setField_ldIn (l : Layout) (f : Field) (x : Nat) (s : State) :
    (setField l f x s).ldIn = s.ldIn := by cases s; rfl

@[simp] theorem setField_offers (l : Layout) (f : Field) (x : Nat) (s : State) :
    (setField l f x s).offers = s.offers := by cases s; rfl

@[simp] theorem setFields_fRef (l : Layout) (fs : List (Field × Nat)) (s : State) :
    (setFields l fs s).fRef = s.fRef := by
  induction fs generalizing s with
  | nil => rfl
  | cons _ fs ih => exact ih _

@[simp] theorem setFields_rdivS (l : Layout) (fs : List (Field × Nat)) (s : State) :
    (setFields l fs s).rdivS = s.rdivS := by
  induction fs generalizing s with
  | nil => rfl
  | cons _ fs ih => exact ih _

@[simp] theorem setFields_fPfd (l : Layout) (fs : List (Field × Nat)) (s : State) :
    (setFields l fs s).fPfd = s.fPfd := by
  induction fs generalizing s with
  | nil => rfl
  | cons _ fs ih => exact ih _

@[simp] theorem setFields_fTarget (l : Layout) (fs : List (Field × Nat)) (s : State) :
    (setFields l fs s).fTarget = s.fTarget := by
  induction fs generalizing s with
  | nil => rfl
  | cons _ fs ih => exact ih _

@[simp] theorem setFields_status (l : Layout) (fs : List (Field × Nat)) (s : State) :
    (setFields l fs s).status = s.status := by
  induction fs generalizing s with
  | nil => rfl
  | cons _ fs ih => exact ih _

@[simp] theorem setFields_busy (l : Layout) (fs : List (Field × Nat)) (s : State) :
    (setFields l fs s).busy = s.busy := by
  induction fs generalizing s with
  | nil => rfl
  | cons _ fs ih => exact ih _

@[simp] theorem setFields_seq (l : Layout) (fs : List (Field × Nat)) (s : State) :
    (setFields l fs s).seq = s.seq := by
  induction fs generalizing s with
  | nil => rfl
  | cons _ fs ih => exact ih _

@[simp] theorem setFields_le (l : Layout) (fs : List (Field × Nat)) (s : State) :
    (setFields l fs s).le = s.le := by
  induction fs generalizing s with
  | nil => rfl
  | cons _ fs ih => exact ih _

@[simp] theorem setFields_clk (l : Layout) (fs : List (Field × Nat)) (s : State) :
    (setFields l fs s).clk = s.clk := by
  induction fs generalizing s with
  | nil => rfl
  | cons _ fs ih => exact ih _

@[simp] theorem setFields_dataOut (l : Layout) (fs : List (Field × Nat)) (s : State) :
    (setFields l fs s).dataOut = s.dataOut := by
  induction fs generalizing s with
  | nil => rfl
  | cons _ fs ih => exact ih _

@[simp] theorem setFields_response (l : Layout) (fs : List (Field × Nat)) (s : State) :
    (setFields l fs s).response = s.response := by
  induction fs generalizing s with
  | nil => rfl
  | cons _ fs ih => exact ih _

@[simp] theorem setFields_chip (l : Layout) (fs : List (Field × Nat)) (s : State) :
    (setFields l fs s).chip = s.chip := by
  induction fs generalizing s with
  | nil => rfl
  | cons _ fs ih => exact ih _

@[simp] theorem setFields_chipRb (l : Layout) (fs : List (Field × Nat)) (s : State) :
    (setFields l fs s).chipRb = s.chipRb := by
  induction fs generalizing s with
  | nil => rfl
  | cons _ fs ih => exact ih _

@[simp] theorem setFields_pinTrace (l : Layout) (fs : List (Field × Nat)) (s : State) :
    (setFields l fs s).pinTrace = s.pinTrace := by
  induction fs generalizing s with
  | nil => rfl
  | cons _ fs ih => exact ih _

@[simp] theorem setFields_errorSeen (l : Layout) (fs : List (Field × Nat)) (s : State) :
    (setFields l fs s).errorSeen = s.errorSeen := by
  induction fs generalizing s with
  | nil => rfl
  | cons _ fs ih => exact ih _

@[simp] theorem setFields_dataIn (l : Layout) (fs : List (Field × Nat)) (s : State) :
    (setFields l fs s).dataIn = s.dataIn := by
  induction fs generalizing s with
  | nil => rfl
  | cons _ fs ih => exact ih _

@[simp] theorem setFields_ldIn (l : Layout) (fs : List (Field × Nat)) (s : State) :
    (setFields l fs s).ldIn = s.ldIn := by
  induction fs generalizing s with
  | nil => rfl
  | cons _ fs ih => exact ih _

@[simp] theorem setFields_offers (l : Layout) (fs : List (Field × Nat)) (s : State) :
    (setFields l fs s).offers = s.offers := by
  induction fs generalizing s with
  | nil => rfl
  | cons _ fs ih => exact ih _

/-! ### Pins and inputs -/

@[simp] theorem drive_regs (es : List PinEvent) (s : State) :
    (drive es s).regs = s.regs := by cases s; rfl

@[simp] theorem drive_fRef (es : List PinEvent) (s : State) :
    (drive es s).fRef = s.fRef := by cases s; rfl

@[simp] theorem drive_rdivS (es : List PinEvent) (s : State) :
    (drive es s).rdivS = s.rdivS := by cases s; rfl

@[simp] theorem drive_fPfd (es : List PinEvent) (s : State) :
    (drive es s).fPfd = s.fPfd := by cases s; rfl

@[simp] theorem drive_fTarget (es : List PinEvent) (s : State) :
    (drive es s).fTarget = s.fTarget := by cases s; rfl

@[simp] theorem drive_status (es : List PinEvent) (s : State) :
    (drive es s).status = s.status := by cases s; rfl

@[simp] theorem drive_busy (es : List PinEvent) (s : State) :
    (drive es s).busy = s.busy := by cases s; rfl

@[simp] theorem drive_seq (es : List PinEvent) (s : State) :
    (drive es s).seq = s.seq := by cases s; rfl

@[simp] theorem drive_le (es : List PinEvent) (s : State) :
    (drive es s).le = lastLevel .le es s.le := by cases s; rfl

@[simp] theorem drive_clk (es : List PinEvent) (s : State) :
    (drive es s).clk = lastLevel .clk es s.clk := by cases s; rfl

@[simp] theorem drive_dataOut (es : List PinEvent) (s : State) :
    (drive es s).dataOut = lastLevel .dataOut es s.dataOut := by cases s; rfl

@[simp] theorem drive_response (es : List PinEvent) (s : State) :
    (drive es s).response = s.response := by cases s; rfl

@[simp] theorem drive_chip (es : List PinEvent) (s : State) :
    (drive es s).chip = s.chip := by cases s; rfl

@[simp] theorem drive_chipRb (es : List PinEvent) (s : State) :
    (drive es s).chipRb = s.chipRb := by cases s; rfl

@[simp] theorem drive_pinTrace (es : List PinEvent) (s : State) :
    (drive es s).pinTrace = s.pinTrace ++ es := by cases s; rfl

@[simp] theorem drive_errorSeen (es : List PinEvent) (s : State) :
    (drive es s).errorSeen = s.errorSeen := by cases s; rfl

@[simp] theorem drive_dataIn (es : List PinEvent) (s : State) :
    (drive es s).dataIn = s.dataIn := by cases s; rfl

@[simp] theorem drive_ldIn (es : List PinEvent) (s : State) :
    (drive es s).ldIn = s.ldIn := by cases s; rfl

@[simp] theorem drive_offers (es : List PinEvent) (s : State) :
    (drive es s).offers = s.offers := by cases s; rfl

@[simp] theorem wait_regs (us : Nat) (s : State) :
    (wait us s).regs = s.regs := by cases s; rfl

@[simp] theorem wait_fRef (us : Nat) (s : State) :
    (wait us s).fRef = s.fRef := by cases s; rfl

@[simp] theorem wait_rdivS (us : Nat) (s : State) :
    (wait us s).rdivS = s.rdivS := by cases s; rfl

@[simp] theorem wait_fPfd (us : Nat) (s : State) :
    (wait us s).fPfd = s.fPfd := by cases s; rfl

@[simp] theorem wait_fTarget (us : Nat) (s : State) :
    (wait us s).fTarget = s.fTarget := by cases s; rfl

@[simp] theorem wait_status (us : Nat) (s : State) :
    (wait us s).status = s.status := by cases s; rfl

@[simp] theorem wait_busy (us : Nat) (s : State) :
    (wait us s).busy = s.busy := by cases s; rfl

@[simp] theorem wait_seq (us : Nat) (s : State) :
    (wait us s).seq = s.seq := by cases s; rfl

@[simp] theorem wait_le (us : Nat) (s : State) :
    (wait us s).le = s.le := by cases s; rfl

@[simp] theorem wait_clk (us : Nat) (s : State) :
    (wait us s).clk = s.clk := by cases s; rfl

@[simp] theorem wait_dataOut (us : Nat) (s : State) :
    (wait us s).dataOut = s.dataOut := by cases s; rfl

@[simp] theorem wait_response (us : Nat) (s : State) :
    (wait us s).response = s.response := by cases s; rfl

@[simp] theorem wait_chip (us : Nat) (s : State) :
    (wait us s).chip = s.chip := by cases s; rfl

@[simp] theorem wait_chipRb (us : Nat) (s : State) :
    (wait us s).chipRb = s.chipRb := by cases s; rfl

@[simp] theorem wait_pinTrace (us : Nat) (s : State) :
    (wait us s).pinTrace = s.pinTrace ++ [.wait us] := by cases s; rfl

@[simp] theorem wait_errorSeen (us : Nat) (s : State) :
    (wait us s).errorSeen = s.errorSeen := by cases s; rfl

@[simp] theorem wait_dataIn (us : Nat) (s : State) :
    (wait us s).dataIn = s.dataIn := by cases s; rfl

@[simp] theorem wait_ldIn (us : Nat) (s : State) :
    (wait us s).ldIn = s.ldIn := by cases s; rfl

@[simp] theorem wait_offers (us : Nat) (s : State) :
    (wait us s).offers = s.offers := by cases s; rfl

@[simp] theorem readDataIn_level (s : State) :
    (readDataIn s).1 = nextLevel Config.dataInLevel s.dataIn := by cases s; rfl

@[simp] theorem readDataIn_regs (s : State) :
    ((readDataIn s).2).regs = s.regs := by cases s; rfl

@[simp] theorem readDataIn_fRef (s : State) :
    ((readDataIn s).2).fRef = s.fRef := by cases s; rfl

@[simp] theorem readDataIn_rdivS (s : State) :
    ((readDataIn s).2).rdivS = s.rdivS := by cases s; rfl

@[simp] theorem readDataIn_fPfd (s : State) :
    ((readDataIn s).2).fPfd = s.fPfd := by cases s; rfl

@[simp] theorem readDataIn_fTarget (s : State) :
    ((readDataIn s).2).fTarget = s.fTarget := by cases s; rfl

@[simp] theorem readDataIn_status (s : State) :
    ((readDataIn s).2).status = s.status := by cases s; rfl

@[simp] theorem readDataIn_busy (s : State) :
    ((readDataIn s).2).busy = s.busy := by cases s; rfl

@[simp] theorem readDataIn_seq (s : State) :
    ((readDataIn s).2).seq = s.seq := by cases s; rfl

@[simp] theorem readDataIn_le (s : State) :
    ((readDataIn s).2).le = s.le := by cases s; rfl

@[simp] theorem readDataIn_clk (s : State) :
    ((readDataIn s).2).clk = s.clk := by cases s; rfl

@[simp] theorem readDataIn_dataOut (s : State) :
    ((readDataIn s).2).dataOut = s.dataOut := by cases s; rfl

@[simp] theorem readDataIn_response (s : State) :
    ((readDataIn s).2).response = s.response := by cases s; rfl

@[simp] theorem readDataIn_chip (s : State) :
    ((readDataIn s).2).chip = s.chip := by cases s; rfl

@[simp] theorem readDataIn_chipRb (s : State) :
    ((readDataIn s).2).chipRb = s.chipRb := by cases s; rfl

@[simp] theorem readDataIn_pinTrace (s : State) :
    ((readDataIn s).2).pinTrace = s.pinTrace ++ [.read .dataIn (nextLevel Config.dataInLevel s.dataIn)] := by cases s; rfl

@[simp] theorem readDataIn_errorSeen (s : State) :
    ((readDataIn s).2).errorSeen = s.errorSeen := by cases s; rfl

@[simp] theorem readDataIn_dataIn (s : State) :
    ((readDataIn s).2).dataIn = afterSample s.dataIn := by cases s; rfl

@[simp] theorem readDataIn_ldIn (s : State) :
    ((readDataIn s).2).ldIn = s.ldIn := by cases s; rfl

@[simp] theorem readDataIn_offers (s : State) :
    ((readDataIn s).2).offers = s.offers := by cases s; rfl

@[simp] theorem readLdIn_level (s : State) :
    (readLdIn s).1 = nextLevel Config.ldInLevel s.ldIn := by cases s; rfl

@[simp] theorem readLdIn_regs (s : State) :
    ((readLdIn s).2).regs = s.regs := by cases s; rfl

@[simp] theorem readLdIn_fRef (s : State) :
    ((readLdIn s).2).fRef = s.fRef := by cases s; rfl

@[simp] theorem readLdIn_rdivS (s : State) :
    ((readLdIn s).2).rdivS = s.rdivS := by cases s; rfl

@[simp] theorem readLdIn_fPfd (s : State) :
    ((readLdIn s).2).fPfd = s.fPfd := by cases s; rfl

@[simp] theorem readLdIn_fTarget (s : State) :
    ((readLdIn s).2).fTarget = s.fTarget := by cases s; rfl

@[simp] theorem readLdIn_status (s : State) :
    ((readLdIn s).2).status = s.status := by cases s; rfl

@[simp] theorem readLdIn_busy (s : State) :
    ((readLdIn s).2).busy = s.busy := by cases s; rfl

@[simp] theorem readLdIn_seq (s : State) :
    ((readLdIn s).2).seq = s.seq := by cases s; rfl

@[simp] theorem readLdIn_le (s : State) :
    ((readLdIn s).2).le = s.le := by cases s; rfl

@[simp] theorem readLdIn_clk (s : State) :
    ((readLdIn s).2).clk = s.clk := by cases s; rfl

@[simp] theorem readLdIn_dataOut (s : State) :
    ((readLdIn s).2).dataOut = s.dataOut := by cases s; rfl

@[simp] theorem readLdIn_response (s : State) :
    ((readLdIn s).2).response = s.response := by cases s; rfl

@[simp] theorem readLdIn_chip (s : State) :
    ((readLdIn s).2).chip = s.chip := by cases s; rfl

@[simp] theorem readLdIn_chipRb (s : State) :
    ((readLdIn s).2).chipRb = s.chipRb := by cases s; rfl

@[simp] theorem readLdIn_pinTrace (s : State) :
    ((readLdIn s).2).pinTrace = s.pinTrace ++ [.read .ldIn (nextLevel Config.ldInLevel s.ldIn)] := by cases s; rfl

@[simp] theorem readLdIn_errorSeen (s : State) :
    ((readLdIn s).2).errorSeen = s.errorSeen := by cases s; rfl

@[simp] theorem readLdIn_dataIn (s : State) :
    ((readLdIn s).2).dataIn = s.dataIn := by cases s; rfl

@[simp] theorem readLdIn_ldIn (s : State) :
    ((readLdIn s).2).ldIn = afterSample s.ldIn := by cases s; rfl

@[simp] theorem readLdIn_offers (s : State) :
    ((readLdIn s).2).offers = s.offers := by cases s; rfl

/-! ### The ghost chip and the serial link -/

@[simp] theorem memWrite_regs (v : Word) (s : State) :
    (memWrite v s).regs = s.regs := by
  unfold memWrite; split <;> [rfl; (split <;> rfl)]

@[simp] theorem memWrite_fRef (v : Word) (s : State) :
    (memWrite v s).fRef = s.fRef := by
  unfold memWrite; split <;> [rfl; (split <;> rfl)]

@[simp] theorem memWrite_rdivS (v : Word) (s : State) :
    (memWrite v s).rdivS = s.rdivS := by
  unfold memWrite; split <;> [rfl; (split <;> rfl)]

@[simp] theorem memWrite_fPfd (v : Word) (s : State) :
    (memWrite v s).fPfd = s.fPfd := by
  unfold memWrite; split <;> [rfl; (split <;> rfl)]

@[simp] theorem memWrite_fTarget (v : Word) (s : State) :
    (memWrite v s).fTarget = s.fTarget := by
  unfold memWrite; split <;> [rfl; (split <;> rfl)]

@[simp] theorem memWrite_status (v : Word) (s : State) :
    (memWrite v s).status = s.status := by
  unfold memWrite; split <;> [rfl; (split <;> rfl)]

@[simp] theorem memWrite_busy (v : Word) (s : State) :
    (memWrite v s).busy = s.busy := by
  unfold memWrite; split <;> [rfl; (split <;> rfl)]

@[simp] theorem memWrite_seq (v : Word) (s : State) :
    (memWrite v s).seq = s.seq := by
  unfold memWrite; split <;> [rfl; (split <;> rfl)]

@[simp] theorem memWrite_le (v : Word) (s : State) :
    (memWrite v s).le = s.le := by
  unfold memWrite; split <;> [rfl; (split <;> rfl)]

@[simp] theorem memWrite_clk (v : Word) (s : State) :
    (memWrite v s).clk = s.clk := by
  unfold memWrite; split <;> [rfl; (split <;> rfl)]

@[simp] theorem memWrite_dataOut (v : Word) (s : State) :
    (memWrite v s).dataOut = s.dataOut := by
  unfold memWrite; split <;> [rfl; (split <;> rfl)]

@[simp] theorem memWrite_response (v : Word) (s : State) :
    (memWrite v s).response = s.response := by
  unfold memWrite; split <;> [rfl; (split <;> rfl)]

@[simp] theorem memWrite_pinTrace (v : Word) (s : State) :
    (memWrite v s).pinTrace = s.pinTrace := by
  unfold memWrite; split <;> [rfl; (split <;> rfl)]

@[simp] theorem memWrite_errorSeen (v : Word) (s : State) :
    (memWrite v s).errorSeen = s.errorSeen := by
  unfold memWrite; split <;> [rfl; (split <;> rfl)]

@[simp] theorem memWrite_dataIn (v : Word) (s : State) :
    (memWrite v s).dataIn = s.dataIn := by
  unfold memWrite; split <;> [rfl; (split <;> rfl)]

@[simp] theorem memWrite_ldIn (v : Word) (s : State) :
    (memWrite v s).ldIn = s.ldIn := by
  unfold memWrite; split <;> [rfl; (split <;> rfl)]

@[simp] theorem memWrite_offers (v : Word) (s : State) :
    (memWrite v s).offers = s.offers := by
  unfold memWrite; split <;> [rfl; (split <;> rfl)]

@[simp] theorem sendFrame_regs (p : Params) (v : Word) (s : State) :
    (sendFrame p v s).regs = s.regs := by
  simp [sendFrame]

@[simp] theorem sendFrame_fRef (p : Params) (v : Word) (s : State) :
    (sendFrame p v s).fRef = s.fRef := by
  simp [sendFrame]

@[simp] theorem sendFrame_rdivS (p : Params) (v : Word) (s : State) :
    (sendFrame p v s).rdivS = s.rdivS := by
  simp [sendFrame]

@[simp] theorem sendFrame_fPfd (p : Params) (v : Word) (s : State) :
    (sendFrame p v s).fPfd = s.fPfd := by
  simp [sendFrame]

@[simp] theorem sendFrame_fTarget (p : Params) (v : Word) (s : State) :
    (sendFrame p v s).fTarget = s.fTarget := by
  simp [sendFrame]

@[simp] theorem sendFrame_status (p : Params) (v : Word) (s : State) :
    (sendFrame p v s).status = s.status := by
  simp [sendFrame]

@[simp] theorem sendFrame_busy (p : Params) (v : Word) (s : State) :
    (sendFrame p v s).busy = s.busy := by
  simp [sendFrame]

@[simp] theorem sendFrame_seq (p : Params) (v : Word) (s : State) :
    (sendFrame p v s).seq = s.seq := by
  simp [sendFrame]

@[simp] theorem sendFrame_response (p : Params) (v : Word) (s : State) :
    (sendFrame p v s).response = s.response := by
  simp [sendFrame]

@[simp] theorem sendFrame_errorSeen (p : Params) (v : Word) (s : State) :
    (sendFrame p v s).errorSeen = s.errorSeen := by
  simp [sendFrame]

@[simp] theorem sendFrame_dataIn (p : Params) (v : Word) (s : State) :
    (sendFrame p v s).dataIn = s.dataIn := by
  simp [sendFrame]

@[simp] theorem sendFrame_ldIn (p : Params) (v : Word) (s : State) :
    (sendFrame p v s).ldIn = s.ldIn := by
  simp [sendFrame]

@[simp] theorem sendFrame_offers (p : Params) (v : Word) (s : State) :
    (sendFrame p v s).offers = s.offers := by
  simp [sendFrame]

@[simp] theorem sendReg_regs (p : Params) (i : RegIndex) (s : State) :
    (sendReg p i s).regs = s.regs := by
  simp [sendReg]

@[simp] theorem sendReg_fRef (p : Params) (i : RegIndex) (s : State) :
    (sendReg p i s).fRef = s.fRef := by
  simp [sendReg]

@[simp] theorem sendReg_rdivS (p : Params) (i : RegIndex) (s : State) :
    (sendReg p i s).rdivS = s.rdivS := by
  simp [sendReg]

@[simp] theorem sendReg_fPfd (p : Params) (i : RegIndex) (s : State) :
    (sendReg p i s).fPfd = s.fPfd := by
  simp [sendReg]

@[simp] theorem sendReg_fTarget (p : Params) (i : RegIndex) (s : State) :
    (sendReg p i s).fTarget = s.fTarget := by
  simp [sendReg]

@[simp] theorem sendReg_status (p : Params) (i : RegIndex) (s : State) :
    (sendReg p i s).status = s.status := by
  simp [sendReg]

@[simp] theorem sendReg_busy (p : Params) (i : RegIndex) (s : State) :
    (sendReg p i s).busy = s.busy := by
  simp [sendReg]

@[simp] theorem sendReg_seq (p : Params) (i : RegIndex) (s : State) :
    (sendReg p i s).seq = s.seq := by
  simp [sendReg]

@[simp] theorem sendReg_response (p : Params) (i : RegIndex) (s : State) :
    (sendReg p i s).response = s.response := by
  simp [sendReg]

@[simp] theorem sendReg_errorSeen (p : Params) (i : RegIndex) (s : State) :
    (sendReg p i s).errorSeen = s.errorSeen := by
  simp [sendReg]

@[simp] theorem sendReg_dataIn (p : Params) (i : RegIndex) (s : State) :
    (sendReg p i s).dataIn = s.dataIn := by
  simp [sendReg]

@[simp] theorem sendReg_ldIn (p : Params) (i : RegIndex) (s : State) :
    (sendReg p i s).ldIn = s.ldIn := by
  simp [sendReg]

@[simp] theorem sendReg_offers (p : Params) (i : RegIndex) (s : State) :
    (sendReg p i s).offers = s.offers := by
  simp [sendReg]

@[simp] theorem writeAll_regs (p : Params) (s : State) :
    (writeAll p s).regs = s.regs := by
  simp [writeAll]

@[simp] theorem writeAll_fRef (p : Params) (s : State) :
    (writeAll p s).fRef = s.fRef := by
  simp [writeAll]

@[simp] theorem writeAll_rdivS (p : Params) (s : State) :
    (writeAll p s).rdivS = s.rdivS := by
  simp [writeAll]

@[simp] theorem writeAll_fPfd (p : Params) (s : State) :
    (writeAll p s).fPfd = s.fPfd := by
  simp [writeAll]

@[simp] theorem writeAll_fTarget (p : Params) (s : State) :
    (writeAll p s).fTarget = s.fTarget := by
  simp [writeAll]

@[simp] theorem writeAll_status (p : Params) (s : State) :
    (writeAll p s).status = s.status := by
  simp [writeAll]

@[simp] theorem writeAll_busy (p : Params) (s : State) :
    (writeAll p s).busy = s.busy := by
  simp [writeAll]

@[simp] theorem writeAll_seq (p : Params) (s : State) :
    (writeAll p s).seq = s.seq := by
  simp [writeAll]

@[simp] theorem writeAll_response (p : Params) (s : State) :
    (writeAll p s).response = s.response := by
  simp [writeAll]

@[simp] theorem writeAll_errorSeen (p : Params) (s : State) :
    (writeAll p s).errorSeen = s.errorSeen := by
  simp [writeAll]

@[simp] theorem writeAll_dataIn (p : Params) (s : State) :
    (writeAll p s).dataIn = s.dataIn := by
  simp [writeAll]

@[simp] theorem writeAll_ldIn (p : Params) (s : State) :
    (writeAll p s).ldIn = s.ldIn := by
  simp [writeAll]

@[simp] theorem writeAll_offers (p : Params) (s : State) :
    (writeAll p s).offers = s.offers := by
  simp [writeAll]

@[simp] theorem xferBits_regs (p : Params) (o : BitVec 8) (n : Nat) (r : BitVec 8) (s : State) :
    ((xferBits p o n r s).2).regs = s.regs := by
  induction n generalizing r s with
  | zero => rfl
  | succ n ih => exact ih _ _

@[simp] theorem xferBits_fRef (p : Params) (o : BitVec 8) (n : Nat) (r : BitVec 8) (s : State) :
    ((xferBits p o n r s).2).fRef = s.fRef := by
  induction n generalizing r s with
  | zero => rfl
  | succ n ih => exact ih _ _

@[simp] theorem xferBits_rdivS (p : Params) (o : BitVec 8) (n : Nat) (r : BitVec 8) (s : State) :
    ((xferBits p o n r s).2).rdivS = s.rdivS := by
  induction n generalizing r s with
  | zero => rfl
  | succ n ih => exact ih _ _

@[simp] theorem xferBits_fPfd (p : Params) (o : BitVec 8) (n : Nat) (r : BitVec 8) (s : State) :
    ((xferBits p o n r s).2).fPfd = s.fPfd := by
  induction n generalizing r s with
  | zero => rfl
  | succ n ih => exact ih _ _

@[simp] theorem xferBits_fTarget (p : Params) (o : BitVec 8) (n : Nat) (r : BitVec 8) (s : State) :
    ((xferBits p o n r s).2).fTarget = s.fTarget := by
  induction n generalizing r s with
  | zero => rfl
  | succ n ih => exact ih _ _

@[simp] theorem xferBits_status (p : Params) (o : BitVec 8) (n : Nat) (r : BitVec 8) (s : State) :
    ((xferBits p o n r s).2).status = s.status := by
  induction n generalizing r s with
  | zero => rfl
  | succ n ih => exact ih _ _

@[simp] theorem xferBits_busy (p : Params) (o : BitVec 8) (n : Nat) (r : BitVec 8) (s : State) :
    ((xferBits p o n r s).2).busy = s.busy := by
  induction n generalizing r s with
  | zero => rfl
  | succ n ih => exact ih _ _

@[simp] theorem xferBits_seq (p : Params) (o : BitVec 8) (n : Nat) (r : BitVec 8) (s : State) :
    ((xferBits p o n r s).2).seq = s.seq := by
  induction n generalizing r s with
  | zero => rfl
  | succ n ih => exact ih _ _

@[simp] theorem xferBits_response (p : Params) (o : BitVec 8) (n : Nat) (r : BitVec 8) (s : State) :
    ((xferBits p o n r s).2).response = s.response := by
  induction n generalizing r s with
  | zero => rfl
  | succ n ih => exact ih _ _

@[simp] theorem xferBits_chip (p : Params) (o : BitVec 8) (n : Nat) (r : BitVec 8) (s : State) :
    ((xferBits p o n r s).2).chip = s.chip := by
  induction n generalizing r s with
  | zero => rfl
  | succ n ih => exact ih _ _

@[simp] theorem xferBits_chipRb (p : Params) (o : BitVec 8) (n : Nat) (r : BitVec 8) (s : State) :
    ((xferBits p o n r s).2).chipRb = s.chipRb := by
  induction n generalizing r s with
  | zero => rfl
  | succ n ih => exact ih _ _

@[simp] theorem xferBits_errorSeen (p : Params) (o : BitVec 8) (n : Nat) (r : BitVec 8) (s : State) :
    ((xferBits p o n r s).2).errorSeen = s.errorSeen := by
  induction n generalizing r s with
  | zero => rfl
  | succ n ih => exact ih _ _

@[simp] theorem xferBits_ldIn (p : Params) (o : BitVec 8) (n : Nat) (r : BitVec 8) (s : State) :
    ((xferBits p o n r s).2).ldIn = s.ldIn := by
  induction n generalizing r s with
  | zero => rfl
  | succ n ih => exact ih _ _

@[simp] theorem xferBits_offers (p : Params) (o : BitVec 8) (n : Nat) (r : BitVec 8) (s : State) :
    ((xferBits p o n r s).2).offers = s.offers := by
  induction n generalizing r s with
  | zero => rfl
  | succ n ih => exact ih _ _

@[simp] theorem xferByte_regs (p : Params) (o : BitVec 8) (s : State) :
    ((xferByte p o s).2).regs = s.regs := by
  simp [xferByte]

@[simp] theorem xferByte_fRef (p : Params) (o : BitVec 8) (s : State) :
    ((xferByte p o s).2).fRef = s.fRef := by
  simp [xferByte]

@[simp] theorem xferByte_rdivS (p : Params) (o : BitVec 8) (s : State) :
    ((xferByte p o s).2).rdivS = s.rdivS := by
  simp [xferByte]

@[simp] theorem xferByte_fPfd (p : Params) (o : BitVec 8) (s : State) :
    ((xferByte p o s).2).fPfd = s.fPfd := by
  simp [xferByte]

@[simp] theorem xferByte_fTarget (p : Params) (o : BitVec 8) (s : State) :
    ((xferByte p o s).2).fTarget = s.fTarget := by
  simp [xferByte]

@[simp] theorem xferByte_status (p : Params) (o : BitVec 8) (s : State) :
    ((xferByte p o s).2).status = s.status := by
  simp [xferByte]

@[simp] theorem xferByte_busy (p : Params) (o : BitVec 8) (s : State) :
    ((xferByte p o s).2).busy = s.busy := by
  simp [xferByte]

@[simp] theorem xferByte_seq (p : Params) (o : BitVec 8) (s : State) :
    ((xferByte p o s).2).seq = s.seq := by
  simp [xferByte]

@[simp] theorem xferByte_response (p : Params) (o : BitVec 8) (s : State) :
    ((xferByte p o s).2).response = s.response := by
  simp [xferByte]

@[simp] theorem xferByte_chip (p : Params) (o : BitVec 8) (s : State) :
    ((xferByte p o s).2).chip = s.chip := by
  simp [xferByte]

@[simp] theorem xferByte_chipRb (p : Params) (o : BitVec 8) (s : State) :
    ((xferByte p o s).2).chipRb = s.chipRb := by
  simp [xferByte]

@[simp] theorem xferByte_errorSeen (p : Params) (o : BitVec 8) (s : State) :
    ((xferByte p o s).2).errorSeen = s.errorSeen := by
  simp [xferByte]

@[simp] theorem xferByte_ldIn (p : Params) (o : BitVec 8) (s : State) :
    ((xferByte p o s).2).ldIn = s.ldIn := by
  simp [xferByte]

@[simp] theorem xferByte_offers (p : Params) (o : BitVec 8) (s : State) :
    ((xferByte p o s).2).offers = s.offers := by
  simp [xferByte]

@[simp] theorem trailingBytes_regs (p : Params) (s : State) :
    (trailingBytes p s).regs = s.regs := by
  simp [trailingBytes]

@[simp] theorem trailingBytes_fRef (p : Params) (s : State) :
    (trailingBytes p s).fRef = s.fRef := by
  simp [trailingBytes]

@[simp] theorem trailingBytes_rdivS (p : Params) (s : State) :
    (trailingBytes p s).rdivS = s.rdivS := by
  simp [trailingBytes]

@[simp] theorem trailingBytes_fPfd (p : Params) (s : State) :
    (trailingBytes p s).fPfd = s.fPfd := by
  simp [trailingBytes]

@[simp] theorem trailingBytes_fTarget (p : Params) (s : State) :
    (trailingBytes p s).fTarget = s.fTarget := by
  simp [trailingBytes]

@[simp] theorem trailingBytes_status (p : Params) (s : State) :
    (trailingBytes p s).status = s.status := by
  simp [trailingBytes]

@[simp] theorem trailingBytes_busy (p : Params) (s : State) :
    (trailingBytes p s).busy = s.busy := by
  simp [trailingBytes]

@[simp] theorem trailingBytes_seq (p : Params) (s : State) :
    (trailingBytes p s).seq = s.seq := by
  simp [trailingBytes]

@[simp] theorem trailingBytes_response (p : Params) (s : State) :
    (trailingBytes p s).response = s.response := by
  simp [trailingBytes]

@[simp] theorem trailingBytes_chip (p : Params) (s : State) :
    (trailingBytes p s).chip = s.chip := by
  simp [trailingBytes]

@[simp] theorem trailingBytes_chipRb (p : Params) (s : State) :
    (trailingBytes p s).chipRb = s.chipRb := by
  simp [trailingBytes]

@[simp] theorem trailingBytes_errorSeen (p : Params) (s : State) :
    (trailingBytes p s).errorSeen = s.errorSeen := by
  simp [trailingBytes]

@[simp] theorem trailingBytes_dataIn (p : Params) (s : State) :
    (trailingBytes p s).dataIn = s.dataIn := by
  simp [trailingBytes]

@[simp] theorem trailingBytes_ldIn (p : Params) (s : State) :
    (trailingBytes p s).ldIn = s.ldIn := by
  simp [trailingBytes]

@[simp] theorem trailingBytes_offers (p : Params) (s : State) :
    (trailingBytes p s).offers = s.offers := by
  simp [trailingBytes]

@[simp] theorem shiftIn_regs (p : Params) (s : State) :
    ((shiftIn p s).2).regs = s.regs := by
  simp [shiftIn]

@[simp] theorem shiftIn_fRef (p : Params) (s : State) :
    ((shiftIn p s).2).fRef = s.fRef := by
  simp [shiftIn]

@[simp] theorem shiftIn_rdivS (p : Params) (s : State) :
    ((shiftIn p s).2).rdivS = s.rdivS := by
  simp [shiftIn]

@[simp] theorem shiftIn_fPfd (p : Params) (s : State) :
    ((shiftIn p s).2).fPfd = s.fPfd := by
  simp [shiftIn]

@[simp] theorem shiftIn_fTarget (p : Params) (s : State) :
    ((shiftIn p s).2).fTarget = s.fTarget := by
  simp [shiftIn]

@[simp] theorem shiftIn_status (p : Params) (s : State) :
    ((shiftIn p s).2).status = s.status := by
  simp [shiftIn]

@[simp] theorem shiftIn_busy (p : Params) (s : State) :
    ((shiftIn p s).2).busy = s.busy := by
  simp [shiftIn]

@[simp] theorem shiftIn_seq (p : Params) (s : State) :
    ((shiftIn p s).2).seq = s.seq := by
  simp [shiftIn]

@[simp] theorem shiftIn_response (p : Params) (s : State) :
    ((shiftIn p s).2).response = s.response := by
  simp [shiftIn]

@[simp] theorem shiftIn_chip (p : Params) (s : State) :
    ((shiftIn p s).2).chip = s.chip := by
  simp [shiftIn]

@[simp] theorem shiftIn_chipRb (p : Params) (s : State) :
    ((shiftIn p s).2).chipRb = s.chipRb := by
  simp [shiftIn]

@[simp] theorem shiftIn_errorSeen (p : Params) (s : State) :
    ((shiftIn p s).2).errorSeen = s.errorSeen := by
  simp [shiftIn]

@[simp] theorem shiftIn_ldIn (p : Params) (s : State) :
    ((shiftIn p s).2).ldIn = s.ldIn := by
  simp [shiftIn]

@[simp] theorem shiftIn_offers (p : Params) (s : State) :
    ((shiftIn p s).2).offers = s.offers := by
  simp [shiftIn]

@[simp] theorem requestReadback_fRef (p : Params) (s : State) :
    (requestReadback p s).fRef = s.fRef := by
  simp [requestReadback]

@[simp] theorem requestReadback_rdivS (p : Params) (s : State) :
    (requestReadback p s).rdivS = s.rdivS := by
  simp [requestReadback]

@[simp] theorem requestReadback_fPfd (p : Params) (s : State) :
    (requestReadback p s).fPfd = s.fPfd := by
  simp [requestReadback]

@[simp] theorem requestReadback_fTarget (p : Params) (s : State) :
    (requestReadback p s).fTarget = s.fTarget := by
  simp [requestReadback]

@[simp] theorem requestReadback_status (p : Params) (s : State) :
    (requestReadback p s).status = s.status := by
  simp [requestReadback]

@[simp] theorem requestReadback_busy (p : Params) (s : State) :
    (requestReadback p s).busy = s.busy := by
  simp [requestReadback]

@[simp] theorem requestReadback_seq (p : Params) (s : State) :
    (requestReadback p s).seq = s.seq := by
  simp [requestReadback]

@[simp] theorem requestReadback_response (p : Params) (s : State) :
    (requestReadback p s).response = s.response := by
  simp [requestReadback]

@[simp] theorem requestReadback_errorSeen (p : Params) (s : State) :
    (requestReadback p s).errorSeen = s.errorSeen := by
  simp [requestReadback]

@[simp] theorem requestReadback_dataIn (p : Params) (s : State) :
    (requestReadback p s).dataIn = s.dataIn := by
  simp [requestReadback]

@[simp] theorem requestReadback_ldIn (p : Params) (s : State) :
    (requestReadback p s).ldIn = s.ldIn := by
  simp [requestReadback]

@[simp] theorem requestReadback_offers (p : Params) (s : State) :
    (requestReadback p s).offers = s.offers := by
  simp [requestReadback]

@[simp] theorem endRouting_fRef (p : Params) (hi lo : Nat) (s : State) :
    (endRouting p hi lo s).fRef = s.fRef := by
  unfold endRouting; split <;> simp

@[simp] theorem endRouting_rdivS (p : Params) (hi lo : Nat) (s : State) :
    (endRouting p hi lo s).rdivS = s.rdivS := by
  unfold endRouting; split <;> simp

@[simp] theorem endRouting_fPfd (p : Params) (hi lo : Nat) (s : State) :
    (endRouting p hi lo s).fPfd = s.fPfd := by
  unfold endRouting; split <;> simp

@[simp] theorem endRouting_fTarget (p : Params) (hi lo : Nat) (s : State) :
    (endRouting p hi lo s).fTarget = s.fTarget := by
  unfold endRouting; split <;> simp

@[simp] theorem endRouting_status (p : Params) (hi lo : Nat) (s : State) :
    (endRouting p hi lo s).status = s.status := by
  unfold endRouting; split <;> simp

@[simp] theorem endRouting_busy (p : Params) (hi lo : Nat) (s : State) :
    (endRouting p hi lo s).busy = s.busy := by
  unfold endRouting; split <;> simp

@[simp] theorem endRouting_seq (p : Params) (hi lo : Nat) (s : State) :
    (endRouting p hi lo s).seq = s.seq := by
  unfold endRouting; split <;> simp

@[simp] theorem endRouting_response (p : Params) (hi lo : Nat) (s : State) :
    (endRouting p hi lo s).response = s.response := by
  unfold endRouting; split <;> simp

@[simp] theorem endRouting_errorSeen (p : Params) (hi lo : Nat) (s : State) :
    (endRouting p hi lo s).errorSeen = s.errorSeen := by
  unfold endRouting; split <;> simp

@[simp] theorem endRouting_dataIn (p : Params) (hi lo : Nat) (s : State) :
    (endRouting p hi lo s).dataIn = s.dataIn := by
  unfold endRouting; split <;> simp

@[simp] theorem endRouting_ldIn (p : Params) (hi lo : Nat) (s : State) :
    (endRouting p hi lo s).ldIn = s.ldIn := by
  unfold endRouting; split <;> simp

@[simp] theorem endRouting_offers (p : Params) (hi lo : Nat) (s : State) :
    (endRouting p hi lo s).offers = s.offers := by
  unfold endRouting; split <;> simp

@[simp] theorem readReg6_fRef (p : Params) (s : State) :
    ((readReg6 p s).2).fRef = s.fRef := by
  simp [readReg6]

@[simp] theorem readReg6_rdivS (p : Params) (s : State) :
    ((readReg6 p s).2).rdivS = s.rdivS := by
  simp [readReg6]

@[simp] theorem readReg6_fPfd (p : Params) (s : State) :
    ((readReg6 p s).2).fPfd = s.fPfd := by
  simp [readReg6]

@[simp] theorem readReg6_fTarget (p : Params) (s : State) :
    ((readReg6 p s).2).fTarget = s.fTarget := by
  simp [readReg6]

@[simp] theorem readReg6_status (p : Params) (s : State) :
    ((readReg6 p s).2).status = s.status := by
  simp [readReg6]

@[simp] theorem readReg6_busy (p : Params) (s : State) :
    ((readReg6 p s).2).busy = s.busy := by
  simp [readReg6]

@[simp] theorem readReg6_seq (p : Params) (s : State) :
    ((readReg6 p s).2).seq = s.seq := by
  simp [readReg6]

@[simp] theorem readReg6_response (p : Params) (s : State) :
    ((readReg6 p s).2).response = s.response := by
  simp [readReg6]

@[simp] theorem readReg6_errorSeen (p : Params) (s : State) :
    ((readReg6 p s).2).errorSeen = s.errorSeen := by
  simp [readReg6]

@[simp] theorem readReg6_ldIn (p : Params) (s : State) :
    ((readReg6 p s).2).ldIn = s.ldIn := by
  simp [readReg6]

@[simp] theorem readReg6_offers (p : Params) (s : State) :
    ((readReg6 p s).2).offers = s.offers := by
  simp [readReg6]

/-! ### Commands -/

@[simp] theorem accept_regs (op : BitVec 8) (s : State) :
    (accept op s).regs = s.regs := by cases s; rfl

@[simp] theorem accept_fRef (op : BitVec 8) (s : State) :
    (accept op s).fRef = s.fRef := by cases s; rfl

@[simp] theorem accept_rdivS (op : BitVec 8) (s : State) :
    (accept op s).rdivS = s.rdivS := by cases s; rfl

@[simp] theorem accept_fPfd (op : BitVec 8) (s : State) :
    (accept op s).fPfd = s.fPfd := by cases s; rfl

@[simp] theorem accept_fTarget (op : BitVec 8) (s : State) :
    (accept op s).fTarget = s.fTarget := by cases s; rfl

@[simp] theorem accept_status (op : BitVec 8) (s : State) :
    (accept op s).status = s.status := by cases s; rfl

@[simp] theorem accept_le (op : BitVec 8) (s : State) :
    (accept op s).le = s.le := by cases s; rfl

@[simp] theorem accept_clk (op : BitVec 8) (s : State) :
    (accept op s).clk = s.clk := by cases s; rfl

@[simp] theorem accept_dataOut (op : BitVec 8) (s : State) :
    (accept op s).dataOut = s.dataOut := by cases s; rfl

@[simp] theorem accept_response (op : BitVec 8) (s : State) :
    (accept op s).response = s.response := by cases s; rfl

@[simp] theorem accept_chip (op : BitVec 8) (s : State) :
    (accept op s).chip = s.chip := by cases s; rfl

@[simp] theorem accept_chipRb (op : BitVec 8) (s : State) :
    (accept op s).chipRb = s.chipRb := by cases s; rfl

@[simp] theorem accept_pinTrace (op : BitVec 8) (s : State) :
    (accept op s).pinTrace = s.pinTrace := by cases s; rfl

@[simp] theorem accept_errorSeen (op : BitVec 8) (s : State) :
    (accept op s).errorSeen = s.errorSeen := by cases s; rfl

@[simp] theorem accept_dataIn (op : BitVec 8) (s : State) :
    (accept op s).dataIn = s.dataIn := by cases s; rfl

@[simp] theorem accept_ldIn (op : BitVec 8) (s : State) :
    (accept op s).ldIn = s.ldIn := by cases s; rfl

@[simp] theorem accept_offers (op : BitVec 8) (s : State) :
    (accept op s).offers = s.offers := by cases s; rfl

@[simp] theorem respond_regs (c : Code) (d : ResultData) (s : State) :
    (respond c d s).regs = s.regs := by cases s; rfl

@[simp] theorem respond_fRef (c : Code) (d : ResultData) (s : State) :
    (respond c d s).fRef = s.fRef := by cases s; rfl

@[simp] theorem respond_rdivS (c : Code) (d : ResultData) (s : State) :
    (respond c d s).rdivS = s.rdivS := by cases s; rfl

@[simp] theorem respond_fPfd (c : Code) (d : ResultData) (s : State) :
    (respond c d s).fPfd = s.fPfd := by cases s; rfl

@[simp] theorem respond_fTarget (c : Code) (d : ResultData) (s : State) :
    (respond c d s).fTarget = s.fTarget := by cases s; rfl

@[simp] theorem respond_status (c : Code) (d : ResultData) (s : State) :
    (respond c d s).status = statusByte c := by cases s; rfl

@[simp] theorem respond_busy (c : Code) (d : ResultData) (s : State) :
    (respond c d s).busy = false := by cases s; rfl

@[simp] theorem respond_seq (c : Code) (d : ResultData) (s : State) :
    (respond c d s).seq = .idle := by cases s; rfl

@[simp] theorem respond_le (c : Code) (d : ResultData) (s : State) :
    (respond c d s).le = s.le := by cases s; rfl

@[simp] theorem respond_clk (c : Code) (d : ResultData) (s : State) :
    (respond c d s).clk = s.clk := by cases s; rfl

@[simp] theorem respond_dataOut (c : Code) (d : ResultData) (s : State) :
    (respond c d s).dataOut = s.dataOut := by cases s; rfl

@[simp] theorem respond_response (c : Code) (d : ResultData) (s : State) :
    (respond c d s).response = ⟨statusByte c, d⟩ := by cases s; rfl

@[simp] theorem respond_chip (c : Code) (d : ResultData) (s : State) :
    (respond c d s).chip = s.chip := by cases s; rfl

@[simp] theorem respond_chipRb (c : Code) (d : ResultData) (s : State) :
    (respond c d s).chipRb = s.chipRb := by cases s; rfl

@[simp] theorem respond_pinTrace (c : Code) (d : ResultData) (s : State) :
    (respond c d s).pinTrace = s.pinTrace := by cases s; rfl

@[simp] theorem respond_errorSeen (c : Code) (d : ResultData) (s : State) :
    (respond c d s).errorSeen = (s.errorSeen || c != .ok) := by cases s; rfl

@[simp] theorem respond_dataIn (c : Code) (d : ResultData) (s : State) :
    (respond c d s).dataIn = s.dataIn := by cases s; rfl

@[simp] theorem respond_ldIn (c : Code) (d : ResultData) (s : State) :
    (respond c d s).ldIn = s.ldIn := by cases s; rfl

@[simp] theorem respond_offers (c : Code) (d : ResultData) (s : State) :
    (respond c d s).offers = s.offers := by cases s; rfl

@[simp] theorem raiseError_regs (c : Code) (s : State) :
    (raiseError c s).regs = s.regs := by cases s; rfl

@[simp] theorem raiseError_fRef (c : Code) (s : State) :
    (raiseError c s).fRef = s.fRef := by cases s; rfl

@[simp] theorem raiseError_rdivS (c : Code) (s : State) :
    (raiseError c s).rdivS = s.rdivS := by cases s; rfl

@[simp] theorem raiseError_fPfd (c : Code) (s : State) :
    (raiseError c s).fPfd = s.fPfd := by cases s; rfl

@[simp] theorem raiseError_fTarget (c : Code) (s : State) :
    (raiseError c s).fTarget = s.fTarget := by cases s; rfl

@[simp] theorem raiseError_status (c : Code) (s : State) :
    (raiseError c s).status = statusByte c := by cases s; rfl

@[simp] theorem raiseError_busy (c : Code) (s : State) :
    (raiseError c s).busy = false := by cases s; rfl

@[simp] theorem raiseError_seq (c : Code) (s : State) :
    (raiseError c s).seq = .idle := by cases s; rfl

@[simp] theorem raiseError_le (c : Code) (s : State) :
    (raiseError c s).le = s.le := by cases s; rfl

@[simp] theorem raiseError_clk (c : Code) (s : State) :
    (raiseError c s).clk = s.clk := by cases s; rfl

@[simp] theorem raiseError_dataOut (c : Code) (s : State) :
    (raiseError c s).dataOut = s.dataOut := by cases s; rfl

@[simp] theorem raiseError_response (c : Code) (s : State) :
    (raiseError c s).response = ⟨statusByte c, 0⟩ := by cases s; rfl

@[simp] theorem raiseError_chip (c : Code) (s : State) :
    (raiseError c s).chip = s.chip := by cases s; rfl

@[simp] theorem raiseError_chipRb (c : Code) (s : State) :
    (raiseError c s).chipRb = s.chipRb := by cases s; rfl

@[simp] theorem raiseError_pinTrace (c : Code) (s : State) :
    (raiseError c s).pinTrace = s.pinTrace := by cases s; rfl

@[simp] theorem raiseError_errorSeen (c : Code) (s : State) :
    (raiseError c s).errorSeen = (s.errorSeen || c != .ok) := by cases s; rfl

@[simp] theorem raiseError_dataIn (c : Code) (s : State) :
    (raiseError c s).dataIn = s.dataIn := by cases s; rfl

@[simp] theorem raiseError_ldIn (c : Code) (s : State) :
    (raiseError c s).ldIn = s.ldIn := by cases s; rfl

@[simp] theorem raiseError_offers (c : Code) (s : State) :
    (raiseError c s).offers = s.offers := by cases s; rfl

@[simp] theorem resetEvent_regs (s : State) :
    (resetEvent s).regs = State.reset.regs := by cases s; rfl

@[simp] theorem resetEvent_fRef (s : State) :
    (resetEvent s).fRef = State.reset.fRef := by cases s; rfl

@[simp] theorem resetEvent_rdivS (s : State) :
    (resetEvent s).rdivS = State.reset.rdivS := by cases s; rfl

@[simp] theorem resetEvent_fPfd (s : State) :
    (resetEvent s).fPfd = State.reset.fPfd := by cases s; rfl

@[simp] theorem resetEvent_fTarget (s : State) :
    (resetEvent s).fTarget = State.reset.fTarget := by cases s; rfl

@[simp] theorem resetEvent_status (s : State) :
    (resetEvent s).status = State.reset.status := by cases s; rfl

@[simp] theorem resetEvent_busy (s : State) :
    (resetEvent s).busy = State.reset.busy := by cases s; rfl

@[simp] theorem resetEvent_seq (s : State) :
    (resetEvent s).seq = State.reset.seq := by cases s; rfl

@[simp] theorem resetEvent_le (s : State) :
    (resetEvent s).le = State.reset.le := by cases s; rfl

@[simp] theorem resetEvent_clk (s : State) :
    (resetEvent s).clk = State.reset.clk := by cases s; rfl

@[simp] theorem resetEvent_dataOut (s : State) :
    (resetEvent s).dataOut = State.reset.dataOut := by cases s; rfl

@[simp] theorem resetEvent_response (s : State) :
    (resetEvent s).response = State.reset.response := by cases s; rfl

@[simp] theorem resetEvent_chip (s : State) :
    (resetEvent s).chip = State.reset.chip := by cases s; rfl

@[simp] theorem resetEvent_chipRb (s : State) :
    (resetEvent s).chipRb = State.reset.chipRb := by cases s; rfl

@[simp] theorem resetEvent_pinTrace (s : State) :
    (resetEvent s).pinTrace = State.reset.pinTrace := by cases s; rfl

@[simp] theorem resetEvent_errorSeen (s : State) :
    (resetEvent s).errorSeen = State.reset.errorSeen := by cases s; rfl

@[simp] theorem resetEvent_dataIn (s : State) :
    (resetEvent s).dataIn = s.dataIn := by cases s; rfl

@[simp] theorem resetEvent_ldIn (s : State) :
    (resetEvent s).ldIn = s.ldIn := by cases s; rfl

@[simp] theorem resetEvent_offers (s : State) :
    (resetEvent s).offers = s.offers := by cases s; rfl

end Sys2Proof.Machine
end

