-- ==== Sys2Proof/Laws/Fields.lean ====
section
/-!
SUPPORT. The Register Model: what a register or field write leaves to be read, bit by bit (R11 to R15,
R82), for every layout that meets R8 and in particular for `LAYOUT_DOC`.
-/

namespace Sys2Proof.Machine

/-! ### Words with a tag -/

theorem tagged_getLsbD (i : RegIndex) (v : Word) (k : Nat) :
    (tagged i v).getLsbD k = if k < 3 then i.val.testBit k else v.getLsbD k := by
  simp only [tagged, BitVec.getLsbD_append, BitVec.getLsbD_ofNat, BitVec.getLsbD_extractLsb']
  split
  · simp [*]
  · have h : 3 + (k - 3) = k := by omega
    by_cases hk : k < 32
    · have : k - 3 < 29 := by omega
      simp [h, this]
    · rw [h, BitVec.getLsbD_of_ge v k (by omega)]; simp

@[simp] theorem serialTag_tagged (i : RegIndex) (v : Word) :
    serialTag (tagged i v) = BitVec.ofNat 3 i.val := by
  apply BitVec.eq_of_getLsbD_eq
  intro k hk
  rw [serialTag, BitVec.getLsbD_extractLsb', tagged_getLsbD, BitVec.getLsbD_ofNat]
  simp [hk]

theorem tag_bit {i : RegIndex} {v : Word} (h : serialTag v = BitVec.ofNat 3 i.val) {k : Nat}
    (hk : k < 3) : v.getLsbD k = i.val.testBit k := by
  have := congrArg (fun b => b.getLsbD k) h
  simp only [serialTag, BitVec.getLsbD_extractLsb', BitVec.getLsbD_ofNat] at this
  simpa [hk] using this

theorem tagged_eq_self {i : RegIndex} {v : Word} (h : serialTag v = BitVec.ofNat 3 i.val) :
    tagged i v = v := by
  apply BitVec.eq_of_getLsbD_eq
  intro k _
  rw [tagged_getLsbD]
  split
  · exact (tag_bit h ‹_›).symm
  · rfl

@[simp] theorem tagged_tagged (i j : RegIndex) (v : Word) : tagged i (tagged j v) = tagged i v := by
  apply BitVec.eq_of_getLsbD_eq
  intro k _
  simp only [tagged_getLsbD]
  split <;> rfl

theorem tagged_congr {i : RegIndex} {v w : Word} (h : ∀ k, 3 ≤ k → v.getLsbD k = w.getLsbD k) :
    tagged i v = tagged i w := by
  apply BitVec.eq_of_getLsbD_eq
  intro k _
  simp only [tagged_getLsbD]
  split
  · rfl
  · exact h k (by omega)

/-! ### Whole registers -/

theorem readReg_writeReg (i j : RegIndex) (v : Word) (s : State) :
    readReg j (writeReg i v s) = if j = i then tagged i v else readReg j s := by
  simp only [readReg, writeReg, Vector.get_eq_getElem, Vector.getElem_set]
  split
  · rw [if_pos (Fin.ext (by omega))]
  · rw [if_neg (fun h => by subst h; exact absurd rfl ‹_›)]

@[simp] theorem readReg_writeReg_same (i : RegIndex) (v : Word) (s : State) :
    readReg i (writeReg i v s) = tagged i v := by simp [readReg_writeReg]

theorem readReg_writeReg_ne {i j : RegIndex} (h : j ≠ i) (v : Word) (s : State) :
    readReg j (writeReg i v s) = readReg j s := by simp [readReg_writeReg, h]

theorem readReg_of_regs {s t : State} (h : t.regs = s.regs) (i : RegIndex) :
    readReg i t = readReg i s := by simp [readReg, h]

theorem regs_ext {s t : State} (h : ∀ i : RegIndex, readReg i t = readReg i s) :
    t.regs = s.regs := by
  apply Vector.ext
  intro k hk
  exact h ⟨k, hk⟩

theorem tagsOk_of_regs {s t : State} (h : t.regs = s.regs) (hs : TagsOk s) : TagsOk t :=
  fun i => by rw [readReg_of_regs h]; exact hs i

theorem writeReg_tagsOk (i : RegIndex) (v : Word) {s : State} (hs : TagsOk s) :
    TagsOk (writeReg i v s) := by
  intro j
  rw [readReg_writeReg]
  split
  · subst_vars; simp
  · exact hs j

theorem setField_tagsOk (l : Layout) (f : Field) (x : Nat) {s : State} (hs : TagsOk s) :
    TagsOk (setField l f x s) := writeReg_tagsOk _ _ hs

theorem setFields_tagsOk (l : Layout) (fs : List (Field × Nat)) {s : State} (hs : TagsOk s) :
    TagsOk (setFields l fs s) := by
  induction fs generalizing s with
  | nil => exact hs
  | cons fx fs ih => exact ih (setField_tagsOk l fx.1 fx.2 hs)

/-! ### Bits of a place -/

theorem placeOk_iff (pl : Place) :
    placeOk pl = true ↔ 3 ≤ pl.lsb ∧ pl.lsb + pl.width ≤ 32 ∧ 1 ≤ pl.width ∧ pl.width ≤ 16 := by
  simp [placeOk]

theorem placeMask_getLsbD {pl : Place} (h : placeOk pl = true) (k : Nat) :
    (placeMask pl).getLsbD k = decide (pl.lsb ≤ k ∧ k < pl.lsb + pl.width) := by
  have hp := (placeOk_iff pl).1 h
  simp only [placeMask, BitVec.getLsbD_shiftLeft, BitVec.getLsbD_ofNat, Nat.testBit_two_pow_sub_one]
  by_cases h1 : pl.lsb ≤ k <;> by_cases h2 : k < pl.lsb + pl.width <;> simp [h1, h2] <;> omega

theorem putBits_getLsbD {pl : Place} (h : placeOk pl = true) (x : Nat) (v : Word) (k : Nat) :
    (putBits pl x v).getLsbD k =
      if pl.lsb ≤ k ∧ k < pl.lsb + pl.width then x.testBit (k - pl.lsb) else v.getLsbD k := by
  have hp := (placeOk_iff pl).1 h
  simp only [putBits, BitVec.getLsbD_or, BitVec.getLsbD_and, BitVec.getLsbD_not,
    placeMask_getLsbD h, BitVec.getLsbD_shiftLeft, BitVec.getLsbD_ofNat, truncW,
    Nat.testBit_mod_two_pow]
  by_cases hk : k < 32
  · by_cases h1 : pl.lsb ≤ k <;> by_cases h2 : k < pl.lsb + pl.width <;> simp [h1, h2, hk]
    simp [show ¬k < pl.lsb by omega, show k - pl.lsb < 32 by omega,
      show k - pl.lsb < pl.width by omega]
  · have : ¬(pl.lsb ≤ k ∧ k < pl.lsb + pl.width) := by omega
    simp [hk, this]
    rw [BitVec.getLsbD_of_ge v k (by omega)]

theorem getBits_testBit {pl : Place} (h : placeOk pl = true) (v : Word) (k : Nat) :
    (getBits pl v).testBit k = (decide (k < pl.width) && v.getLsbD (pl.lsb + k)) := by
  have hp := (placeOk_iff pl).1 h
  rw [getBits, BitVec.testBit_toNat, BitVec.getLsbD_and, BitVec.getLsbD_ushiftRight,
    BitVec.getLsbD_ofNat, Nat.testBit_two_pow_sub_one]
  by_cases hk : k < pl.width
  · have : k < 32 := by omega
    simp [hk, this]
  · simp [hk]

theorem getBits_lt {pl : Place} (h : placeOk pl = true) (v : Word) :
    getBits pl v < 2 ^ pl.width := by
  apply Nat.lt_pow_two_of_testBit
  intro k hk
  simp [getBits_testBit h, show ¬k < pl.width by omega]

/-- A place's bits as a division and a remainder. -/
theorem getBits_eq {pl : Place} (h : placeOk pl = true) (v : Word) :
    getBits pl v = v.toNat / 2 ^ pl.lsb % 2 ^ pl.width := by
  apply Nat.eq_of_testBit_eq
  intro k
  rw [getBits_testBit h, Nat.testBit_mod_two_pow, Nat.testBit_div_two_pow, BitVec.testBit_toNat,
    Nat.add_comm]

theorem getBits_congr {pl : Place} (h : placeOk pl = true) {v w : Word}
    (hvw : ∀ k, pl.lsb ≤ k → k < pl.lsb + pl.width → v.getLsbD k = w.getLsbD k) :
    getBits pl v = getBits pl w := by
  apply Nat.eq_of_testBit_eq
  intro k
  rw [getBits_testBit h, getBits_testBit h]
  by_cases hk : k < pl.width
  · rw [hvw (pl.lsb + k) (by omega) (by omega)]
  · simp [hk]

theorem getBits_putBits_same {pl : Place} (h : placeOk pl = true) (x : Nat) (v : Word) :
    getBits pl (putBits pl x v) = x % 2 ^ pl.width := by
  apply Nat.eq_of_testBit_eq
  intro k
  rw [getBits_testBit h, Nat.testBit_mod_two_pow, putBits_getLsbD h]
  by_cases hk : k < pl.width <;> simp [hk]

theorem placesApart_iff (p q : Place) :
    placesApart p q = true ↔
      p.reg ≠ q.reg ∨ p.lsb + p.width ≤ q.lsb ∨ q.lsb + q.width ≤ p.lsb := by
  simp [placesApart]

/-! ### Layouts -/

theorem mem_fieldsById (f : Field) : f ∈ fieldsById := by cases f <;> decide

theorem layoutOk_place {l : Layout} (h : layoutOk l = true) (f : Field) : placeOk (l f) = true := by
  simp only [layoutOk, Bool.and_eq_true, List.all_eq_true] at h
  exact h.1.1 f (mem_fieldsById f)

theorem layoutOk_apart {l : Layout} (h : layoutOk l = true) {f g : Field} (hfg : f ≠ g) :
    placesApart (l f) (l g) = true := by
  simp only [layoutOk, Bool.and_eq_true, List.all_eq_true] at h
  have := h.1.2 f (mem_fieldsById f) g (mem_fieldsById g)
  simpa [hfg] using this

/-- `LAYOUT_DOC` meets the conditions of R8. -/
theorem layoutDoc_ok : layoutOk layoutDoc = true := by decide

theorem layoutDoc_place (f : Field) : placeOk (layoutDoc f) = true :=
  layoutOk_place layoutDoc_ok f

/-! ### Field writes and reads -/

/-- What a field write leaves in a register: the field's bits, and every other bit as it was, the
tag as the register has it. -/
theorem readReg_setField (l : Layout) (f : Field) (x : Nat) (s : State) (i : RegIndex) :
    readReg i (setField l f x s) =
      if i = (l f).reg then tagged i (putBits (l f) x (readReg i s)) else readReg i s := by
  rw [setField, readReg_writeReg]
  split
  · next h => subst h; rfl
  · rfl

theorem setField_getLsbD {l : Layout} (h : layoutOk l = true) (f : Field) (x : Nat) {s : State}
    (hs : TagsOk s) (i : RegIndex) (k : Nat) :
    (readReg i (setField l f x s)).getLsbD k =
      if i = (l f).reg ∧ (l f).lsb ≤ k ∧ k < (l f).lsb + (l f).width then x.testBit (k - (l f).lsb)
      else (readReg i s).getLsbD k := by
  have hp := (placeOk_iff _).1 (layoutOk_place h f)
  rw [readReg_setField]
  by_cases hi : i = (l f).reg
  · simp only [hi, true_and, if_true, tagged_getLsbD]
    split
    · rw [if_neg (by omega), tag_bit (hs _) ‹_›]
    · rw [putBits_getLsbD (layoutOk_place h f)]
  · simp [hi]

theorem getField_setField_same {l : Layout} (h : layoutOk l = true) (f : Field) (x : Nat)
    (s : State) : getField l f (setField l f x s) = x % 2 ^ (l f).width := by
  have hp := (placeOk_iff _).1 (layoutOk_place h f)
  rw [getField, readReg_setField, if_pos rfl,
    getBits_congr (layoutOk_place h f) (w := putBits (l f) x (readReg (l f).reg s)),
    getBits_putBits_same (layoutOk_place h f)]
  intro k h1 _
  rw [tagged_getLsbD, if_neg (by omega)]

theorem getField_setField_ne {l : Layout} (h : layoutOk l = true) {f g : Field} (hfg : g ≠ f)
    (x : Nat) (s : State) : getField l g (setField l f x s) = getField l g s := by
  have hp := (placeOk_iff _).1 (layoutOk_place h g)
  have ha := (placesApart_iff _ _).1 (layoutOk_apart h hfg)
  rw [getField, getField, readReg_setField]
  split
  · next hr =>
    apply getBits_congr (layoutOk_place h g)
    intro k h1 h2
    rw [tagged_getLsbD, if_neg (by omega), putBits_getLsbD (layoutOk_place h f), if_neg]
    rcases ha with ha | ha | ha
    · exact absurd hr ha
    · omega
    · omega
  · rfl

theorem getField_setField {l : Layout} (h : layoutOk l = true) (f g : Field) (x : Nat) (s : State) :
    getField l g (setField l f x s) =
      if g = f then x % 2 ^ (l f).width else getField l g s := by
  split
  · subst_vars; exact getField_setField_same h _ x s
  · exact getField_setField_ne h ‹_› x s

theorem getField_lt {l : Layout} (h : layoutOk l = true) (f : Field) (s : State) :
    getField l f s < 2 ^ (l f).width := getBits_lt (layoutOk_place h f) _

theorem getField_of_regs (l : Layout) (f : Field) {s t : State} (h : t.regs = s.regs) :
    getField l f t = getField l f s := by simp [getField, readReg, h]

theorem getField_eq_fieldValue (f : Field) (s : State) :
    getField layoutDoc f s = fieldValue f s := getBits_eq (layoutDoc_place f) _

/-- What field writes leave in the registers depends on the registers alone. -/
theorem setFields_regs_congr (l : Layout) (fs : List (Field × Nat)) {s t : State}
    (h : t.regs = s.regs) : (setFields l fs t).regs = (setFields l fs s).regs := by
  induction fs generalizing s t with
  | nil => exact h
  | cons fx fs ih =>
    apply ih
    apply regs_ext
    intro i
    rw [readReg_setField, readReg_setField, readReg_of_regs h]

/-- The value a list of field writes leaves in a field: that of the last write to it. -/
def lastWrite (f : Field) (x : Nat) (fs : List (Field × Nat)) : Nat :=
  fs.foldl (fun y fx => if fx.1 = f then fx.2 % 2 ^ (layoutDoc f).width else y) x

theorem getField_setFields (f : Field) (fs : List (Field × Nat)) (s : State) :
    getField layoutDoc f (setFields layoutDoc fs s) =
      lastWrite f (getField layoutDoc f s) fs := by
  induction fs generalizing s with
  | nil => rfl
  | cons fx fs ih =>
    show getField layoutDoc f (setFields layoutDoc fs (setField layoutDoc fx.1 fx.2 s)) = _
    rw [ih, getField_setField layoutDoc_ok]
    show _ = lastWrite f (if fx.1 = f then fx.2 % 2 ^ (layoutDoc f).width
      else getField layoutDoc f s) fs
    by_cases h : f = fx.1
    · subst h; simp
    · simp [h, Ne.symm h]

theorem readReg_setFields_ne {l : Layout} (fs : List (Field × Nat)) (s : State) (i : RegIndex)
    (h : ∀ fx ∈ fs, (l fx.1).reg ≠ i) : readReg i (setFields l fs s) = readReg i s := by
  induction fs generalizing s with
  | nil => rfl
  | cons fx fs ih =>
    show readReg i (setFields l fs (setField l fx.1 fx.2 s)) = _
    rw [ih _ (fun gx hg => h gx (List.mem_cons_of_mem _ hg)), readReg_setField,
      if_neg (fun e => h fx List.mem_cons_self e.symm)]

/-- A list of field writes leaves every bit outside the fields it names as it was. -/
theorem setFields_getLsbD_ne {l : Layout} (hl : layoutOk l = true) (fs : List (Field × Nat))
    {s : State} (hs : TagsOk s) (i : RegIndex) (k : Nat)
    (h : ∀ fx ∈ fs, ¬((l fx.1).reg = i ∧ (l fx.1).lsb ≤ k ∧ k < (l fx.1).lsb + (l fx.1).width)) :
    (readReg i (setFields l fs s)).getLsbD k = (readReg i s).getLsbD k := by
  induction fs generalizing s with
  | nil => rfl
  | cons fx fs ih =>
    show (readReg i (setFields l fs (setField l fx.1 fx.2 s))).getLsbD k = _
    rw [ih (setField_tagsOk l _ _ hs) (fun gx hg => h gx (List.mem_cons_of_mem _ hg)),
      setField_getLsbD hl _ _ hs, if_neg]
    rintro ⟨rfl, h2⟩
    exact h fx List.mem_cons_self ⟨rfl, h2⟩

/-- Field writes make a state whose fields outside the list are untouched (R17, R82). -/
theorem setFields_fieldsSameBut (fs : List (Field × Nat)) {s : State} (hs : TagsOk s) :
    FieldsSameBut (fs.map Prod.fst) s (setFields layoutDoc fs s) := by
  intro i k h
  exact setFields_getLsbD_ne layoutDoc_ok fs hs i k
    (fun fx hf => h fx.1 (List.mem_map_of_mem hf))

end Sys2Proof.Machine
end

