-- ==== Sys2Proof/Laws/Link.lean ====
section
/-!
SUPPORT. The serial link: what driving events, sending frames and sampling `DATA_IN` leave on the
pins, in the trace and in the ghost chip, and what a receiver hears of it (R24, R38, R84 to R91).
-/

namespace Sys2Proof.Machine

/-! ### Driving events -/

@[simp] theorem lastLevel_nil (p : OutPin) (b : Bool) : lastLevel p [] b = b := rfl

@[simp] theorem lastLevel_write (p q : OutPin) (x : Bool) (es : List PinEvent) (b : Bool) :
    lastLevel p (.write q x :: es) b = lastLevel p es (if q = p then x else b) := rfl

@[simp] theorem lastLevel_read (p : OutPin) (q : InPin) (x : Bool) (es : List PinEvent) (b : Bool) :
    lastLevel p (.read q x :: es) b = lastLevel p es b := rfl

@[simp] theorem lastLevel_wait (p : OutPin) (n : Nat) (es : List PinEvent) (b : Bool) :
    lastLevel p (.wait n :: es) b = lastLevel p es b := rfl

theorem lastLevel_append (p : OutPin) (es fs : List PinEvent) (b : Bool) :
    lastLevel p (es ++ fs) b = lastLevel p fs (lastLevel p es b) := by
  simp [lastLevel, List.foldl_append]

theorem drive_append (es fs : List PinEvent) (s : State) :
    drive (es ++ fs) s = drive fs (drive es s) := by
  simp [drive, lastLevel_append]

/-- Driving a list of events is performing them one by one, as `PinWrite` does (R24, R49). -/
theorem drive_cons (e : PinEvent) (es : List PinEvent) (s : State) :
    drive (e :: es) s = drive es (drive [e] s) := drive_append [e] es s

/-! ### The bits of a word on the wire -/

theorem foldl_shift_getLsbD (bs : List Bool) (v : Word) (k : Nat) (hk : k < 32) :
    (bs.foldl (fun (u : Word) (b : Bool) => (u <<< 1) ||| BitVec.ofNat 32 b.toNat) v).getLsbD k =
      if h : k < bs.length then bs[bs.length - 1 - k] else v.getLsbD (k - bs.length) := by
  induction bs generalizing v with
  | nil => simp
  | cons b bs ih =>
    simp only [List.foldl_cons, ih, List.length_cons]
    by_cases h : k < bs.length
    · have h2 : bs.length + 1 - 1 - k = (bs.length - 1 - k) + 1 := by omega
      have h1 : k < bs.length + 1 := by omega
      simp only [h, h1, dif_pos, h2, List.getElem_cons_succ]
    · by_cases h1 : k = bs.length
      · subst h1
        cases b <;> simp
      · have h2 : ¬ k < bs.length + 1 := by omega
        have h3 : k - (bs.length + 1) = k - bs.length - 1 := by omega
        simp only [h, h2, dif_neg, not_false_eq_true, BitVec.getLsbD_or, BitVec.getLsbD_shiftLeft]
        have h4 : ¬ k - bs.length < 1 := by omega
        have h5 : k - bs.length < 32 := by omega
        have h6 : k - bs.length ≠ 0 := by omega
        cases b <;> simp [h3, h4, h5, h6]

theorem wordBits_length (v : Word) : (wordBits v).length = 32 := rfl

theorem wordBits_getElem (v : Word) (k : Nat) (h : k < 32) :
    (wordBits v)[31 - k]'(by rw [wordBits_length]; omega) = v.getLsbD k := by
  interval_cases k <;> rfl

/-- The 32 bits of a frame, taken in the order they are sent, are the word (R41). -/
theorem wordOfBits_wordBits (v : Word) : wordOfBits (wordBits v) = v := by
  apply BitVec.eq_of_getLsbD_eq
  intro k hk
  rw [wordOfBits, foldl_shift_getLsbD _ _ _ hk, dif_pos (by rw [wordBits_length]; exact hk)]
  exact wordBits_getElem v k hk

theorem frameEvents_length (v : Word) : (frameEvents params v).length = 98 := rfl

@[simp] theorem frameEvents_le (v : Word) (b : Bool) :
    lastLevel .le (frameEvents params v) b = true := rfl

@[simp] theorem frameEvents_clk (v : Word) (b : Bool) :
    lastLevel .clk (frameEvents params v) b = false := rfl

@[simp] theorem frameEvents_dataOut (v : Word) (b : Bool) :
    lastLevel .dataOut (frameEvents params v) b = v.getLsbD 0 := rfl

theorem frameEvents_noWait (v : Word) : (frameEvents params v).countP isWait = 0 := rfl

/-! ### What a receiver hears -/

theorem hear_levels (es : List PinEvent) (r : Receiver) :
    (es.foldl hear r).le = lastLevel .le es r.le ∧
    (es.foldl hear r).clk = lastLevel .clk es r.clk ∧
    (es.foldl hear r).dataOut = lastLevel .dataOut es r.dataOut := by
  induction es generalizing r with
  | nil => exact ⟨rfl, rfl, rfl⟩
  | cons e es ih =>
    rw [List.foldl_cons]
    obtain ⟨h1, h2, h3⟩ := ih (hear r e)
    rw [h1, h2, h3]
    cases e with
    | write p b => cases p <;> simp only [hear, lastLevel_write] <;> (try split) <;> simp_all
    | read p b => exact ⟨rfl, rfl, rfl⟩
    | wait n => exact ⟨rfl, rfl, rfl⟩

theorem hear_bits (bs : List Bool) (r : Receiver) (hle : r.le = false) (hclk : r.clk = false) :
    ∃ d, (bs.flatMap (bitEvents params)).foldl hear r =
      { r with dataOut := d, shifted := r.shifted ++ bs } := by
  induction bs generalizing r with
  | nil => exact ⟨r.dataOut, by simp⟩
  | cons b bs ih =>
    obtain ⟨d, h⟩ := ih { r with dataOut := b, shifted := r.shifted ++ [b] } hle hclk
    refine ⟨d, ?_⟩
    rw [List.flatMap_cons, List.foldl_append]
    have : (bitEvents params b).foldl hear r = { r with dataOut := b, shifted := r.shifted ++ [b] } := by
      simp [bitEvents, hear, params, hle, hclk]
    rw [this, h]
    simp

/-- A receiver that hears one frame, its clock idle, latches exactly the word of the frame (R84 to
R86). -/
theorem hear_frame (v : Word) (r : Receiver) (hclk : r.clk = false) :
    (frameEvents params v).foldl hear r =
      ⟨true, false, v.getLsbD 0, [], r.words ++ [v]⟩ := by
  have hl := hear_levels (frameEvents params v) r
  rw [frameEvents_le, frameEvents_clk, frameEvents_dataOut] at hl
  obtain ⟨d, h⟩ := hear_bits (wordBits v) (hear r (.write .le params.leDisable))
    (by simp only [hear]; split <;> rfl) (by simp only [hear]; split <;> exact hclk)
  have h0 : hear r (.write .le params.leDisable) = { r with le := false, shifted := [] } := by
    simp [hear, params]
  have hs : (frameEvents params v).foldl hear r =
      { r with le := true, dataOut := d, shifted := [], words := r.words ++ [v] } := by
    rw [frameEvents, List.foldl_append, List.foldl_append]
    simp only [List.foldl_cons, List.foldl_nil]
    rw [h, h0]
    simp [hear, wordBits_length, wordOfBits_wordBits, params]
  rw [hs] at hl ⊢
  obtain ⟨_, h2, h3⟩ := hl
  simp only at h2 h3
  rw [h2, h3]

/-- An event that neither moves the latch nor waits: clock and data edges, and samples. -/
def dull : PinEvent → Bool
  | .write .le _ => false
  | .write .clk _ => true
  | .write .dataOut _ => true
  | .read _ _ => true
  | .wait _ => false

/-- With the latch enabled nothing that is clocked is taken (R86, R89). -/
theorem hear_dull (es : List PinEvent) (hes : ∀ e ∈ es, dull e = true) (r : Receiver)
    (hle : r.le = true) :
    es.foldl hear r =
      { r with clk := lastLevel .clk es r.clk, dataOut := lastLevel .dataOut es r.dataOut } := by
  induction es generalizing r with
  | nil => rfl
  | cons e es ih =>
    have he := hes e List.mem_cons_self
    have hh : hear r e =
        { r with clk := lastLevel .clk [e] r.clk, dataOut := lastLevel .dataOut [e] r.dataOut } := by
      cases e with
      | write p b =>
        cases p with
        | le => cases he
        | clk => simp [hear, hle, params]
        | dataOut => simp [hear]
      | read p b => simp [hear]
      | wait n => cases he
    rw [List.foldl_cons, hh, ih (fun x hx => hes x (List.mem_cons_of_mem _ hx))
      { r with clk := lastLevel .clk [e] r.clk, dataOut := lastLevel .dataOut [e] r.dataOut } hle]
    simp only [← lastLevel_append, List.singleton_append]

theorem dull_le (es : List PinEvent) (hes : ∀ e ∈ es, dull e = true) (b : Bool) :
    lastLevel .le es b = b := by
  induction es generalizing b with
  | nil => rfl
  | cons e es ih =>
    have he := hes e List.mem_cons_self
    have ih' := ih (fun x hx => hes x (List.mem_cons_of_mem _ hx))
    cases e with
    | write p x =>
      cases p with
      | le => cases he
      | clk => exact ih' b
      | dataOut => exact ih' b
    | read p x => exact ih' b
    | wait n => cases he

theorem dull_noWait (es : List PinEvent) (hes : ∀ e ∈ es, dull e = true) :
    es.countP isWait = 0 := by
  rw [List.countP_eq_zero]
  intro e he
  have := hes e he
  cases e <;> simp_all [isWait, dull]

/-! ### The ghost chip -/

theorem memWrite_chip_congr {s t : State} (h : s.chip = t.chip) (h' : s.chipRb = t.chipRb)
    (v : Word) : (memWrite v s).chip = (memWrite v t).chip ∧
      (memWrite v s).chipRb = (memWrite v t).chipRb := by
  unfold memWrite
  split
  · exact ⟨by simp [h], h'⟩
  · split
    · exact ⟨h, rfl⟩
    · exact ⟨h, h'⟩

theorem latchAll_chip_congr (ws : List Word) {s t : State} (h : s.chip = t.chip)
    (h' : s.chipRb = t.chipRb) : (latchAll ws s).chip = (latchAll ws t).chip ∧
      (latchAll ws s).chipRb = (latchAll ws t).chipRb := by
  induction ws generalizing s t with
  | nil => exact ⟨h, h'⟩
  | cons v ws ih =>
    obtain ⟨h1, h2⟩ := memWrite_chip_congr h h' v
    exact ih h1 h2

theorem latchAll_append (ws us : List Word) (s : State) :
    latchAll (ws ++ us) s = latchAll us (latchAll ws s) := by
  simp [latchAll, List.foldl_append]

/-- The ghost register a frame writes, if any (R38). -/
theorem memWrite_chip (v : Word) (s : State) (i : RegIndex) :
    (memWrite v s).chip.get i =
      if (serialTag v).toNat = i.val ∧ i ≠ 6 then some v else s.chip.get i := by
  unfold memWrite
  split
  · next h =>
    simp only [Vector.get_eq_getElem, Vector.getElem_setIfInBounds]
    by_cases hi : (serialTag v).toNat = i.val
    · have : i ≠ 6 := by rintro rfl; rw [hi] at h; exact absurd h (by decide)
      simp [hi, this]
    · simp [hi]
  · next h =>
    have hn : ¬((serialTag v).toNat = i.val ∧ i ≠ 6) := by
      rintro ⟨h1, h2⟩
      have : i.val ≠ 6 := fun e => h2 (Fin.ext e)
      have := i.isLt
      omega
    rw [if_neg hn]
    split <;> rfl

theorem memWrite_chipRb (v : Word) (s : State) :
    (memWrite v s).chipRb = if v = 0x00000006 then some true else s.chipRb := by
  unfold memWrite
  split
  · next h =>
    rw [if_neg]
    rintro rfl
    exact absurd h (by decide)
  · split <;> rfl

/-! ### Runs on the link -/

/-- The run from `s` to `t` drives the events `es`; a receiver on the link hears the words `ws` in it,
and the ghost chip has latched exactly those (R28, R38, R49). -/
structure Carries (s t : State) (es : List PinEvent) (ws : List Word) : Prop where
  trace : t.pinTrace = s.pinTrace ++ es
  le : t.le = lastLevel .le es s.le
  clk : t.clk = lastLevel .clk es s.clk
  dataOut : t.dataOut = lastLevel .dataOut es s.dataOut
  chip : t.chip = (latchAll ws s).chip
  chipRb : t.chipRb = (latchAll ws s).chipRb
  heard : ∀ w0, es.foldl hear ⟨s.le, s.clk, s.dataOut, [], w0⟩ =
    ⟨t.le, t.clk, t.dataOut, [], w0 ++ ws⟩

theorem Carries.refl (s : State) : Carries s s [] [] :=
  ⟨by simp, rfl, rfl, rfl, rfl, rfl, by simp⟩

/-- A run that leaves the link and its ghosts alone carries nothing. -/
theorem Carries.of_same {s t : State} (h : LinkSame s t) : Carries s t [] [] := by
  obtain ⟨h1, h2, h3, h4, h5, h6⟩ := h
  exact ⟨by simp [h4], h1, h2, h3, h5, h6, by simp [h1, h2, h3]⟩

theorem Carries.trans {s t u : State} {es fs : List PinEvent} {ws us : List Word}
    (h : Carries s t es ws) (k : Carries t u fs us) : Carries s u (es ++ fs) (ws ++ us) where
  trace := by rw [k.trace, h.trace, List.append_assoc]
  le := by rw [k.le, h.le, lastLevel_append]
  clk := by rw [k.clk, h.clk, lastLevel_append]
  dataOut := by rw [k.dataOut, h.dataOut, lastLevel_append]
  chip := by rw [k.chip, latchAll_append]; exact (latchAll_chip_congr us h.chip h.chipRb).1
  chipRb := by rw [k.chipRb, latchAll_append]; exact (latchAll_chip_congr us h.chip h.chipRb).2
  heard := by intro w0; rw [List.foldl_append, h.heard, k.heard, List.append_assoc]

/-- The words a receiver hears in a run's events. -/
theorem Carries.frames {s t : State} {es : List PinEvent} {ws : List Word}
    (h : Carries s t es ws) : framesHeard s es = ws := by
  have := congrArg Receiver.words (h.heard [])
  simpa [framesHeard] using this

/-- One frame, sent with the clock idle (R85). -/
theorem sendFrame_carries (v : Word) (s : State) (hclk : s.clk = false) :
    Carries s (sendFrame params v s) (frameEvents params v) [v] where
  trace := by simp [sendFrame, memWrite]; split <;> [rfl; (split <;> rfl)]
  le := by simp [sendFrame, memWrite]; split <;> [rfl; (split <;> rfl)]
  clk := by simp [sendFrame, memWrite]; split <;> [rfl; (split <;> rfl)]
  dataOut := by simp [sendFrame, memWrite]; split <;> [rfl; (split <;> rfl)]
  chip := (memWrite_chip_congr (s := drive (frameEvents params v) s) (t := s) rfl rfl v).1
  chipRb := (memWrite_chip_congr (s := drive (frameEvents params v) s) (t := s) rfl rfl v).2
  heard := by
    intro w0
    rw [hear_frame _ _ hclk]
    have e1 : (sendFrame params v s).le = true := by
      simp [sendFrame, memWrite]; split <;> [rfl; (split <;> rfl)]
    have e2 : (sendFrame params v s).clk = false := by
      simp [sendFrame, memWrite]; split <;> [rfl; (split <;> rfl)]
    have e3 : (sendFrame params v s).dataOut = v.getLsbD 0 := by
      simp [sendFrame, memWrite]; split <;> [rfl; (split <;> rfl)]
    simp [e1, e2, e3]

@[simp] theorem sendFrame_le (v : Word) (s : State) : (sendFrame params v s).le = true := by
  simp [sendFrame, memWrite]; split <;> [rfl; (split <;> rfl)]

@[simp] theorem sendFrame_clk (v : Word) (s : State) : (sendFrame params v s).clk = false := by
  simp [sendFrame, memWrite]; split <;> [rfl; (split <;> rfl)]

@[simp] theorem sendFrame_dataOut (v : Word) (s : State) :
    (sendFrame params v s).dataOut = v.getLsbD 0 := by
  simp [sendFrame, memWrite]; split <;> [rfl; (split <;> rfl)]

end Sys2Proof.Machine
end

