-- ==== Sys2Proof/Laws/Transport.lean ====
section
/-!
SUPPORT. The transport operations as a whole: the registers they leave, the six frames of `WRITEALL`
(R87) and the readback of `READREG6` (R89 to R92).
-/

namespace Sys2Proof.Machine

/-! ### Operations that leave the registers alone -/

@[simp] theorem readReg_drive (i : RegIndex) (es : List PinEvent) (s : State) :
    readReg i (drive es s) = readReg i s := readReg_of_regs (drive_regs es s) i

@[simp] theorem getField_drive (l : Layout) (f : Field) (es : List PinEvent) (s : State) :
    getField l f (drive es s) = getField l f s := getField_of_regs l f (drive_regs es s)

@[simp] theorem readReg_wait (i : RegIndex) (us : Nat) (s : State) :
    readReg i (wait us s) = readReg i s := readReg_of_regs (wait_regs us s) i

@[simp] theorem getField_wait (l : Layout) (f : Field) (us : Nat) (s : State) :
    getField l f (wait us s) = getField l f s := getField_of_regs l f (wait_regs us s)

@[simp] theorem readReg_readDataIn (i : RegIndex) (s : State) :
    readReg i ((readDataIn s).2) = readReg i s := readReg_of_regs (readDataIn_regs s) i

@[simp] theorem getField_readDataIn (l : Layout) (f : Field) (s : State) :
    getField l f ((readDataIn s).2) = getField l f s := getField_of_regs l f (readDataIn_regs s)

@[simp] theorem readReg_readLdIn (i : RegIndex) (s : State) :
    readReg i ((readLdIn s).2) = readReg i s := readReg_of_regs (readLdIn_regs s) i

@[simp] theorem getField_readLdIn (l : Layout) (f : Field) (s : State) :
    getField l f ((readLdIn s).2) = getField l f s := getField_of_regs l f (readLdIn_regs s)

@[simp] theorem readReg_memWrite (i : RegIndex) (v : Word) (s : State) :
    readReg i (memWrite v s) = readReg i s := readReg_of_regs (memWrite_regs v s) i

@[simp] theorem getField_memWrite (l : Layout) (f : Field) (v : Word) (s : State) :
    getField l f (memWrite v s) = getField l f s := getField_of_regs l f (memWrite_regs v s)

@[simp] theorem readReg_sendFrame (i : RegIndex) (p : Params) (v : Word) (s : State) :
    readReg i (sendFrame p v s) = readReg i s := readReg_of_regs (sendFrame_regs p v s) i

@[simp] theorem getField_sendFrame (l : Layout) (f : Field) (p : Params) (v : Word) (s : State) :
    getField l f (sendFrame p v s) = getField l f s := getField_of_regs l f (sendFrame_regs p v s)

@[simp] theorem readReg_sendReg (i : RegIndex) (p : Params) (j : RegIndex) (s : State) :
    readReg i (sendReg p j s) = readReg i s := readReg_of_regs (sendReg_regs p j s) i

@[simp] theorem getField_sendReg (l : Layout) (f : Field) (p : Params) (j : RegIndex) (s : State) :
    getField l f (sendReg p j s) = getField l f s := getField_of_regs l f (sendReg_regs p j s)

@[simp] theorem readReg_writeAll (i : RegIndex) (p : Params) (s : State) :
    readReg i (writeAll p s) = readReg i s := readReg_of_regs (writeAll_regs p s) i

@[simp] theorem getField_writeAll (l : Layout) (f : Field) (p : Params) (s : State) :
    getField l f (writeAll p s) = getField l f s := getField_of_regs l f (writeAll_regs p s)

@[simp] theorem readReg_trailingBytes (i : RegIndex) (p : Params) (s : State) :
    readReg i (trailingBytes p s) = readReg i s := readReg_of_regs (trailingBytes_regs p s) i

@[simp] theorem getField_trailingBytes (l : Layout) (f : Field) (p : Params) (s : State) :
    getField l f (trailingBytes p s) = getField l f s := getField_of_regs l f (trailingBytes_regs p s)

@[simp] theorem readReg_shiftIn (i : RegIndex) (p : Params) (s : State) :
    readReg i ((shiftIn p s).2) = readReg i s := readReg_of_regs (shiftIn_regs p s) i

@[simp] theorem getField_shiftIn (l : Layout) (f : Field) (p : Params) (s : State) :
    getField l f ((shiftIn p s).2) = getField l f s := getField_of_regs l f (shiftIn_regs p s)

@[simp] theorem readReg_accept (i : RegIndex) (op : BitVec 8) (s : State) :
    readReg i (accept op s) = readReg i s := readReg_of_regs (accept_regs op s) i

@[simp] theorem getField_accept (l : Layout) (f : Field) (op : BitVec 8) (s : State) :
    getField l f (accept op s) = getField l f s := getField_of_regs l f (accept_regs op s)

@[simp] theorem readReg_respond (i : RegIndex) (c : Code) (d : ResultData) (s : State) :
    readReg i (respond c d s) = readReg i s := readReg_of_regs (respond_regs c d s) i

@[simp] theorem getField_respond (l : Layout) (f : Field) (c : Code) (d : ResultData) (s : State) :
    getField l f (respond c d s) = getField l f s := getField_of_regs l f (respond_regs c d s)

@[simp] theorem readReg_raiseError (i : RegIndex) (c : Code) (s : State) :
    readReg i (raiseError c s) = readReg i s := readReg_of_regs (raiseError_regs c s) i

@[simp] theorem getField_raiseError (l : Layout) (f : Field) (c : Code) (s : State) :
    getField l f (raiseError c s) = getField l f s := getField_of_regs l f (raiseError_regs c s)

/-! ### WRITEALL -/

/-- The words of the six frames of `WRITEALL`, in order (R87). -/
def configWords (s : State) : List Word :=
  [readReg 5 s, readReg 4 s, readReg 3 s, readReg 2 s, readReg 1 s, readReg 0 s]

@[simp] theorem sendReg_le (i : RegIndex) (s : State) : (sendReg params i s).le = true := by
  simp [sendReg]

@[simp] theorem sendReg_clk (i : RegIndex) (s : State) : (sendReg params i s).clk = false := by
  simp [sendReg]

theorem sendReg_carries (i : RegIndex) (s : State) (hclk : s.clk = false) :
    Carries s (sendReg params i s) (frameEvents params (readReg i s)) [readReg i s] :=
  sendFrame_carries _ s hclk

theorem writeAll_eq (s : State) : writeAll params s =
    sendReg params 0 (sendReg params 1 (sendReg params 2 (sendReg params 3
      (sendReg params 4 (sendReg params 5 s))))) := by
  simp only [writeAll, List.foldl_cons, List.foldl_nil]

@[simp] theorem writeAll_le (s : State) : (writeAll params s).le = true := by simp [writeAll_eq]

@[simp] theorem writeAll_clk (s : State) : (writeAll params s).clk = false := by simp [writeAll_eq]

/-- `WRITEALL` is six frames, of registers 5, 4, 3, 2, 1, 0 as they stand (R87). -/
theorem writeAll_carries (s : State) (hclk : s.clk = false) :
    Carries s (writeAll params s) ((configWords s).flatMap (frameEvents params))
      (configWords s) := by
  have h5 := sendReg_carries 5 s hclk
  have h4 := h5.trans (sendReg_carries 4 _ (sendReg_clk 5 s))
  have h3 := h4.trans (sendReg_carries 3 _ (sendReg_clk 4 _))
  have h2 := h3.trans (sendReg_carries 2 _ (sendReg_clk 3 _))
  have h1 := h2.trans (sendReg_carries 1 _ (sendReg_clk 2 _))
  have h0 := h1.trans (sendReg_carries 0 _ (sendReg_clk 1 _))
  simpa [configWords, writeAll_eq, List.append_assoc] using h0

theorem configEvents_length (s : State) :
    ((configWords s).flatMap (frameEvents params)).length = 588 := by
  simp [configWords, frameEvents_length]

theorem configEvents_noWait (s : State) :
    ((configWords s).flatMap (frameEvents params)).countP isWait = 0 := by
  simp [configWords, List.countP_append, frameEvents_noWait]

/-- After the frame of a register with its own tag the chip holds that word (R38). -/
theorem sendFrame_chip (p : Params) (v : Word) (s : State) (i : RegIndex) :
    (sendFrame p v s).chip.get i =
      if (serialTag v).toNat = i.val ∧ i ≠ 6 then some v else s.chip.get i :=
  memWrite_chip v _ i

theorem sendFrame_chipRb (p : Params) (v : Word) (s : State) :
    (sendFrame p v s).chipRb = if v = 0x00000006 then some true else s.chipRb :=
  memWrite_chipRb v _

theorem tag_toNat {s : State} (hs : TagsOk s) (i : RegIndex) :
    (serialTag (readReg i s)).toNat = i.val := by
  rw [hs i, BitVec.toNat_ofNat]
  exact Nat.mod_eq_of_lt (by omega)

theorem sendReg_chip {s : State} (hs : TagsOk s) (i j : RegIndex) (hi : i ≠ 6) :
    (sendReg params i s).chip.get j = if j = i then some (readReg i s) else s.chip.get j := by
  rw [sendReg, sendFrame_chip, tag_toNat hs]
  by_cases h : j = i
  · subst h; simp [hi]
  · rw [if_neg h, if_neg]
    rintro ⟨h1, _⟩
    exact h (Fin.ext h1.symm)

/-- After `WRITEALL` the chip holds the whole local configuration (R51). -/
theorem writeAll_inSync {s : State} (hs : TagsOk s) : ChipInSync (writeAll params s) := by
  have ht : ∀ (j : RegIndex) (t : State), TagsOk t → TagsOk (sendReg params j t) :=
    fun j t h => tagsOk_of_regs (sendReg_regs params j t) h
  intro i hi
  rw [readReg_writeAll, writeAll_eq,
    sendReg_chip (ht _ _ (ht _ _ (ht _ _ (ht _ _ (ht _ _ hs))))) _ _ (by decide),
    sendReg_chip (ht _ _ (ht _ _ (ht _ _ (ht _ _ hs)))) _ _ (by decide),
    sendReg_chip (ht _ _ (ht _ _ (ht _ _ hs))) _ _ (by decide),
    sendReg_chip (ht _ _ (ht _ _ hs)) _ _ (by decide),
    sendReg_chip (ht _ _ hs) _ _ (by decide), sendReg_chip hs _ _ (by decide)]
  simp only [readReg_sendReg]
  fin_cases i <;> first | rfl | exact absurd rfl hi

theorem writeAll_chipRb {s : State} (hs : TagsOk s) : (writeAll params s).chipRb = s.chipRb := by
  have h6 : ∀ i : RegIndex, i ≠ 6 → readReg i s ≠ 0x00000006 := by
    intro i hi h
    have := tag_toNat hs i
    rw [h] at this
    exact hi (Fin.ext (by rw [← this]; rfl))
  have hr : ∀ (i : RegIndex) (t : State), i ≠ 6 → t.regs = s.regs →
      (sendReg params i t).chipRb = t.chipRb := by
    intro i t hi ht
    rw [sendReg, sendFrame_chipRb, readReg_of_regs ht, if_neg (h6 i hi)]
  rw [writeAll_eq, hr 0 _ (by decide) (by simp), hr 1 _ (by decide) (by simp),
    hr 2 _ (by decide) (by simp), hr 3 _ (by decide) (by simp), hr 4 _ (by decide) (by simp),
    hr 5 _ (by decide) rfl]

/-! ### Sampling -/

theorem levelAt_zero (free : Nat → Bool) (i : InPort) : levelAt free i 0 = nextLevel free i := by
  cases i with
  | mk q n => cases q <;> rfl

theorem samplesTaken_zero (i : InPort) : samplesTaken 0 i = i := by simp [samplesTaken]

theorem samplesTaken_add (m n : Nat) (i : InPort) :
    samplesTaken n (samplesTaken m i) = samplesTaken (m + n) i := by
  simp [samplesTaken, List.drop_drop, Nat.add_assoc]

theorem afterSample_eq (i : InPort) : afterSample i = samplesTaken 1 i := by
  simp [afterSample, samplesTaken]

theorem levelAt_samplesTaken (free : Nat → Bool) (i : InPort) (m k : Nat) :
    levelAt free (samplesTaken m i) k = levelAt free i (m + k) := by
  simp [levelAt, samplesTaken, Nat.add_assoc]

/-- Shifting bits in with `CLK` idle and `DATA_OUT` low, zeros shifted out: only the port and the
trace move, and nothing is a latch event or a wait (R89 step (c), R90). -/
theorem xferBits_zero (n : Nat) (r : BitVec 8) (s : State) (hc : s.clk = false)
    (hd : s.dataOut = false) :
    ∃ es, es.length = 4 * n ∧ (∀ e ∈ es, dull e = true) ∧
      (xferBits params 0 n r s).2 =
        { s with dataIn := samplesTaken n s.dataIn, pinTrace := s.pinTrace ++ es } ∧
      lastLevel .clk es false = false ∧ lastLevel .dataOut es false = false := by
  induction n generalizing r s with
  | zero => exact ⟨[], rfl, by simp, by simp [xferBits, samplesTaken], rfl, rfl⟩
  | succ n ih =>
    let b := nextLevel Config.dataInLevel s.dataIn
    let new : List PinEvent :=
      [.write .dataOut false, .write .clk true, .read .dataIn b, .write .clk false]
    obtain ⟨es, h1, h2, h3, h4, h5⟩ := ih (r ||| (BitVec.ofNat 8 b.toNat <<< n))
      { s with dataIn := samplesTaken 1 s.dataIn, pinTrace := s.pinTrace ++ new } hc hd
    refine ⟨new ++ es, by simp [new, h1]; omega, ?_, ?_, h4, h5⟩
    · intro e he
      rcases List.mem_append.1 he with he | he
      · simp [new] at he; rcases he with rfl | rfl | rfl | rfl <;> rfl
      · exact h2 e he
    · have : (xferBits params 0 (n + 1) r s).2 =
          (xferBits params 0 n (r ||| (BitVec.ofNat 8 b.toNat <<< n))
            { s with dataIn := samplesTaken 1 s.dataIn, pinTrace := s.pinTrace ++ new }).2 := by
        cases s
        cases hc
        cases hd
        simp [xferBits, readDataIn, drive, afterSample_eq, new, b]
      rw [this, h3]
      simp [samplesTaken_add, Nat.add_comm]

theorem byte_of_bits : ∀ b7 b6 b5 b4 b3 b2 b1 b0 : Bool,
    ((((((((0 : BitVec 8) ||| (BitVec.ofNat 8 b7.toNat <<< 7)) |||
      (BitVec.ofNat 8 b6.toNat <<< 6)) ||| (BitVec.ofNat 8 b5.toNat <<< 5)) |||
      (BitVec.ofNat 8 b4.toNat <<< 4)) ||| (BitVec.ofNat 8 b3.toNat <<< 3)) |||
      (BitVec.ofNat 8 b2.toNat <<< 2)) ||| (BitVec.ofNat 8 b1.toNat <<< 1)) |||
      (BitVec.ofNat 8 b0.toNat <<< 0) =
    BitVec.ofBool b7 ++ BitVec.ofBool b6 ++ BitVec.ofBool b5 ++ BitVec.ofBool b4 ++
      BitVec.ofBool b3 ++ BitVec.ofBool b2 ++ BitVec.ofBool b1 ++ BitVec.ofBool b0 := by
  decide

/-- One byte transfer receives the next eight levels, the first in bit 7 (R90). -/
theorem xferByte_level (s : State) : (xferByte params 0x00 s).1 = levelByte s 0 := by
  simp only [levelByte, ← byte_of_bits, xferByte, xferBits, readDataIn_level, drive_dataIn,
    readDataIn_dataIn, afterSample_eq, samplesTaken_add, ← levelAt_zero, levelAt_samplesTaken]

theorem xferByte_zero (s : State) (hc : s.clk = false) (hd : s.dataOut = false) :
    ∃ es, es.length = 32 ∧ (∀ e ∈ es, dull e = true) ∧
      (xferByte params 0x00 s).2 =
        { s with dataIn := samplesTaken 8 s.dataIn, pinTrace := s.pinTrace ++ es } ∧
      lastLevel .clk es false = false ∧ lastLevel .dataOut es false = false :=
  xferBits_zero 8 0 s hc hd

theorem levelByte_samplesTaken (s t : State) (m k : Nat)
    (h : t.dataIn = samplesTaken m s.dataIn) : levelByte t k = levelByte s (m + k) := by
  simp only [levelByte, h, levelAt_samplesTaken, Nat.add_assoc]

theorem reconstruct_eq (b0 b1 b2 b3 : BitVec 8) :
    reconstruct b0 b1 b2 b3 = BitVec.ofNat 32 (b0.toNat * 2 ^ 25 + b1.toNat * 2 ^ 17 +
      b2.toNat * 2 ^ 9 + b3.toNat * 2) := by
  have h : reconstruct b0 b1 b2 b3 = (b0.setWidth 32 <<< 25) + (b1.setWidth 32 <<< 17) +
      (b2.setWidth 32 <<< 9) + (b3.setWidth 32 <<< 1) := by
    rw [reconstruct, BitVec.add_eq_or_of_and_eq_zero, BitVec.add_eq_or_of_and_eq_zero,
      BitVec.add_eq_or_of_and_eq_zero]
    · apply BitVec.eq_of_getLsbD_eq; intro k hk; interval_cases k <;> simp
    · rw [BitVec.add_eq_or_of_and_eq_zero]
      · apply BitVec.eq_of_getLsbD_eq; intro k hk; interval_cases k <;> simp
      · apply BitVec.eq_of_getLsbD_eq; intro k hk; interval_cases k <;> simp
    · rw [BitVec.add_eq_or_of_and_eq_zero, BitVec.add_eq_or_of_and_eq_zero]
      · apply BitVec.eq_of_getLsbD_eq; intro k hk; interval_cases k <;> simp
      · apply BitVec.eq_of_getLsbD_eq; intro k hk; interval_cases k <;> simp
      · rw [BitVec.add_eq_or_of_and_eq_zero]
        · apply BitVec.eq_of_getLsbD_eq; intro k hk; interval_cases k <;> simp
        · apply BitVec.eq_of_getLsbD_eq; intro k hk; interval_cases k <;> simp
  rw [h]
  apply BitVec.eq_of_toNat_eq
  simp only [BitVec.toNat_add, BitVec.toNat_shiftLeft, BitVec.toNat_setWidth, BitVec.toNat_ofNat,
    Nat.shiftLeft_eq]
  have := b0.isLt; have := b1.isLt; have := b2.isLt; have := b3.isLt
  omega

end Sys2Proof.Machine
end

