-- ==== Sys2Proof/Laws/Readback.lean ====
section
/-!
SUPPORT. The readback of `READREG6` as a whole (R89 to R92), and the ADC readings built on it (R116,
R117, R119).
-/

namespace Sys2Proof.Machine

/-! ### The read phase -/

theorem trailing_dull : ∀ e ∈ (List.replicate params.readTrailingBytes
    (List.replicate 8 false)).flatten.flatMap (bitEvents params), dull e = true := by
  decide

/-- The run of the read phase: the word the environment answers, 152 events, no frame (R89 steps (c)
and (d), R177). -/
theorem shiftIn_spec (s : State) (hc : s.clk = false) (hd : s.dataOut = false) :
    (shiftIn params s).1 = answeredWord s 0 ∧
    ∃ es, es.length = 152 ∧ (∀ e ∈ es, dull e = true) ∧
      (shiftIn params s).2 =
        { s with dataIn := samplesTaken 32 s.dataIn, pinTrace := s.pinTrace ++ es } ∧
      lastLevel .clk es false = false ∧ lastLevel .dataOut es false = false := by
  obtain ⟨e0, l0, d0, q0, c0, o0⟩ := xferByte_zero s hc hd
  obtain ⟨e1, l1, d1, q1, c1, o1⟩ := xferByte_zero (xferByte params 0x00 s).2
    (by rw [q0]; exact hc) (by rw [q0]; exact hd)
  obtain ⟨e2, l2, d2, q2, c2, o2⟩ := xferByte_zero
    (xferByte params 0x00 (xferByte params 0x00 s).2).2
    (by rw [q1, q0]; exact hc) (by rw [q1, q0]; exact hd)
  obtain ⟨e3, l3, d3, q3, c3, o3⟩ := xferByte_zero
    (xferByte params 0x00 (xferByte params 0x00 (xferByte params 0x00 s).2).2).2
    (by rw [q2, q1, q0]; exact hc) (by rw [q2, q1, q0]; exact hd)
  constructor
  · have b1 : levelByte (xferByte params 0x00 s).2 0 = levelByte s 8 :=
      levelByte_samplesTaken s _ 8 0 (by rw [q0])
    have b2 : levelByte (xferByte params 0x00 (xferByte params 0x00 s).2).2 0 = levelByte s 16 :=
      levelByte_samplesTaken s _ 16 0 (by rw [q1, q0, samplesTaken_add])
    have b3 : levelByte
        (xferByte params 0x00 (xferByte params 0x00 (xferByte params 0x00 s).2).2).2 0 =
        levelByte s 24 :=
      levelByte_samplesTaken s _ 24 0 (by rw [q2, q1, q0, samplesTaken_add, samplesTaken_add])
    simp only [shiftIn, xferByte_level, b1, b2, b3, reconstruct_eq, answeredWord, Nat.zero_add]
  · let tr := (List.replicate params.readTrailingBytes
      (List.replicate 8 false)).flatten.flatMap (bitEvents params)
    refine ⟨e0 ++ e1 ++ e2 ++ e3 ++ tr, ?_, ?_, ?_, ?_, ?_⟩
    · simp only [List.length_append, l0, l1, l2, l3]; rfl
    · intro e he
      simp only [List.mem_append] at he
      rcases he with (((he | he) | he) | he) | he
      · exact d0 e he
      · exact d1 e he
      · exact d2 e he
      · exact d3 e he
      · exact trailing_dull e he
    · show trailingBytes params (xferByte params 0x00 (xferByte params 0x00
        (xferByte params 0x00 (xferByte params 0x00 s).2).2).2).2 = _
      rw [q3, q2, q1, q0]
      have t1 : lastLevel .le tr s.le = s.le := dull_le tr trailing_dull _
      have t2 : lastLevel .clk tr s.clk = s.clk := by rw [hc]; rfl
      have t3 : lastLevel .dataOut tr s.dataOut = s.dataOut := by rw [hd]; rfl
      simp only [trailingBytes, drive, samplesTaken_add, t1, t2, t3, tr, List.append_assoc]
    · simp only [lastLevel_append, c0, c1, c2, c3]; rfl
    · simp only [lastLevel_append, o0, o1, o2, o3]; rfl

/-! ### The request and the end of the routing -/

/-- The local registers with the multiplexer fields at their readback values (R89 step (a)). -/
def routed (s : State) : State := setFields layoutDoc [(.muxhi, 1), (.muxlo, 4)] s

/-- The words of the three frames of `READREG6` (R89). -/
def readbackWords (s : State) : List Word :=
  [readReg 5 (routed s), readReg 2 (routed s), 0x00000006]

theorem routed_tagsOk {s : State} (hs : TagsOk s) : TagsOk (routed s) := setFields_tagsOk _ _ hs

theorem linkSame_setFields (l : Layout) (fs : List (Field × Nat)) (s : State) :
    LinkSame s (setFields l fs s) := by simp [LinkSame]

theorem requestReadback_eq (s : State) : requestReadback params s =
    sendFrame params 0x00000006 (sendReg params 2 (sendReg params 5 (routed s))) := rfl

theorem requestReadback_carries (s : State) (hc : s.clk = false) :
    Carries s (requestReadback params s)
      ((readbackWords s).flatMap (frameEvents params)) (readbackWords s) := by
  have h0 := Carries.of_same (linkSame_setFields layoutDoc [(.muxhi, 1), (.muxlo, 4)] s)
  have h1 := h0.trans (sendReg_carries 5 _ (by simpa using hc))
  have h2 := h1.trans (sendReg_carries 2 _ (sendReg_clk 5 _))
  have h3 := h2.trans (sendFrame_carries 0x00000006 _ (sendReg_clk 2 _))
  simpa [readbackWords, requestReadback_eq, routed, List.append_assoc] using h3

/-- Putting back the two multiplexer fields undoes the routing (R92). -/
theorem restore_routed {s : State} (hs : TagsOk s) (i : RegIndex) :
    readReg i (setFields layoutDoc [(.muxhi, getField layoutDoc .muxhi s),
      (.muxlo, getField layoutDoc .muxlo s)] (routed s)) = readReg i s := by
  apply BitVec.eq_of_getLsbD_eq
  intro k _
  have h1 := routed_tagsOk hs
  have h2 := setField_tagsOk layoutDoc .muxhi (getField layoutDoc .muxhi s) h1
  show (readReg i (setField layoutDoc .muxlo _ (setField layoutDoc .muxhi _ (routed s)))).getLsbD k
    = _
  rw [setField_getLsbD layoutDoc_ok _ _ h2, setField_getLsbD layoutDoc_ok _ _ h1]
  split
  · next h =>
    obtain ⟨rfl, h3, h4⟩ := h
    rw [getField, getBits_testBit (layoutDoc_place _), Nat.add_sub_cancel' h3]
    simp [show k - (layoutDoc .muxlo).lsb < (layoutDoc .muxlo).width by omega]
  · next hlo =>
    split
    · next h =>
      obtain ⟨rfl, h3, h4⟩ := h
      rw [getField, getBits_testBit (layoutDoc_place _), Nat.add_sub_cancel' h3]
      simp [show k - (layoutDoc .muxhi).lsb < (layoutDoc .muxhi).width by omega]
    · next hhi =>
      rw [routed, setFields_getLsbD_ne layoutDoc_ok _ hs]
      intro fx hf
      simp only [List.mem_cons, List.not_mem_nil, or_false] at hf
      rcases hf with rfl | rfl
      · exact fun ⟨a, b⟩ => hhi ⟨a.symm, b⟩
      · exact fun ⟨a, b⟩ => hlo ⟨a.symm, b⟩

/-- `READREG6` as a whole, between commands: the answered word, the registers as they were, 446
events in three frames, 32 samples (R89, R92, R177). -/
theorem readReg6_spec {s : State} (hs : TagsOk s) (hc : s.clk = false) :
    (readReg6 params s).1 = answeredWord s 0 ∧
    (readReg6 params s).2.regs = s.regs ∧
    (readReg6 params s).2.dataIn = samplesTaken 32 s.dataIn ∧
    (readReg6 params s).2.clk = false ∧ (readReg6 params s).2.le = true ∧
    (readReg6 params s).2.dataOut = false ∧
    ∃ es, es.length = 446 ∧ es.countP isWait = 0 ∧
      Carries s (readReg6 params s).2 es (readbackWords s) := by
  have hq := requestReadback_carries s hc
  have qc : (requestReadback params s).clk = false := by simp [requestReadback_eq]
  have qd : (requestReadback params s).dataOut = false := by simp [requestReadback_eq]
  have ql : (requestReadback params s).le = true := by simp [requestReadback_eq]
  obtain ⟨hw, es, hl, hdull, hst, h1, h2⟩ := shiftIn_spec (requestReadback params s) qc qd
  have hend : (readReg6 params s).2 = setFields layoutDoc
      [(.muxhi, getField layoutDoc .muxhi s), (.muxlo, getField layoutDoc .muxlo s)]
      (shiftIn params (requestReadback params s)).2 := rfl
  have hregs : (shiftIn params (requestReadback params s)).2.regs = (routed s).regs := by
    simp [requestReadback_eq]
  have hcar : Carries (requestReadback params s) (shiftIn params (requestReadback params s)).2
      es [] := by
    constructor
    · rw [hst]
    · rw [hst, dull_le es hdull]
    · rw [hst, qc, h1]
    · rw [hst, qd, h2]
    · rw [hst]; rfl
    · rw [hst]; rfl
    · intro w0
      rw [hear_dull es hdull _ ql, hst]
      simp [qc, qd, h1, h2]
  have hin : (requestReadback params s).dataIn = s.dataIn := by simp
  refine ⟨?_, ?_, ?_, ?_, ?_, ?_, (readbackWords s).flatMap (frameEvents params) ++ es, ?_, ?_, ?_⟩
  · show (shiftIn params (requestReadback params s)).1 = _
    rw [hw]
    simp only [answeredWord, levelByte, hin]
  · apply regs_ext
    intro i
    rw [hend, ← restore_routed hs i]
    exact readReg_of_regs (setFields_regs_congr _ _ hregs) i
  · rw [hend]; simp [hst]
  · rw [hend, setFields_clk, hst]; exact qc
  · rw [hend, setFields_le, hst]; exact ql
  · rw [hend, setFields_dataOut, hst]; exact qd
  · simp [readbackWords, frameEvents_length, hl]
  · simp [readbackWords, frameEvents_noWait, dull_noWait es hdull]
  · have := (hq.trans hcar).trans (Carries.of_same (linkSame_setFields layoutDoc
      [(.muxhi, getField layoutDoc .muxhi s), (.muxlo, getField layoutDoc .muxlo s)]
      (shiftIn params (requestReadback params s)).2))
    rw [hend]
    simpa using this

/-! ### One ADC reading -/

/-- The local registers with the ADC fields set for a conversion (R117). -/
def converting (mode : Nat) (s : State) : State :=
  setFields layoutDoc [(.adcm, mode), (.adcs, 1)] s

/-- The local registers with the ADC fields at idle (R117, R124). -/
def adcIdle (s : State) : State := setFields layoutDoc [(.adcm, 0), (.adcs, 0)] s

/-- The words of the five frames of an ADC reading (R117). -/
def adcWords (mode : Nat) (s : State) : List Word :=
  [readReg 5 (converting mode s)] ++ readbackWords (converting mode s) ++ [readReg 5 (adcIdle s)]

theorem adcIdle_converting (mode : Nat) {s : State} (hs : TagsOk s) :
    (adcIdle (converting mode s)).regs = (adcIdle s).regs := by
  apply regs_ext
  intro i
  apply BitVec.eq_of_getLsbD_eq
  intro k _
  have h4 := setField_tagsOk layoutDoc .adcm mode hs
  have h1 := setField_tagsOk layoutDoc .adcs 1 h4
  have h2 := setField_tagsOk layoutDoc .adcm 0 h1
  have h3 := setField_tagsOk layoutDoc .adcm 0 hs
  show (readReg i (setField layoutDoc .adcs 0 (setField layoutDoc .adcm 0
      (setField layoutDoc .adcs 1 (setField layoutDoc .adcm mode s))))).getLsbD k =
    (readReg i (setField layoutDoc .adcs 0 (setField layoutDoc .adcm 0 s))).getLsbD k
  rw [setField_getLsbD layoutDoc_ok _ _ h2, setField_getLsbD layoutDoc_ok _ _ h1,
    setField_getLsbD layoutDoc_ok _ _ h4, setField_getLsbD layoutDoc_ok _ _ hs,
    setField_getLsbD layoutDoc_ok _ _ h3, setField_getLsbD layoutDoc_ok _ _ hs]
  split
  · rfl
  · split <;> rfl

theorem linkSame_writeReg (i : RegIndex) (v : Word) (s : State) : LinkSame s (writeReg i v s) := by
  simp [LinkSame]

/-- The settle wait is one event and no frame (R176). -/
theorem wait_carries (us : Nat) (s : State) : Carries s (wait us s) [.wait us] [] :=
  ⟨rfl, rfl, rfl, rfl, rfl, rfl, by simp [hear, wait]⟩

/-- An ADC reading as a whole, between commands: registers 0 to 5 as they were but the ADC fields at
idle, register 6 the answered word, 642 pin events and one wait in five frames (R117, R124, R177). -/
theorem sampleAdc_spec (mode : Nat) {s : State} (hs : TagsOk s) (hc : s.clk = false) :
    (sampleAdc params mode s).regs = (writeReg 6 (answeredWord s 0) (adcIdle s)).regs ∧
    (sampleAdc params mode s).dataIn = samplesTaken 32 s.dataIn ∧
    (sampleAdc params mode s).clk = false ∧ (sampleAdc params mode s).le = true ∧
    ∃ es, es.length = 643 ∧ es.countP isWait = 1 ∧
      Carries s (sampleAdc params mode s) es (adcWords mode s) := by
  let s1 := wait params.tSettle (sendReg params 5 (converting mode s))
  let u := (readReg6 params s1).2
  let s2 := sendReg params 5 (adcIdle u)
  have hdef : sampleAdc params mode s = writeReg 6 (readReg6 params s1).1 s2 := rfl
  have c1 : s1.clk = false := by simp [s1]
  have r1 : s1.regs = (converting mode s).regs := by simp [s1]
  have hs1 : TagsOk s1 := tagsOk_of_regs r1 (setFields_tagsOk _ _ hs)
  obtain ⟨hw, hr, hd, hcu, hlu, hou, es, hl, hn, hcar⟩ := readReg6_spec hs1 c1
  have hi1 : s1.dataIn = s.dataIn := by simp [s1, converting]
  have ha : answeredWord s1 0 = answeredWord s 0 := by simp only [answeredWord, levelByte, hi1]
  have hru : u.regs = (converting mode s).regs := hr.trans r1
  have hidle : (adcIdle u).regs = (adcIdle s).regs :=
    (setFields_regs_congr _ _ hru).trans (adcIdle_converting mode hs)
  have hroute : readbackWords s1 = readbackWords (converting mode s) := by
    simp only [readbackWords, routed]
    rw [readReg_of_regs (setFields_regs_congr _ _ r1), readReg_of_regs (setFields_regs_congr _ _ r1)]
  have hcar0 : Carries s s1 (frameEvents params (readReg 5 (converting mode s)) ++
      [.wait params.tSettle]) [readReg 5 (converting mode s)] := by
    have h0 := Carries.of_same (linkSame_setFields layoutDoc [(.adcm, mode), (.adcs, 1)] s)
    have h1 := h0.trans (sendReg_carries 5 (converting mode s) (by simpa [converting] using hc))
    simpa [s1] using h1.trans (wait_carries params.tSettle _)
  have hcar2 : Carries u s2 (frameEvents params (readReg 5 (adcIdle s))) [readReg 5 (adcIdle s)] := by
    have h0 := Carries.of_same (linkSame_setFields layoutDoc [(.adcm, 0), (.adcs, 0)] u)
    have h1 := h0.trans (sendReg_carries 5 (adcIdle u) (by simpa [adcIdle, u] using hcu))
    rw [readReg_of_regs hidle] at h1
    simpa using h1
  refine ⟨?_, ?_, ?_, ?_, (frameEvents params (readReg 5 (converting mode s)) ++
    [.wait params.tSettle]) ++ es ++ frameEvents params (readReg 5 (adcIdle s)), ?_, ?_, ?_⟩
  · rw [hdef, hw, ha]
    apply regs_ext
    intro i
    rw [readReg_writeReg, readReg_writeReg, readReg_sendReg, readReg_of_regs hidle]
  · rw [hdef]
    simp only [writeReg_dataIn, s2, sendReg_dataIn, adcIdle, setFields_dataIn]
    rw [hd, hi1]
  · rw [hdef]; simp [s2]
  · rw [hdef]; simp [s2]
  · simp [frameEvents_length, hl]
  · simp only [List.countP_append, List.countP_cons, List.countP_nil, frameEvents_noWait, hn]
    rfl
  · have h := ((hcar0.trans hcar).trans hcar2).trans
      (Carries.of_same (linkSame_writeReg 6 (readReg6 params s1).1 s2))
    rw [hroute] at h
    rw [hdef]
    simpa [adcWords] using h

end Sys2Proof.Machine
end

