-- ==== Sys2Proof/Laws/Commands.lean ====
section
/-!
SUPPORT. What running a command can do, said once (R66, R73, R149), and the operand forms (R62, R63).
-/

namespace Sys2Proof.Machine

/-! ### Completing and failing -/

theorem runCommand_ok {op : BitVec 8} {body : State → Except Code (ResultData × State)}
    {s t : State} {d : ResultData} (h : body (accept op s) = .ok (d, t)) :
    runCommand op body s = .next (respond .ok d t) := by
  simp [runCommand, h]

theorem runCommand_error {op : BitVec 8} {body : State → Except Code (ResultData × State)}
    {s : State} {c : Code} (h : body (accept op s) = .error c) :
    runCommand op body s = .next (raiseError c s) := by
  simp [runCommand, h]

/-- Everything a command can do: complete with its data and the state its body leaves, or end with an
error on the state it started from. -/
theorem runCommand_cases {op : BitVec 8} {body : State → Except Code (ResultData × State)}
    {s t : State} (h : runCommand op body s = .next t) :
    (∃ d u, body (accept op s) = .ok (d, u) ∧ t = respond .ok d u) ∨
    (∃ c, body (accept op s) = .error c ∧ t = raiseError c s) := by
  cases hb : body (accept op s) with
  | ok du =>
    obtain ⟨d, u⟩ := du
    rw [runCommand_ok hb] at h
    exact .inl ⟨d, u, rfl, by simpa using h.symm⟩
  | error c =>
    rw [runCommand_error hb] at h
    exact .inr ⟨c, rfl, by simpa using h.symm⟩

/-- A raised error leaves everything but the record of it as it was (R149). -/
theorem raiseError_failed {c : Code} (hc : c ≠ .ok) (s : State) :
    Failed s (raiseError c s) (statusByte c) := by
  cases c <;> simp [Failed, raiseError, respond] at hc ⊢

theorem statusByte_le (c : Code) : (statusByte c).toNat ≤ 7 := by cases c <;> decide

theorem statusByte_eq_zero {c : Code} : statusByte c = 0 ↔ c = .ok := by cases c <;> decide

/-- A command that completes answers its data with `OK` (R66). -/
theorem respond_answered (d : ResultData) {s t : State}
    (he : t.errorSeen = s.errorSeen) (ho : t.offers = s.offers) :
    Answered s (respond .ok d t) d := by
  simp [Answered, he, ho, statusByte]

/-! ### Operands -/

theorem regOperand_ok {a : BitVec 32} {i : RegIndex} (h : a.toNat = i.val) :
    regOperand a = .ok i := by
  simp [regOperand, h]

theorem regOperand_error {a : BitVec 32} (h : 6 < a.toNat) : regOperand a = .error .index := by
  simp [regOperand, show ¬a.toNat < 7 by omega]

theorem regOperand_cases {a : BitVec 32} {r : Except Code RegIndex} (h : regOperand a = r) :
    (∃ i : RegIndex, a.toNat = i.val ∧ r = .ok i) ∨ (6 < a.toNat ∧ r = .error .index) := by
  by_cases ha : a.toNat < 7
  · exact .inl ⟨⟨a.toNat, ha⟩, rfl, by rw [← h, regOperand_ok (i := ⟨a.toNat, ha⟩) rfl]⟩
  · exact .inr ⟨by omega, by rw [← h, regOperand_error (by omega)]⟩

/-- The id of a field (R16, R63). -/
def fieldId (f : Field) : Nat := fieldsById.idxOf f

theorem fieldsById_fieldId (f : Field) : fieldsById[fieldId f]? = some f := by cases f <;> decide

theorem fieldId_of_getElem {k : Nat} {f : Field} (h : fieldsById[k]? = some f) :
    fieldId f = k := by
  have hk : k < 30 := by
    by_contra hk
    rw [List.getElem?_eq_none (by simpa [fieldsById] using hk)] at h
    cases h
  interval_cases k <;> (cases h; decide)

theorem fieldOperand_ok {a : BitVec 32} {f : Field} (h : a.toNat = fieldId f) :
    fieldOperand a = .ok f := by
  simp [fieldOperand, h, fieldsById_fieldId]

theorem fieldOperand_error {a : BitVec 32} (h : 29 < a.toNat) :
    fieldOperand a = .error .index := by
  have : fieldsById[a.toNat]? = none := List.getElem?_eq_none (by simp [fieldsById]; omega)
  simp [fieldOperand, this]

theorem fieldOperand_cases {a : BitVec 32} {r : Except Code Field} (h : fieldOperand a = r) :
    (∃ f, a.toNat = fieldId f ∧ r = .ok f) ∨ (29 < a.toNat ∧ r = .error .index) := by
  by_cases ha : 29 < a.toNat
  · exact .inr ⟨ha, by rw [← h, fieldOperand_error ha]⟩
  · have hlt : a.toNat < fieldsById.length := by simp [fieldsById]; omega
    have hf := List.getElem?_eq_getElem hlt
    exact .inl ⟨_, (fieldId_of_getElem hf).symm,
      by rw [← h, fieldOperand_ok (fieldId_of_getElem hf).symm]⟩

theorem getBits_dataOfField {x : Nat} (h : x < 2 ^ 16) : (dataOfField x).toNat = x := by
  simp only [dataOfField, BitVec.toNat_setWidth, BitVec.toNat_ofNat]
  omega

end Sys2Proof.Machine
end

