-- ==== Sys2Proof/Laws/Engine.lean ====
section
/-!
SUPPORT. The Synthesis Engine: the arithmetic primitives (R10), the search for `diva` (R100), and what
`SETPFD` and `SETFREQ` can answer (R96, R97, R99, R107).
-/

namespace Sys2Proof.Machine

/-! ### Arithmetic -/

theorem rha_of_nonneg {x : ℚ} (h : 0 ≤ x) : rha x = ⌊x + 1 / 2⌋ := by simp [rha, h]

theorem rha_nonneg {x : ℚ} (h : 0 ≤ x) : 0 ≤ rha x := by
  rw [rha_of_nonneg h, Int.floor_nonneg]
  linarith

/-- Rounding is by at most one half. -/
theorem abs_sub_rha_le {x : ℚ} (h : 0 ≤ x) : |x - rha x| ≤ 1 / 2 := by
  rw [rha_of_nonneg h, abs_le]
  have h1 := Int.floor_le (x + 1 / 2)
  have h2 := Int.lt_floor_add_one (x + 1 / 2)
  constructor <;> linarith

/-- The rounding of a value by its fractional part: down below one half, up from one half (R102). -/
theorem rha_eq_floor {x : ℚ} (h : 0 ≤ x) :
    rha x = if Int.fract x < 1 / 2 then ⌊x⌋ else ⌊x⌋ + 1 := by
  rw [rha_of_nonneg h]
  have hf := Int.floor_add_fract x
  have h0 := Int.fract_nonneg x
  have h1 := Int.fract_lt_one x
  split
  · rw [Int.floor_eq_iff]
    constructor <;> linarith
  · rw [Int.floor_eq_iff]
    constructor <;> push_cast <;> linarith

theorem clampInt_mem {x a b : Int} (h : a ≤ b) : a ≤ clampInt x a b ∧ clampInt x a b ≤ b := by
  unfold clampInt
  split
  · exact ⟨le_refl _, h⟩
  · split
    · exact ⟨h, le_refl _⟩
    · exact ⟨by omega, by omega⟩

/-! ### The search for `diva` -/

theorem divaFrom_ok {p : Params} {f : ℚ} {fuel d n : Nat} (h : divaFrom p f fuel d = .ok n) :
    d ≤ n ∧ n < d + fuel ∧ p.vcoFloor ≤ f * 2 ^ n ∧ ∀ m, d ≤ m → m < n → f * 2 ^ m < p.vcoFloor := by
  induction fuel generalizing d with
  | zero => simp [divaFrom] at h
  | succ fuel ih =>
    rw [divaFrom] at h
    split at h
    · next hlt =>
      obtain ⟨h1, h2, h3, h4⟩ := ih h
      refine ⟨by omega, by omega, h3, fun m hm hmn => ?_⟩
      by_cases hd : m = d
      · exact hd ▸ hlt
      · exact h4 m (by omega) hmn
    · next hge =>
      obtain rfl : d = n := by simpa using h
      exact ⟨le_refl _, by omega, not_lt.1 hge, fun m h1 h2 => absurd h1 (by omega)⟩

theorem divaFrom_error {p : Params} {f : ℚ} {fuel d : Nat} {c : Code}
    (h : divaFrom p f fuel d = .error c) :
    c = .range ∧ ∀ m, d ≤ m → m < d + fuel → f * 2 ^ m < p.vcoFloor := by
  induction fuel generalizing d with
  | zero =>
    simp only [divaFrom, Except.error.injEq] at h
    exact ⟨h.symm, fun m h1 h2 => absurd h1 (by omega)⟩
  | succ fuel ih =>
    rw [divaFrom] at h
    split at h
    · next hlt =>
      obtain ⟨h1, h2⟩ := ih h
      refine ⟨h1, fun m hm hmn => ?_⟩
      by_cases hd : m = d
      · exact hd ▸ hlt
      · exact h2 m (by omega) (by omega)
    · cases h

/-! ### SETPFD -/

/-- The state `SETPFD` leaves when its checks pass (R96). -/
def pfdSet (a b : BitVec 32) (s : State) : State :=
  { s with
    fRef := some (freqOperand params a)
    rdivS := some b.toNat
    fPfd := some (freqOperand params a / (b.toNat : ℚ)) }

theorem setPfd_ok {a b : BitVec 32} (ha : a ≠ 0) (hb : b ≠ 0) (hb' : b.toNat ≤ 1023) (s : State) :
    setPfd params a b s = .ok (writeAll params (setFields layoutDoc
      (pfdFields params (freqOperand params a / (b.toNat : ℚ)) b.toNat) (pfdSet a b s))) := by
  have h1 : ¬(a = 0 ∨ b = 0) := not_or.2 ⟨ha, hb⟩
  have h2 : ¬ 2 ^ (params.layout .rdiv).width - 1 < b.toNat := by
    have : (params.layout .rdiv).width = 10 := rfl
    rw [this]; omega
  rw [setPfd, if_neg h1, if_neg h2]
  rfl

/-- Everything `SETPFD` can answer: the two errors in their order, or the state of R96. -/
theorem setPfd_cases (a b : BitVec 32) (s : State) :
    ((a = 0 ∨ b = 0) ∧ setPfd params a b s = .error .zero) ∨
    (a ≠ 0 ∧ b ≠ 0 ∧ 1023 < b.toNat ∧ setPfd params a b s = .error .field) ∨
    (a ≠ 0 ∧ b ≠ 0 ∧ b.toNat ≤ 1023 ∧
      setPfd params a b s = .ok (writeAll params (setFields layoutDoc
        (pfdFields params (freqOperand params a / (b.toNat : ℚ)) b.toNat) (pfdSet a b s)))) := by
  by_cases h0 : a = 0 ∨ b = 0
  · exact .inl ⟨h0, by rw [setPfd, if_pos h0]⟩
  · obtain ⟨ha, hb⟩ := not_or.1 h0
    by_cases h1 : b.toNat ≤ 1023
    · exact .inr (.inr ⟨ha, hb, h1, setPfd_ok ha hb h1 s⟩)
    · refine .inr (.inl ⟨ha, hb, by omega, ?_⟩)
      have h2 : 2 ^ (params.layout .rdiv).width - 1 < b.toNat := by
        have : (params.layout .rdiv).width = 10 := rfl
        rw [this]; omega
      rw [setPfd, if_neg h0, if_pos h2]

/-! ### SETFREQ -/

theorem freqOperand_eq (a : BitVec 32) : freqOperand params a = (a.toNat : ℚ) / 1000 := by
  simp [freqOperand, div_eq_mul_inv]

/-- The `N` to store is a quotient by a power of two: `2^diva` in integer mode, 1 in fractional mode;
the integer-mode quotient is exact (R103, R105). -/
theorem storedN_ok {nPre frac : Int} {diva : Nat} {n : Int}
    (h : storedN params nPre frac diva = .ok n) :
    (frac = 0 ∧ nPre = n * 2 ^ diva) ∨ (frac ≠ 0 ∧ nPre = n) := by
  unfold storedN at h
  split at h
  · next h0 =>
    refine .inl ⟨h0, ?_⟩
    unfold rescale at h
    split at h
    · simp at h
    · next hm =>
      have hm : nPre % 2 ^ diva = 0 := not_not.1 hm
      obtain rfl : nPre / 2 ^ diva = n := by simpa using h
      exact (Int.ediv_mul_cancel (Int.dvd_of_emod_eq_zero hm)).symm
  · next h0 =>
    exact .inr ⟨h0, by simpa using h⟩

theorem storedN_error {nPre frac : Int} {diva : Nat} {c : Code}
    (h : storedN params nPre frac diva = .error c) :
    c = .inexact ∧ frac = 0 ∧ nPre % 2 ^ diva ≠ 0 := by
  unfold storedN at h
  split at h
  · next h0 =>
    unfold rescale at h
    split at h
    · next hm =>
      simp only [params_rescaleInexact, Except.error.injEq] at h
      exact ⟨h.symm, h0, hm⟩
    · cases h
  · cases h

/-- What a plan that passes all checks is (R99 to R105). -/
theorem planTuning_ok {pfd f : ℚ} {t : Tuning} (h : planTuning params pfd f = .ok t) :
    params.fOutMin ≤ f ∧ f ≤ params.fOutMax ∧ divaSearch params f = .ok t.diva ∧
    t.nPre = rha (coefficient pfd f t.diva) ∧
    t.frac = fracPart params (coefficient pfd f t.diva) ∧
    storedN params t.nPre t.frac t.diva = .ok t.nStored ∧ t.nStored ≤ 65535 := by
  unfold planTuning at h
  split at h
  · cases h
  · next hr =>
    obtain ⟨h1, h2⟩ := not_or.1 hr
    split at h
    · cases h
    · next d hd =>
      simp only at h
      split at h
      · cases h
      · next n hn =>
        split at h
        · cases h
        · next hN =>
          obtain rfl := by simpa using h
          exact ⟨not_lt.1 h1, not_lt.1 h2, hd, rfl, rfl, hn, by
            have : ((params.layout .n).width) = 16 := rfl
            rw [this] at hN; show n ≤ 65535; omega⟩

/-- Everything `SETFREQ` can answer: an error, or the state of R99 for its plan. -/
theorem setFreq_cases (a : BitVec 32) (s : State) :
    (s.fPfd = none ∧ setFreq params a s = .error .noPfd) ∨
    (∃ pfd c, s.fPfd = some pfd ∧ planTuning params pfd (freqOperand params a) = .error c ∧
      setFreq params a s = .error c) ∨
    (∃ pfd t, s.fPfd = some pfd ∧ planTuning params pfd (freqOperand params a) = .ok t ∧
      setFreq params a s = .ok (writeAll params (setFields layoutDoc (tuneFields params t)
        { s with fTarget := some (freqOperand params a) }))) := by
  unfold setFreq
  cases hp : s.fPfd with
  | none => exact .inl ⟨rfl, rfl⟩
  | some pfd =>
    cases ht : planTuning params pfd (freqOperand params a) with
    | error c => exact .inr (.inl ⟨pfd, c, rfl, ht, by simp [ht]⟩)
    | ok t => exact .inr (.inr ⟨pfd, t, rfl, ht, by simp [ht]⟩)

end Sys2Proof.Machine
end

