-- ==== Sys2Proof/Laws/Spec.lean ====
section
/-!
SUPPORT. The operations in the terms of the statements: bits replaced in a word, the events of a frame,
of a readback and of an ADC reading written out, what one frame, `WRITEALL`, `READREG6` and an ADC
reading leave (R15, R85, R87, R89, R117), for every state, also one whose pins are not between commands.
-/

namespace Sys2Proof.Machine

/-! ### Words -/

theorem replaceBits_getLsbD {lsb width : Nat} (h : lsb + width ≤ 32) (x : Nat) (v : Word) (k : Nat) :
    (replaceBits lsb width x v).getLsbD k =
      if lsb ≤ k ∧ k < lsb + width then x.testBit (k - lsb) else v.getLsbD k := by
  have e : v.toNat % 2 ^ lsb + x % 2 ^ width * 2 ^ lsb +
      v.toNat / 2 ^ (lsb + width) * 2 ^ (lsb + width) =
      2 ^ lsb * (2 ^ width * (v.toNat / 2 ^ (lsb + width)) + x % 2 ^ width) + v.toNat % 2 ^ lsb := by
    rw [pow_add]; ring
  by_cases hk : k < 32
  · rw [replaceBits, e, BitVec.getLsbD_ofNat, decide_eq_true hk, Bool.true_and,
      Nat.testBit_two_pow_mul_add _ (Nat.mod_lt _ (by positivity)),
      Nat.testBit_two_pow_mul_add _ (Nat.mod_lt _ (by positivity))]
    simp only [Nat.testBit_mod_two_pow, Nat.testBit_div_two_pow, ← BitVec.testBit_toNat]
    by_cases h1 : k < lsb
    · simp [h1, show ¬ lsb ≤ k by omega]
    · by_cases h2 : k - lsb < width
      · simp [h1, h2, show lsb ≤ k by omega, show k < lsb + width by omega]
      · simp only [h1, h2, if_false]
        rw [if_neg (by omega)]
        congr 1; omega
  · rw [BitVec.getLsbD_of_ge _ _ (by omega), if_neg (by omega), BitVec.getLsbD_of_ge _ _ (by omega)]

theorem putBits_eq_replaceBits {pl : Place} (h : placeOk pl = true) (x : Nat) (v : Word) :
    putBits pl x v = replaceBits pl.lsb pl.width x v := by
  apply BitVec.eq_of_getLsbD_eq
  intro k _
  rw [putBits_getLsbD h, replaceBits_getLsbD ((placeOk_iff pl).1 h).2.1]

theorem tagged_eq_ofNat (i : RegIndex) (v : Word) :
    tagged i v = BitVec.ofNat 32 (v.toNat / 8 * 8 + i.val) := by
  apply BitVec.eq_of_getLsbD_eq
  intro k hk
  rw [tagged_getLsbD, BitVec.getLsbD_ofNat, decide_eq_true hk, Bool.true_and,
    show v.toNat / 8 * 8 + i.val = 2 ^ 3 * (v.toNat / 2 ^ 3) + i.val by norm_num; omega,
    Nat.testBit_two_pow_mul_add _ (by omega)]
  split
  · rfl
  · rw [Nat.testBit_div_two_pow, BitVec.testBit_toNat]
    congr 1; omega

/-- A field write, as bits replaced in the field's register (R15). -/
theorem readReg_setField_replace {s : State} (hs : TagsOk s) (f : Field) (x : Nat) (i : RegIndex) :
    readReg i (setField layoutDoc f x s) =
      if i = (layoutDoc f).reg then replaceBits (layoutDoc f).lsb (layoutDoc f).width x (readReg i s)
      else readReg i s := by
  apply BitVec.eq_of_getLsbD_eq
  intro k _
  rw [setField_getLsbD layoutDoc_ok f x hs]
  have := ((placeOk_iff _).1 (layoutDoc_place f)).2.1
  split
  · next h => rw [if_pos h.1, replaceBits_getLsbD this, if_pos h.2]
  · next h =>
    split
    · next h1 => rw [replaceBits_getLsbD this, if_neg fun h2 => h ⟨h1, h2⟩]
    · rfl

/-- The value of a field is that of its bits in its register's word (R15). -/
theorem fieldValue_of_word {f : Field} {s : State} {w : Word}
    (h : readReg (layoutDoc f).reg s = w) :
    fieldValue f s = w.toNat / 2 ^ (layoutDoc f).lsb % 2 ^ (layoutDoc f).width := by
  rw [fieldValue, h]

theorem fieldValue_congr {f : Field} {s t : State}
    (h : readReg (layoutDoc f).reg t = readReg (layoutDoc f).reg s) :
    fieldValue f t = fieldValue f s := by rw [fieldValue, fieldValue, h]

theorem fieldValue_setFields (f : Field) (fs : List (Field × Nat)) (s : State) :
    fieldValue f (setFields layoutDoc fs s) = lastWrite f (fieldValue f s) fs := by
  rw [← getField_eq_fieldValue, ← getField_eq_fieldValue, getField_setFields]

/-! ### One frame, and all six -/

theorem frameEvents_eq (v : Word) : frameEvents params v = frameOf v := rfl

@[simp] theorem frameOf_length (v : Word) : (frameOf v).length = 98 := frameEvents_length v

@[simp] theorem memWrite_pinTrace' (v : Word) (s : State) :
    (memWrite v s).pinTrace = s.pinTrace := by
  unfold memWrite; split <;> [rfl; (split <;> rfl)]

theorem sendFrame_pinTrace (v : Word) (s : State) :
    (sendFrame params v s).pinTrace = s.pinTrace ++ frameOf v := by
  simp [sendFrame, drive, frameEvents_eq]

theorem sendReg_pinTrace (i : RegIndex) (s : State) :
    (sendReg params i s).pinTrace = s.pinTrace ++ frameOf (readReg i s) := sendFrame_pinTrace _ s

theorem serialTag_toNat (v : Word) : (serialTag v).toNat = v.toNat % 8 := by
  simp [serialTag]

/-- One frame leaves exactly what its rule says (R38, R85). -/
theorem sendFrame_sent (v : Word) (s : State) : FrameSent v s (sendFrame params v s) := by
  refine ⟨sendFrame_pinTrace v s, sendFrame_le v s, sendFrame_clk v s, sendFrame_dataOut v s, ?_,
    sendFrame_chipRb params v s⟩
  intro i
  rw [sendFrame_chip, serialTag_toNat]
  have : (i ≠ 6) ↔ i.val ≤ 5 := by
    constructor
    · intro h; have := i.isLt
      by_contra h'; exact h (Fin.ext (show i.val = 6 by omega))
    · rintro h rfl; exact absurd h (by decide)
  simp only [this]

theorem writeAll_pinTrace (s : State) : (writeAll params s).pinTrace =
    s.pinTrace ++ frameOf (readReg 5 s) ++ frameOf (readReg 4 s) ++ frameOf (readReg 3 s) ++
      frameOf (readReg 2 s) ++ frameOf (readReg 1 s) ++ frameOf (readReg 0 s) := by
  simp only [writeAll_eq, sendReg_pinTrace, readReg_sendReg]

theorem tag_bit0 {s : State} (hs : TagsOk s) (i : RegIndex) :
    (readReg i s).getLsbD 0 = i.val.testBit 0 := tag_bit (hs i) (by decide)

theorem chip6_sendReg {s : State} (hs : TagsOk s) (i : RegIndex) (hi : i ≠ 6) :
    (sendReg params i s).chip.get 6 = s.chip.get 6 := by
  rw [sendReg_chip hs i 6 hi, if_neg (fun h => hi h.symm)]

/-- `WRITEALL` leaves exactly what its rule says (R51, R87). -/
theorem writeAll_sent {s : State} (hs : TagsOk s) : ConfigSent s (writeAll params s) := by
  have ht : ∀ (j : RegIndex) (t : State), TagsOk t → TagsOk (sendReg params j t) :=
    fun j t h => tagsOk_of_regs (sendReg_regs params j t) h
  refine ⟨?_, writeAll_le s, writeAll_clk s, ?_, writeAll_inSync hs, ?_, writeAll_chipRb hs⟩
  · simp only [readReg_writeAll, writeAll_pinTrace]
  · rw [writeAll_eq, sendReg, sendFrame_dataOut]
    simp only [readReg_sendReg, tag_bit0 hs]
    rfl
  · rw [writeAll_eq, chip6_sendReg (ht _ _ (ht _ _ (ht _ _ (ht _ _ (ht _ _ hs))))) _ (by decide),
      chip6_sendReg (ht _ _ (ht _ _ (ht _ _ (ht _ _ hs)))) _ (by decide),
      chip6_sendReg (ht _ _ (ht _ _ (ht _ _ hs))) _ (by decide),
      chip6_sendReg (ht _ _ (ht _ _ hs)) _ (by decide),
      chip6_sendReg (ht _ _ hs) _ (by decide), chip6_sendReg hs _ (by decide)]

/-! ### The read phase, written out -/

/-- The events of the bits still to come of a byte transfer of zeros. -/
def inEvents (i : InPort) (n : Nat) : List PinEvent :=
  (List.range n).flatMap fun j =>
    [.write .dataOut false, .write .clk true,
      .read .dataIn (levelAt Config.dataInLevel i j), .write .clk false]

theorem inEvents_succ (i : InPort) (n : Nat) : inEvents i (n + 1) =
    [.write .dataOut false, .write .clk true,
      .read .dataIn (levelAt Config.dataInLevel i 0), .write .clk false] ++
      inEvents (samplesTaken 1 i) n := by
  simp only [inEvents, List.range_succ_eq_map, List.flatMap_cons, List.flatMap_map,
    levelAt_samplesTaken, Nat.add_comm 1]

theorem inEvents_add (i : InPort) (m n : Nat) :
    inEvents i (m + n) = inEvents i m ++ inEvents (samplesTaken m i) n := by
  induction m generalizing i with
  | zero => simp [inEvents, samplesTaken_zero]
  | succ m ih =>
    rw [Nat.succ_add, inEvents_succ, ih, inEvents_succ, samplesTaken_add, List.append_assoc,
      Nat.add_comm 1 m]

theorem xferBits_trace (n : Nat) (r : BitVec 8) (s : State) :
    (xferBits params 0 n r s).2.pinTrace = s.pinTrace ++ inEvents s.dataIn n := by
  induction n generalizing r s with
  | zero => simp [xferBits, inEvents]
  | succ n ih =>
    rw [xferBits, ih, inEvents_succ, levelAt_zero]
    simp [readDataIn, drive, afterSample_eq]

/-- One byte in: eight samples and their events, nothing else (R90). -/
theorem xferByte_exact (s : State) (hc : s.clk = false) (hd : s.dataOut = false) :
    (xferByte params 0x00 s).2 =
      { s with dataIn := samplesTaken 8 s.dataIn, pinTrace := s.pinTrace ++ inEvents s.dataIn 8 } := by
  obtain ⟨es, -, -, h, -, -⟩ := xferByte_zero s hc hd
  have e : (xferByte params 0x00 s).2.pinTrace = _ := xferBits_trace 8 0 s
  rw [h] at e ⊢
  simp only at e
  rw [e]

theorem readPhase_eq (s : State) (k : Nat) : readPhase s k =
    inEvents (samplesTaken k s.dataIn) 32 ++
      (List.range 8).flatMap (fun _ =>
        [.write .dataOut false, .write .clk true, .write .clk false]) := by
  simp only [readPhase, inEvents, levelAt_samplesTaken]

theorem trailing_events : (List.replicate params.readTrailingBytes
    (List.replicate 8 false)).flatten.flatMap (bitEvents params) =
    (List.range 8).flatMap (fun _ =>
      [.write .dataOut false, .write .clk true, .write .clk false]) := rfl

/-- The read phase: its word, its events, its end (R89 steps (c) and (d)). -/
theorem shiftIn_exact (s : State) (hc : s.clk = false) (hd : s.dataOut = false) :
    (shiftIn params s).1 = answeredWord s 0 ∧
      (shiftIn params s).2 = { s with
        dataIn := samplesTaken 32 s.dataIn, pinTrace := s.pinTrace ++ readPhase s 0 } := by
  obtain ⟨h1, es, -, -, h2, -, -⟩ := shiftIn_spec s hc hd
  refine ⟨h1, ?_⟩
  have e : (shiftIn params s).2.pinTrace = s.pinTrace ++ readPhase s 0 := by
    have q0 := xferByte_exact s hc hd
    have q1 := xferByte_exact (xferByte params 0x00 s).2 (by rw [q0]; exact hc) (by rw [q0]; exact hd)
    have q2 := xferByte_exact (xferByte params 0x00 (xferByte params 0x00 s).2).2
      (by rw [q1, q0]; exact hc) (by rw [q1, q0]; exact hd)
    have q3 := xferByte_exact
      (xferByte params 0x00 (xferByte params 0x00 (xferByte params 0x00 s).2).2).2
      (by rw [q2, q1, q0]; exact hc) (by rw [q2, q1, q0]; exact hd)
    show (trailingBytes params (xferByte params 0x00 (xferByte params 0x00
        (xferByte params 0x00 (xferByte params 0x00 s).2).2).2).2).pinTrace = _
    rw [q3, q2, q1, q0, trailingBytes, trailing_events, readPhase_eq, samplesTaken_zero,
      show (32 : Nat) = 8 + 8 + 8 + 8 from rfl, inEvents_add, inEvents_add, inEvents_add]
    simp only [drive, samplesTaken_add, List.append_assoc]
  rw [h2] at e ⊢
  simp only at e
  rw [e]

/-! ### READREG6 and the ADC readings, written out -/

theorem routed_reg5 {s : State} (hs : TagsOk s) : readReg 5 (routed s) = routed5 (readReg 5 s) := by
  show readReg 5 (setField layoutDoc .muxlo 4 (setField layoutDoc .muxhi 1 s)) = _
  rw [readReg_setField_replace (setField_tagsOk _ _ _ hs), if_neg (by decide),
    readReg_setField_replace hs, if_pos (by decide)]
  rfl

theorem routed_reg2 {s : State} (hs : TagsOk s) : readReg 2 (routed s) = routed2 (readReg 2 s) := by
  show readReg 2 (setField layoutDoc .muxlo 4 (setField layoutDoc .muxhi 1 s)) = _
  rw [readReg_setField_replace (setField_tagsOk _ _ _ hs), if_pos (by decide),
    readReg_setField_replace hs, if_neg (by decide)]
  rfl

/-- `READREG6`, exactly (R89, R92). -/
theorem readReg6_exact {s : State} (hs : TagsOk s) :
    (readReg6 params s).1 = answeredWord s 0 ∧
    (readReg6 params s).2.regs = s.regs ∧
    (readReg6 params s).2.dataIn = samplesTaken 32 s.dataIn ∧
    (readReg6 params s).2.pinTrace =
      s.pinTrace ++ readbackTrace (readReg 5 s) (readReg 2 s) s 0 ∧
    LinkLeft s (readReg6 params s).2 (routed5 (readReg 5 s)) (routed2 (readReg 2 s)) false := by
  have qc : (requestReadback params s).clk = false := by simp [requestReadback_eq]
  have qd : (requestReadback params s).dataOut = false := by simp [requestReadback_eq]
  have ql : (requestReadback params s).le = true := by simp [requestReadback_eq]
  have qi : (requestReadback params s).dataIn = s.dataIn := by simp
  obtain ⟨hw, hst⟩ := shiftIn_exact (requestReadback params s) qc qd
  have hend : (readReg6 params s).2 = setFields layoutDoc
      [(.muxhi, getField layoutDoc .muxhi s), (.muxlo, getField layoutDoc .muxlo s)]
      (shiftIn params (requestReadback params s)).2 := rfl
  have hregs : (shiftIn params (requestReadback params s)).2.regs = (routed s).regs := by
    simp [requestReadback_eq]
  have hr := routed_tagsOk hs
  have hr5 : TagsOk (sendReg params 5 (routed s)) := tagsOk_of_regs (sendReg_regs params 5 _) hr
  have hph : readPhase (requestReadback params s) 0 = readPhase s 0 := by simp only [readPhase, qi]
  have hchip : ∀ i : RegIndex, (requestReadback params s).chip.get i =
      if i = 2 then some (routed2 (readReg 2 s)) else if i = 5 then some (routed5 (readReg 5 s))
      else s.chip.get i := by
    intro i
    rw [requestReadback_eq, sendFrame_chip, if_neg, sendReg_chip hr5 2 i (by decide),
      sendReg_chip hr 5 i (by decide), readReg_sendReg, routed_reg5 hs, routed_reg2 hs,
      show (routed s).chip = s.chip from setFields_chip _ _ _]
    rintro ⟨h1, h2⟩
    exact h2 (Fin.ext (h1.symm.trans (by decide)))
  refine ⟨?_, ?_, ?_, ?_, ?_, ?_, ?_, ?_, ?_, ?_, ?_⟩
  · show (shiftIn params (requestReadback params s)).1 = _
    rw [hw]; simp only [answeredWord, levelByte, qi]
  · apply regs_ext
    intro i
    rw [hend, ← restore_routed hs i]
    exact readReg_of_regs (setFields_regs_congr _ _ hregs) i
  · rw [hend, setFields_dataIn, hst]; exact congrArg (samplesTaken 32) qi
  · rw [hend, setFields_pinTrace, hst]
    show (requestReadback params s).pinTrace ++ readPhase (requestReadback params s) 0 = _
    rw [hph]
    simp only [requestReadback_eq, sendFrame_pinTrace, sendReg_pinTrace, readReg_sendReg,
      routed_reg5 hs, routed_reg2 hs, readbackTrace, List.append_assoc,
      show (routed s).pinTrace = s.pinTrace from setFields_pinTrace _ _ _]
  · rw [hend, setFields_le, hst]; exact ql
  · rw [hend, setFields_clk, hst]; exact qc
  · rw [hend, setFields_dataOut, hst]; exact qd
  · rw [hend, setFields_chipRb, hst]
    show (requestReadback params s).chipRb = _
    rw [requestReadback_eq, sendFrame_chipRb, if_pos rfl]
  · rw [hend, setFields_chip, hst]; exact (hchip 5).trans rfl
  · rw [hend, setFields_chip, hst]; exact (hchip 2).trans rfl
  · intro i h5 h2
    rw [hend, setFields_chip, hst]
    exact (hchip i).trans (by rw [if_neg h2, if_neg h5])

theorem converting_reg5 (mode : Nat) {s : State} (hs : TagsOk s) :
    readReg 5 (converting mode s) = adcRequest mode (readReg 5 s) := by
  show readReg 5 (setField layoutDoc .adcs 1 (setField layoutDoc .adcm mode s)) = _
  rw [readReg_setField_replace (setField_tagsOk _ _ _ hs), if_pos (by decide),
    readReg_setField_replace hs, if_pos (by decide)]
  rfl

theorem adcIdle_reg5 {s : State} (hs : TagsOk s) :
    readReg 5 (adcIdle s) = adcAtIdle (readReg 5 s) := by
  show readReg 5 (setField layoutDoc .adcs 0 (setField layoutDoc .adcm 0 s)) = _
  rw [readReg_setField_replace (setField_tagsOk _ _ _ hs), if_pos (by decide),
    readReg_setField_replace hs, if_pos (by decide)]
  rfl

theorem readReg_converting_ne (mode : Nat) (s : State) {i : RegIndex} (h : i ≠ 5) :
    readReg i (converting mode s) = readReg i s := by
  apply readReg_setFields_ne
  intro fx hf
  simp only [List.mem_cons, List.not_mem_nil, or_false] at hf
  rcases hf with rfl | rfl <;> exact fun e => h e.symm

theorem readReg_adcIdle_ne (s : State) {i : RegIndex} (h : i ≠ 5) :
    readReg i (adcIdle s) = readReg i s := by
  apply readReg_setFields_ne
  intro fx hf
  simp only [List.mem_cons, List.not_mem_nil, or_false] at hf
  rcases hf with rfl | rfl <;> exact fun e => h e.symm

/-- An ADC reading, exactly (R116, R117, R119, R124). -/
theorem sampleAdc_exact (mode : Nat) {s : State} (hs : TagsOk s) :
    ReadingApplied (answeredWord s 0) s (sampleAdc params mode s) ∧
    (sampleAdc params mode s).dataIn = samplesTaken 32 s.dataIn ∧
    (sampleAdc params mode s).pinTrace =
      s.pinTrace ++ adcTrace mode (readReg 5 s) (readReg 2 s) s 0 ∧
    LinkLeft s (sampleAdc params mode s) (readReg 5 (sampleAdc params mode s))
      (routed2 (readReg 2 s)) true := by
  let s1 := wait params.tSettle (sendReg params 5 (converting mode s))
  let u := (readReg6 params s1).2
  let s2 := sendReg params 5 (adcIdle u)
  have hdef : sampleAdc params mode s = writeReg 6 (readReg6 params s1).1 s2 := rfl
  have r1 : s1.regs = (converting mode s).regs := by simp [s1]
  have hsc : TagsOk (converting mode s) := setFields_tagsOk _ _ hs
  have hs1 : TagsOk s1 := tagsOk_of_regs r1 hsc
  have e5 : readReg 5 s1 = adcRequest mode (readReg 5 s) := by
    rw [readReg_of_regs r1, converting_reg5 mode hs]
  have e2 : readReg 2 s1 = readReg 2 s := by
    rw [readReg_of_regs r1, readReg_converting_ne mode s (by decide)]
  obtain ⟨hw, hr, hd, htr, hle, hclk, hdo, hrb, h5, h2, hot⟩ := readReg6_exact hs1
  have hi1 : s1.dataIn = s.dataIn := by simp [s1, converting]
  have ha : answeredWord s1 0 = answeredWord s 0 := by simp only [answeredWord, levelByte, hi1]
  have hru : u.regs = (converting mode s).regs := hr.trans r1
  have hsu : TagsOk u := tagsOk_of_regs hru hsc
  have hsi : TagsOk (adcIdle u) := setFields_tagsOk _ _ hsu
  have hidle : (adcIdle u).regs = (adcIdle s).regs :=
    (setFields_regs_congr _ _ hru).trans (adcIdle_converting mode hs)
  have hchip1 : ∀ i : RegIndex, i ≠ 5 → s1.chip.get i = s.chip.get i := by
    intro i hi
    show (sendReg params 5 (converting mode s)).chip.get i = _
    rw [sendReg_chip hsc 5 i (by decide), if_neg hi,
      show (converting mode s).chip = s.chip from setFields_chip _ _ _]
  have h52 : readReg 5 s2 = adcAtIdle (readReg 5 s) := by
    rw [show readReg 5 s2 = readReg 5 (adcIdle u) from readReg_sendReg _ _ _ _,
      readReg_of_regs hidle, adcIdle_reg5 hs]
  have hchip2 : ∀ i : RegIndex, s2.chip.get i =
      if i = 5 then some (adcAtIdle (readReg 5 s)) else u.chip.get i := by
    intro i
    show (sendReg params 5 (adcIdle u)).chip.get i = _
    rw [sendReg_chip hsi 5 i (by decide), show (adcIdle u).chip = u.chip from setFields_chip _ _ _,
      readReg_of_regs hidle, adcIdle_reg5 hs]
  have h5f : readReg 5 (sampleAdc params mode s) = adcAtIdle (readReg 5 s) := by
    rw [hdef, readReg_writeReg_ne (by decide), h52]
  have hph : ∀ k, readPhase s1 k = readPhase s k := by intro k; simp only [readPhase, hi1]
  refine ⟨⟨?_, h5f, ?_⟩, ?_, ?_, ?_, ?_, ?_, ?_, ?_, ?_, ?_⟩
  · intro i hi
    simp only [List.mem_cons, List.not_mem_nil, or_false, not_or] at hi
    rw [hdef, readReg_writeReg_ne hi.2, show readReg i s2 = readReg i (adcIdle u) from
      readReg_sendReg _ _ _ _, readReg_of_regs hidle, readReg_adcIdle_ne s hi.1]
  · rw [hdef, readReg_writeReg_same, hw, ha, tagged_eq_ofNat]; rfl
  · rw [hdef]
    simp only [writeReg_dataIn, s2, sendReg_dataIn, adcIdle, setFields_dataIn]
    exact hd.trans (congrArg _ hi1)
  · rw [hdef, writeReg_pinTrace]
    show (sendReg params 5 (adcIdle u)).pinTrace = _
    rw [sendReg_pinTrace, show (adcIdle u).pinTrace = u.pinTrace from setFields_pinTrace _ _ _,
      readReg_of_regs hidle, adcIdle_reg5 hs, show u.pinTrace = _ from htr, e5, e2]
    show ((sendReg params 5 (converting mode s)).pinTrace ++ [.wait 100] ++ _) ++ _ = _
    rw [sendReg_pinTrace, converting_reg5 mode hs,
      show (converting mode s).pinTrace = s.pinTrace from setFields_pinTrace _ _ _]
    simp only [adcTrace, readbackTrace, hph, List.append_assoc]
  · rw [hdef, writeReg_le]; exact sendReg_le _ _
  · rw [hdef, writeReg_clk]; exact sendReg_clk _ _
  · rw [hdef, writeReg_dataOut]
    show (sendFrame params (readReg 5 (adcIdle u)) _).dataOut = _
    rw [sendFrame_dataOut, tag_bit0 hsi]; rfl
  · rw [hdef, writeReg_chipRb]
    show (sendFrame params (readReg 5 (adcIdle u)) _).chipRb = _
    rw [sendFrame_chipRb, show (adcIdle u).chipRb = u.chipRb from setFields_chipRb _ _ _,
      show u.chipRb = _ from hrb]
    split <;> rfl
  · rw [hdef, writeReg_chip, hchip2, if_pos (by decide), ← hdef, h5f]
  · rw [hdef, writeReg_chip, hchip2, if_neg (by decide), show u.chip.get 2 = _ from h2, e2]
  · intro i hi5 hi2
    rw [hdef, writeReg_chip, hchip2, if_neg hi5, show u.chip.get i = _ from hot i hi5 hi2,
      hchip1 i hi5]

end Sys2Proof.Machine
end

