-- ==== Sys2Proof/Laws/Exec.lean ====
section
/-!
SUPPORT. What `exec` can do, said once: an instruction either completes with the result and the state
of its rule (`Ran`) or ends with an error code on the state it started from (R73, R149); a serial word
is the `WRITEWORD` that carries it. Proofs cite these instead of unfolding an instruction.
-/

namespace Sys2Proof.Machine

/-! ### Serial words -/

/-- A serial word is run as the `WRITEWORD` that carries it (R71, R85; log entry 4). -/
theorem exec_serial {i : Instr} {v : Word} (h : encode i = .serial v) (s : State) :
    exec i s = exec (.writeword v) s := by
  cases i <;> simp only [encode, Packet.serial.injEq, reduceCtorEq] at h <;> subst h <;> rfl

theorem encode_cases (i : Instr) : (∃ w, encode i = .command w) ∨ ∃ v, encode i = .serial v := by
  cases h : encode i <;> simp

/-! ### Errors -/

theorem map_ok {α β ε : Type} {x : Except ε α} {f : α → β} {b : β} (h : x.map f = .ok b) :
    ∃ a, x = .ok a ∧ f a = b := by
  cases x with
  | ok a => exact ⟨a, rfl, by simpa [Except.map] using h⟩
  | error e => simp [Except.map] at h

theorem map_error {α β ε : Type} {x : Except ε α} {f : α → β} {e : ε} (h : x.map f = .error e) :
    x = .error e := by
  cases x with
  | ok a => simp [Except.map] at h
  | error e' => simpa [Except.map] using h

theorem setPfd_err {a b : BitVec 32} {s : State} {c : Code} (h : setPfd params a b s = .error c) :
    c ≠ .ok := by
  rcases setPfd_cases a b s with ⟨_, h'⟩ | ⟨_, _, _, h'⟩ | ⟨_, _, _, h'⟩ <;> rw [h'] at h <;>
    cases h <;> decide

theorem planTuning_err {pfd f : ℚ} {c : Code} (h : planTuning params pfd f = .error c) :
    c ≠ .ok := by
  unfold planTuning at h
  split at h
  · cases h; decide
  · split at h
    · next e he =>
      cases h
      have := (divaFrom_error he).1
      subst this; decide
    · dsimp only at h
      split at h
      · next e he =>
        cases h
        have := (storedN_error he).1
        subst this; decide
      · split at h
        · cases h; decide
        · cases h

theorem setFreq_err {a : BitVec 32} {s : State} {c : Code} (h : setFreq params a s = .error c) :
    c ≠ .ok := by
  rcases setFreq_cases a s with ⟨_, h'⟩ | ⟨_, _, _, h1, h'⟩ | ⟨_, _, _, _, h'⟩ <;> rw [h'] at h <;>
    cases h
  · decide
  · exact planTuning_err h1

theorem getFreq_err {s : State} {c : Code} (h : getFreq params s = .error c) : c ≠ .ok := by
  unfold getFreq at h
  split at h
  · cases h; decide
  · split at h
    · cases h; decide
    · cases h

theorem regOperand_err {a : BitVec 32} {c : Code} (h : regOperand a = .error c) : c ≠ .ok := by
  rcases regOperand_cases h with ⟨_, _, h⟩ | ⟨_, h⟩ <;> cases h
  decide

theorem fieldOperand_err {a : BitVec 32} {c : Code} (h : fieldOperand a = .error c) : c ≠ .ok := by
  rcases fieldOperand_cases h with ⟨_, _, h⟩ | ⟨_, h⟩ <;> cases h
  decide

/-! ### Commands -/

/-- What an instruction that completes does, by its rule: on the accepted state `s` it answers the data
and leaves the state. -/
inductive Ran : Instr → State → ResultData → State → Prop where
  | rdw (a s i) (h : regOperand a = .ok i) : Ran (.rdw a) s (dataOfWord (readReg i s)) s
  | wrw (a b s i) (h : regOperand a = .ok i) : Ran (.wrw a b) s 0 (writeReg i b s)
  | rdf (a s f) (h : fieldOperand a = .ok f) :
    Ran (.rdf a) s (dataOfField (getField layoutDoc f s)) s
  | wrf (a b s f) (h : fieldOperand a = .ok f) : Ran (.wrf a b) s 0 (setField layoutDoc f b.toNat s)
  | apply6 (b s) : Ran (.apply6 b) s 0 (writeReg 6 b s)
  | writeword (b s) : Ran (.writeword b) s 0 (sendFrame params b s)
  | writeall (s) : Ran .writeall s 0 (writeAll params s)
  | readreg6 (s) : Ran .readreg6 s (dataOfWord (readReg6 params s).1) (readReg6 params s).2
  | setpfd (a b s u) (h : setPfd params a b s = .ok u) : Ran (.setpfd a b) s 0 u
  | setfreq (a s u) (h : setFreq params a s = .ok u) : Ran (.setfreq a) s 0 u
  | power (e s) : Ran (.power e) s 0 (setGroup params params.shutdownFields (1 - e.toNat) s)
  | outen (s) : Ran .outen s 0 (setGroup params params.outEnableFields 1 s)
  | outdis (s) : Ran .outdis s 0 (setGroup params params.outEnableFields 0 s)
  | getfreq (s f) (h : getFreq params s = .ok f) : Ran .getfreq s (dataOfFreq f) s
  | readadc (s) : Ran .readadc s (dataOfReading params (readAdc params s).1.valid
      (readAdc params s).1.value (readAdc params s).1.code) (readAdc params s).2
  | readtemp (s) : Ran .readtemp s (dataOfReading params (readTemp params s).1.valid
      (readTemp params s).1.value (readTemp params s).1.code) (readTemp params s).2
  | readvco (s) : Ran .readvco s (dataOfField (readVco params s).1) (readVco params s).2
  | readld (s) : Ran .readld s (dataOfLevel (readLdIn s).1) (readLdIn s).2
  | readdiag (s) : Ran .readdiag s (dataOfDiag (readDiag params s).1.1.valid
      (readDiag params s).1.2.1.valid (readDiag params s).1.1.code (readDiag params s).1.2.1.code
      (readDiag params s).1.2.2) (readDiag params s).2
  | serial (i s v) (h : encode i = .serial v) : Ran i s 0 (sendFrame params v s)

/-- The operation code an instruction runs under: its own, or that of `WRITEWORD` for a serial word
(R61; log entry 4). -/
def opcodeOf (i : Instr) : BitVec 8 := commandOp (portWord (encode i))

/-- Everything a command can do (R73, R149). -/
theorem exec_command {i : Instr} {w : CommandWord} (hi : encode i = .command w) {s t : State}
    (h : exec i s = .next t) :
    (∃ op d u, Ran i (accept op s) d u ∧ t = respond .ok d u) ∨
      (∃ c, c ≠ .ok ∧ t = raiseError c s) := by
  cases i <;> simp only [encode, reduceCtorEq] at hi <;>
  simp only [exec, execRdw, execWrw, execRdf, execWrf, execApply6, execWriteword, execWriteall,
    execReadreg6, execSetpfd, execSetfreq, execGetfreq, execPower, execOuten, execOutdis,
    execReadadc, execReadtemp, execReadvco, execReadld, execReaddiag] at h <;>
  rcases runCommand_cases h with ⟨d, u, hb, rfl⟩ | ⟨c, hb, rfl⟩
  all_goals first
    | (obtain ⟨x, hx, he⟩ := map_ok hb
       simp only [Prod.mk.injEq] at he
       obtain ⟨rfl, rfl⟩ := he
       exact .inl ⟨_, _, _, by constructor; exact hx, rfl⟩)
    | (cases hb; exact .inl ⟨_, _, _, by constructor, rfl⟩)
    | (refine .inr ⟨c, ?_, rfl⟩
       have hx := map_error hb
       first
       | exact setPfd_err hx
       | exact setFreq_err hx
       | exact getFreq_err hx
       | exact regOperand_err hx
       | exact fieldOperand_err hx)
    | cases hb

/-- The operation code of a command word made from its parts (R57). -/
@[simp] theorem commandOp_commandOf (op : BitVec 8) (a b : BitVec 32) :
    commandOp (commandOf op a b) = op := by
  apply BitVec.eq_of_getLsbD_eq
  intro k hk
  simp only [commandOp, commandOf, BitVec.getLsbD_extractLsb', BitVec.getLsbD_append]
  rw [if_neg (by omega), if_neg (by omega)]
  simp only [hk, decide_true, Bool.true_and]
  congr 1; omega

/-- An instruction whose rule runs completes with `OK` (R73). -/
theorem exec_ran {i : Instr} {s : State} {d : ResultData} {u : State}
    (h : Ran i (accept (opcodeOf i) s) d u) : exec i s = .next (respond .ok d u) := by
  cases h
  case serial v h =>
    rw [exec_serial h]
    simp only [opcodeOf, h, portWord, commandOp_commandOf]
    rfl
  all_goals
    simp only [exec, execRdw, execWrw, execRdf, execWrf, execApply6, execWriteword, execWriteall,
      execReadreg6, execSetpfd, execSetfreq, execGetfreq, execPower, execOuten, execOutdis,
      execReadadc, execReadtemp, execReadvco, execReadld, execReaddiag, opcodeOf, encode, portWord,
      commandOp_commandOf]
    apply runCommand_ok
  all_goals first
    | rfl
    | (rename_i h; simp only [opcodeOf, encode, portWord, commandOp_commandOf] at h
       simp only [h, Except.map])
    | (rename_i h; simp only [h, Except.map]; done)
    | (rename_i h; simp only [h, Except.map]; rfl)

/-! ### From the body of a command to the command -/

theorem tagsOk_accept (op : BitVec 8) {s : State} (hs : TagsOk s) : TagsOk (accept op s) :=
  tagsOk_of_regs (accept_regs op s) hs

theorem answeredWord_congr {s t : State} (h : t.dataIn = s.dataIn) (k : Nat) :
    answeredWord t k = answeredWord s k := by simp only [answeredWord, levelByte, h]

theorem answeredWord_samplesTaken {s t : State} {m : Nat} (h : t.dataIn = samplesTaken m s.dataIn)
    (k : Nat) : answeredWord t k = answeredWord s (m + k) := by
  simp only [answeredWord, levelByte_samplesTaken s t m _ h, Nat.add_assoc]

theorem readPhase_samplesTaken {s t : State} {m : Nat} (h : t.dataIn = samplesTaken m s.dataIn)
    (k : Nat) : readPhase t k = readPhase s (m + k) := by
  simp only [readPhase_eq, h, samplesTaken_add]

theorem readbackTrace_samplesTaken {s t : State} {m : Nat} (h : t.dataIn = samplesTaken m s.dataIn)
    (r5 r2 : Word) (k : Nat) : readbackTrace r5 r2 t k = readbackTrace r5 r2 s (m + k) := by
  simp only [readbackTrace, readPhase_samplesTaken h]

theorem adcTrace_samplesTaken {s t : State} {m : Nat} (h : t.dataIn = samplesTaken m s.dataIn)
    (mode : Nat) (r5 r2 : Word) (k : Nat) : adcTrace mode r5 r2 t k = adcTrace mode r5 r2 s (m + k) := by
  simp only [adcTrace, readbackTrace_samplesTaken h]

theorem readbackTrace_congr {s t : State} (h : t.dataIn = s.dataIn) (r5 r2 : Word) (k : Nat) :
    readbackTrace r5 r2 t k = readbackTrace r5 r2 s k := by simp only [readbackTrace, readPhase, h]

theorem adcTrace_congr {s t : State} (h : t.dataIn = s.dataIn) (mode : Nat) (r5 r2 : Word) (k : Nat) :
    adcTrace mode r5 r2 t k = adcTrace mode r5 r2 s k := by
  simp only [adcTrace, readbackTrace_congr h]

theorem FrameSent.command {op : BitVec 8} {c : Code} {d : ResultData} {v : Word} {s u : State}
    (h : FrameSent v (accept op s) u) : FrameSent v s (respond c d u) := h

theorem ConfigSent.command {op : BitVec 8} {c : Code} {d : ResultData} {s u : State}
    (h : ConfigSent (accept op s) u) : ConfigSent s (respond c d u) := h

theorem ConfigSent.of_same {s t u : State} (h : ConfigSent t u) (hl : LinkSame s t) :
    ConfigSent s u := by
  obtain ⟨-, -, -, h4, h5, h6⟩ := hl
  unfold ConfigSent at h ⊢
  rwa [h4, h5, h6] at h

theorem LinkLeft.command {op : BitVec 8} {c : Code} {d : ResultData} {v5 v2 : Word} {b : Bool}
    {s u : State} (h : LinkLeft (accept op s) u v5 v2 b) : LinkLeft s (respond c d u) v5 v2 b := h

theorem ReadingApplied.command {op : BitVec 8} {c : Code} {d : ResultData} {w : Word} {s u : State}
    (h : ReadingApplied w (accept op s) u) : ReadingApplied w s (respond c d u) := h

theorem FieldsSameBut.command {op : BitVec 8} {c : Code} {d : ResultData} {fs : List Field}
    {s u : State} (h : FieldsSameBut fs (accept op s) u) : FieldsSameBut fs s (respond c d u) := h

theorem FieldsSameBut.of_regs {fs : List Field} {s t u : State} (h : FieldsSameBut fs s t)
    (hr : u.regs = t.regs) : FieldsSameBut fs s u := by
  intro i k hk
  rw [readReg_of_regs hr]
  exact h i k hk

/-! ### Commands that end with an error -/

theorem exec_setpfd_error {a b : BitVec 32} {s : State} {c : Code}
    (h : setPfd params a b (accept 0x20 s) = .error c) :
    exec (.setpfd a b) s = .next (raiseError c s) := by
  simp only [exec, execSetpfd]
  exact runCommand_error (by simp only [h, Except.map])

theorem exec_setfreq_error {a : BitVec 32} {s : State} {c : Code}
    (h : setFreq params a (accept 0x21 s) = .error c) :
    exec (.setfreq a) s = .next (raiseError c s) := by
  simp only [exec, execSetfreq]
  exact runCommand_error (by simp only [h, Except.map])

theorem exec_getfreq_error {s : State} {c : Code} (h : getFreq params (accept 0x25 s) = .error c) :
    exec .getfreq s = .next (raiseError c s) := by
  simp only [exec, execGetfreq]
  exact runCommand_error (by simp only [h, Except.map])

theorem exec_rdw_error {a : BitVec 32} {s : State} (h : 6 < a.toNat) :
    exec (.rdw a) s = .next (raiseError .index s) := by
  simp only [exec, execRdw]
  exact runCommand_error (by simp [regOperand_error h, Except.map])

theorem exec_wrw_error {a b : BitVec 32} {s : State} (h : 6 < a.toNat) :
    exec (.wrw a b) s = .next (raiseError .index s) := by
  simp only [exec, execWrw]
  exact runCommand_error (by simp [regOperand_error h, Except.map])

theorem exec_rdf_error {a : BitVec 32} {s : State} (h : 29 < a.toNat) :
    exec (.rdf a) s = .next (raiseError .index s) := by
  simp only [exec, execRdf]
  exact runCommand_error (by simp [fieldOperand_error h, Except.map])

theorem exec_wrf_error {a b : BitVec 32} {s : State} (h : 29 < a.toNat) :
    exec (.wrf a b) s = .next (raiseError .index s) := by
  simp only [exec, execWrf]
  exact runCommand_error (by simp [fieldOperand_error h, Except.map])

end Sys2Proof.Machine
end

