-- ==== Sys2Proof/Laws/PerInstr.lean ====
section
/-!
SUPPORT. Facts made per instruction. Family `Row`: the packet of an instruction fits its row of
spec/opcode_table.json, bit for bit on the row's fixed bits (R57 to R61).
-/

namespace Sys2Proof.Laws

/-- A packet fits a row: its width is the row's, and the bits of the row's mask are the row's match. -/
def fitsRow (nbits mask bits : Nat) : Packet → Prop
  | .command w => nbits = 72 ∧ w &&& BitVec.ofNat 72 mask = BitVec.ofNat 72 bits
  | .serial v => nbits = 32 ∧ v &&& BitVec.ofNat 32 mask = BitVec.ofNat 32 bits

/-- The fixed bits of a command are its operation code. -/
theorem fitsRow_command (op : BitVec 8) (a b : BitVec 32) :
    fitsRow 72 0xFF0000000000000000 (op.toNat * 2 ^ 64) (.command (commandOf op a b)) := by
  refine ⟨rfl, ?_⟩
  apply BitVec.eq_of_getLsbD_eq
  intro k hk
  have hm : (0xFF0000000000000000 : Nat) = (2 ^ 8 - 1) * 2 ^ 64 := rfl
  simp only [commandOf, BitVec.getLsbD_and, BitVec.getLsbD_append, BitVec.getLsbD_ofNat, hm,
    Nat.testBit_mul_two_pow, Nat.testBit_two_pow_sub_one, BitVec.testBit_toNat]
  by_cases h1 : k < 32
  · simp [h1, show ¬64 ≤ k by omega]
  · by_cases h2 : k - 32 < 32
    · simp [h1, show ¬64 ≤ k by omega]
    · simp [h1, h2, show 64 ≤ k by omega, show k - 64 < 8 by omega, show k - 32 - 32 = k - 64 by omega,
        hk]

/-- The fixed bits of a serial word are its address tag. -/
theorem fitsRow_serial {v : Word} {tag : BitVec 3} (h : serialTag v = tag) :
    fitsRow 32 0x00000007 tag.toNat (.serial v) := by
  refine ⟨rfl, ?_⟩
  apply BitVec.eq_of_getLsbD_eq
  intro k hk
  have hm : (0x00000007 : Nat) = 2 ^ 3 - 1 := rfl
  have hb := congrArg (fun t => t.getLsbD k) h
  simp only [serialTag, BitVec.getLsbD_extractLsb', Nat.zero_add] at hb
  simp only [BitVec.getLsbD_and, BitVec.getLsbD_ofNat, hm, Nat.testBit_two_pow_sub_one,
    BitVec.testBit_toNat, ← hb, hk, decide_true, Bool.true_and]
  exact Bool.and_comm _ _

/-- The packet of the instruction fits the row it stands for. -/
def Row.Statement : Instr → Prop
  | .rdw a => fitsRow 72 0xFF0000000000000000 0x000000000000000000 (encode (.rdw a))
  | .wrw a b => fitsRow 72 0xFF0000000000000000 0x010000000000000000 (encode (.wrw a b))
  | .rdf a => fitsRow 72 0xFF0000000000000000 0x020000000000000000 (encode (.rdf a))
  | .wrf a b => fitsRow 72 0xFF0000000000000000 0x030000000000000000 (encode (.wrf a b))
  | .apply6 b => fitsRow 72 0xFF0000000000000000 0x040000000000000000 (encode (.apply6 b))
  | .writeword b => fitsRow 72 0xFF0000000000000000 0x100000000000000000 (encode (.writeword b))
  | .writeall => fitsRow 72 0xFF0000000000000000 0x110000000000000000 (encode .writeall)
  | .readreg6 => fitsRow 72 0xFF0000000000000000 0x120000000000000000 (encode .readreg6)
  | .setpfd a b => fitsRow 72 0xFF0000000000000000 0x200000000000000000 (encode (.setpfd a b))
  | .setfreq a => fitsRow 72 0xFF0000000000000000 0x210000000000000000 (encode (.setfreq a))
  | .power enable => fitsRow 72 0xFF0000000000000000 0x220000000000000000 (encode (.power enable))
  | .outen => fitsRow 72 0xFF0000000000000000 0x230000000000000000 (encode .outen)
  | .outdis => fitsRow 72 0xFF0000000000000000 0x240000000000000000 (encode .outdis)
  | .getfreq => fitsRow 72 0xFF0000000000000000 0x250000000000000000 (encode .getfreq)
  | .readadc => fitsRow 72 0xFF0000000000000000 0x300000000000000000 (encode .readadc)
  | .readtemp => fitsRow 72 0xFF0000000000000000 0x310000000000000000 (encode .readtemp)
  | .readvco => fitsRow 72 0xFF0000000000000000 0x320000000000000000 (encode .readvco)
  | .readld => fitsRow 72 0xFF0000000000000000 0x330000000000000000 (encode .readld)
  | .readdiag => fitsRow 72 0xFF0000000000000000 0x340000000000000000 (encode .readdiag)
  | .w0 int n frac => fitsRow 32 0x00000007 0x00000000 (encode (.w0 int n frac))
  | .w1 rest fcomp cpl m => fitsRow 32 0x00000007 0x00000001 (encode (.w1 rest fcomp cpl m))
  | .w2 rest lds rdiv2 dbr rdiv muxlo =>
    fitsRow 32 0x00000007 0x00000002 (encode (.w2 rest lds rdiv2 dbr rdiv muxlo))
  | .w3 rest bsHi bsclk => fitsRow 32 0x00000007 0x00000003 (encode (.w3 rest bsHi bsclk))
  | .w4 rest sd4 sd3 sd2 sd1 sd0 mtld outenB outenA diva bsLo => fitsRow 32 0x00000007 0x00000004
    (encode (.w4 rest sd4 sd3 sd2 sd1 sd0 mtld outenB outenA diva bsLo))
  | .w5 rest muxhi adcs adcm =>
    fitsRow 32 0x00000007 0x00000005 (encode (.w5 rest muxhi adcs adcm))
  | .w6 rest adc adcv vasa vco =>
    fitsRow 32 0x00000007 0x00000006 (encode (.w6 rest adc adcv vasa vco))
  | .rbreq => fitsRow 32 0xFFFFFFFF 0x00000006 (encode .rbreq)

theorem tag_append {n : Nat} (x : BitVec n) (t : BitVec 3) :
    (x ++ t).extractLsb' 0 3 = t := by
  apply BitVec.eq_of_getLsbD_eq
  intro k hk
  simp [BitVec.getLsbD_append, hk]

theorem Row.rdw (a : BitVec 32) : Row.Statement (.rdw a) := fitsRow_command 0x00 a 0

theorem Row.wrw (a b : BitVec 32) : Row.Statement (.wrw a b) := fitsRow_command 0x01 a b

theorem Row.rdf (a : BitVec 32) : Row.Statement (.rdf a) := fitsRow_command 0x02 a 0

theorem Row.wrf (a b : BitVec 32) : Row.Statement (.wrf a b) := fitsRow_command 0x03 a b

theorem Row.apply6 (b : BitVec 32) : Row.Statement (.apply6 b) := fitsRow_command 0x04 0 b

theorem Row.writeword (b : BitVec 32) : Row.Statement (.writeword b) := fitsRow_command 0x10 0 b

theorem Row.writeall : Row.Statement .writeall := fitsRow_command 0x11 0 0

theorem Row.readreg6 : Row.Statement .readreg6 := fitsRow_command 0x12 0 0

theorem Row.setpfd (a b : BitVec 32) : Row.Statement (.setpfd a b) := fitsRow_command 0x20 a b

theorem Row.setfreq (a : BitVec 32) : Row.Statement (.setfreq a) := fitsRow_command 0x21 a 0

theorem Row.power (enable : Bool) : Row.Statement (.power enable) :=
  fitsRow_command 0x22 0 (if enable then 1 else 0)

theorem Row.outen : Row.Statement .outen := fitsRow_command 0x23 0 0

theorem Row.outdis : Row.Statement .outdis := fitsRow_command 0x24 0 0

theorem Row.getfreq : Row.Statement .getfreq := fitsRow_command 0x25 0 0

theorem Row.readadc : Row.Statement .readadc := fitsRow_command 0x30 0 0

theorem Row.readtemp : Row.Statement .readtemp := fitsRow_command 0x31 0 0

theorem Row.readvco : Row.Statement .readvco := fitsRow_command 0x32 0 0

theorem Row.readld : Row.Statement .readld := fitsRow_command 0x33 0 0

theorem Row.readdiag : Row.Statement .readdiag := fitsRow_command 0x34 0 0

theorem Row.w0 (int : BitVec 1) (n : BitVec 16) (frac : BitVec 12) :
    Row.Statement (.w0 int n frac) := fitsRow_serial (tag := 0) (tag_append _ _)

theorem Row.w1 (rest : BitVec 14) (fcomp : BitVec 1) (cpl : BitVec 2) (m : BitVec 12) :
    Row.Statement (.w1 rest fcomp cpl m) := fitsRow_serial (tag := 1) (tag_append _ _)

theorem Row.w2 (rest : BitVec 13) (lds rdiv2 dbr : BitVec 1) (rdiv : BitVec 10)
    (muxlo : BitVec 3) : Row.Statement (.w2 rest lds rdiv2 dbr rdiv muxlo) :=
  fitsRow_serial (tag := 2) (tag_append _ _)

theorem Row.w3 (rest : BitVec 15) (bsHi : BitVec 2) (bsclk : BitVec 12) :
    Row.Statement (.w3 rest bsHi bsclk) := fitsRow_serial (tag := 3) (tag_append _ _)

theorem Row.w4 (rest : BitVec 8) (sd4 sd3 sd2 sd1 sd0 mtld outenB outenA : BitVec 1)
    (diva : BitVec 3) (bsLo : BitVec 10) :
    Row.Statement (.w4 rest sd4 sd3 sd2 sd1 sd0 mtld outenB outenA diva bsLo) :=
  fitsRow_serial (tag := 4) (tag_append _ _)

theorem Row.w5 (rest : BitVec 24) (muxhi adcs : BitVec 1) (adcm : BitVec 3) :
    Row.Statement (.w5 rest muxhi adcs adcm) := fitsRow_serial (tag := 5) (tag_append _ _)

theorem Row.w6 (rest : BitVec 14) (adc : BitVec 7) (adcv vasa : BitVec 1) (vco : BitVec 6) :
    Row.Statement (.w6 rest adc adcv vasa vco) := fitsRow_serial (tag := 6) (tag_append _ _)

theorem Row.rbreq : Row.Statement .rbreq := ⟨rfl, by decide⟩

end Sys2Proof.Laws
end

