-- ==== Sys2Proof/Laws/Step.lean ====
section
/-!
SUPPORT. What a step can do, said once (R70, R71, R73, R158, R162), and what any instruction that
completes leaves of the registers' tags, of the link and of the rest.
-/

namespace Sys2Proof.Machine

/-- Everything `exec` can do: the instruction completes by its rule or ends with an error. -/
theorem exec_cases {i : Instr} {s t : State} (h : exec i s = .next t) :
    (∃ op d u, Ran i (accept op s) d u ∧ t = respond .ok d u) ∨
    ∃ c, c ≠ .ok ∧ t = raiseError c s := by
  rcases encode_cases i with ⟨w, hw⟩ | ⟨v, hv⟩
  · exact exec_command hw h
  · rw [exec_serial hv, exec_ran (.writeword v _)] at h
    exact .inl ⟨_, _, _, .serial i _ v hv, by simpa using h.symm⟩

/-- A command word fails to decode for its operation code alone (R70). -/
theorem decodeCommand_error {w : CommandWord} {e : DecodeError} (h : decodeCommand w = .error e) :
    e = .illegalOpcode (commandOp w) := by
  revert h
  unfold decodeCommand
  repeat (split <;> try (intro h; cases h; try rfl))

/-- A command word decodes to a command, never to a serial word; to a `WRITEWORD` exactly as that is
encoded, its first operand ignored (R57, R61). -/
theorem decodeCommand_ok {w : CommandWord} {i : Instr} (h : decodeCommand w = .ok i) :
    (∃ w', encode i = .command w') ∧
      ∀ v, i = .writeword v → w = 0x10#8 ++ commandA w ++ v := by
  have hsplit : w = commandOp w ++ commandA w ++ commandB w := by
    apply BitVec.eq_of_getLsbD_eq
    intro k hk
    simp only [commandOp, commandA, commandB, BitVec.getLsbD_append, BitVec.getLsbD_extractLsb']
    split
    · next h1 => simp [h1]
    · next h1 =>
      split
      · next h2 => simp [h2, show 32 + (k - 32) = k by omega]
      · next h2 => simp [show k - 32 - 32 < 8 by omega, show 64 + (k - 32 - 32) = k by omega]
  refine ⟨?_, ?_⟩
  · revert h
    unfold decodeCommand
    repeat (split <;> try (intro h; cases h; try exact ⟨_, rfl⟩))
  · intro v hv
    subst hv
    revert h
    unfold decodeCommand
    split <;> intro h <;> cases h
    next hop =>
      conv_lhs => rw [hsplit]
      rw [show commandOp w = 0x10#8 from BitVec.eq_of_toNat_eq hop]

/-- Everything a step can do: nothing, the reset event, or the command at the head of the offers: its
instruction, or the illegal-opcode error. -/
theorem step_cases {s t : State} (h : step s = .next t) :
    (t = s ∧ (s.offers = [] ∨ s.busy = true)) ∨
    (∃ rest, s.offers = .reset :: rest ∧ t = resetEvent { s with offers := rest }) ∨
    ∃ w rest, s.offers = .command w :: rest ∧ s.busy = false ∧
      ((∃ i, decodeCommand w = .ok i ∧ exec i { s with offers := rest } = .next t) ∨
        t = raiseError .illegal { s with offers := rest }) := by
  unfold step at h
  split at h
  · next ho => exact .inl ⟨by simpa using h.symm, .inl ho⟩
  · next rest ho => exact .inr (.inl ⟨rest, ho, by simpa using h.symm⟩)
  · next w rest ho =>
    split at h
    · next hb => exact .inl ⟨by simpa using h.symm, .inr hb⟩
    · next hb =>
      refine .inr (.inr ⟨w, rest, ho, by simpa using hb, ?_⟩)
      unfold runWord at h
      split at h
      · next i hi => exact .inl ⟨i, hi, h⟩
      · exact .inr (by simpa using h.symm)

/-- What a `SETPFD` that passes its checks leaves (R96, R97). -/
theorem setPfd_inv {a b : BitVec 32} {s u : State} (h : setPfd params a b s = .ok u) :
    a ≠ 0 ∧ b ≠ 0 ∧ b.toNat ≤ 1023 ∧ u = writeAll params (setFields layoutDoc
      (pfdFields params (freqOperand params a / (b.toNat : ℚ)) b.toNat) (pfdSet a b s)) := by
  rcases setPfd_cases a b s with ⟨_, h'⟩ | ⟨_, _, _, h'⟩ | ⟨h1, h2, h3, h'⟩ <;> rw [h'] at h
  · exact absurd h (by simp)
  · exact absurd h (by simp)
  · exact ⟨h1, h2, h3, (Except.ok.inj h).symm⟩

/-- What a `SETFREQ` that passes its checks leaves (R99, R107). -/
theorem setFreq_inv {a : BitVec 32} {s u : State} (h : setFreq params a s = .ok u) :
    ∃ pfd t, s.fPfd = some pfd ∧ planTuning params pfd (freqOperand params a) = .ok t ∧
      u = writeAll params (setFields layoutDoc (tuneFields params t)
        { s with fTarget := some (freqOperand params a) }) := by
  rcases setFreq_cases a s with ⟨_, h'⟩ | ⟨_, _, _, _, h'⟩ | ⟨pfd, t, h1, h2, h'⟩ <;> rw [h'] at h
  · exact absurd h (by simp)
  · exact absurd h (by simp)
  · exact ⟨pfd, t, h1, h2, (Except.ok.inj h).symm⟩

/-! ### Tags -/

theorem readReg6_regs {s : State} (hs : TagsOk s) : (readReg6 params s).2.regs = s.regs :=
  (readReg6_exact hs).2.1

theorem sampleAdc_tagsOk (mode : Nat) {s : State} (hs : TagsOk s) :
    TagsOk (sampleAdc params mode s) := by
  unfold sampleAdc
  exact writeReg_tagsOk _ _ (tagsOk_of_regs (sendReg_regs params 5 _) (setFields_tagsOk _ _
    (tagsOk_of_regs (readReg6_regs (tagsOk_of_regs
      ((wait_regs _ _).trans (sendReg_regs params 5 _)) (setFields_tagsOk _ _ hs)))
      (tagsOk_of_regs ((wait_regs _ _).trans (sendReg_regs params 5 _))
        (setFields_tagsOk _ _ hs)))))

theorem readVco_tagsOk {s : State} (hs : TagsOk s) : TagsOk (readVco params s).2 :=
  writeReg_tagsOk _ _ (tagsOk_of_regs (readReg6_regs hs) hs)

theorem sent_tagsOk (fs : List (Field × Nat)) {s : State} (hs : TagsOk s) :
    TagsOk (writeAll params (setFields layoutDoc fs s)) :=
  tagsOk_of_regs (writeAll_regs params _) (setFields_tagsOk _ _ hs)

theorem setGroup_tagsOk (fs : List Field) (x : Nat) {s : State} (hs : TagsOk s) :
    TagsOk (setGroup params fs x s) := sent_tagsOk _ hs

theorem setPfd_tagsOk {a b : BitVec 32} {s u : State} (h : setPfd params a b s = .ok u)
    (hs : TagsOk s) : TagsOk u := by
  have hs' : TagsOk (pfdSet a b s) := hs
  have h' := (setPfd_inv h).2.2.2
  rw [h']
  exact sent_tagsOk _ hs'

theorem setFreq_tagsOk {a : BitVec 32} {s u : State} (h : setFreq params a s = .ok u)
    (hs : TagsOk s) : TagsOk u := by
  have hs' : TagsOk { s with fTarget := some (freqOperand params a) } := hs
  have ⟨_, _, _, _, h'⟩ := setFreq_inv h
  rw [h']
  exact sent_tagsOk _ hs'

/-- A command that completes keeps the tags (R12). -/
theorem Ran.tagsOk {i : Instr} {s u : State} {d : ResultData} (h : Ran i s d u) (hs : TagsOk s) :
    TagsOk u := by
  cases h with
  | rdw => exact hs
  | wrw => exact writeReg_tagsOk _ _ hs
  | rdf => exact hs
  | wrf => exact setField_tagsOk _ _ _ hs
  | apply6 => exact writeReg_tagsOk _ _ hs
  | writeword => exact tagsOk_of_regs (sendFrame_regs _ _ _) hs
  | writeall => exact tagsOk_of_regs (writeAll_regs _ _) hs
  | readreg6 => exact tagsOk_of_regs (readReg6_regs hs) hs
  | setpfd _ _ _ _ h => exact setPfd_tagsOk h hs
  | setfreq _ _ _ h => exact setFreq_tagsOk h hs
  | power => exact setGroup_tagsOk _ _ hs
  | outen => exact setGroup_tagsOk _ _ hs
  | outdis => exact setGroup_tagsOk _ _ hs
  | getfreq => exact hs
  | readadc => exact sampleAdc_tagsOk _ hs
  | readtemp => exact sampleAdc_tagsOk _ hs
  | readvco => exact readVco_tagsOk hs
  | readld => exact tagsOk_of_regs (readLdIn_regs _) hs
  | readdiag =>
    exact readVco_tagsOk (sampleAdc_tagsOk _ (sampleAdc_tagsOk _ hs))
  | serial => exact tagsOk_of_regs (sendFrame_regs _ _ _) hs

/-! ### The link -/

/-- Words the chip's map has a place for: a data word of registers 0 to 5, or the readback request (R37,
R71). -/
def Mapped (ws : List Word) : Prop := ∀ v ∈ ws, v.toNat % 8 < 6 ∨ v = 0x00000006

/-- What a completing instruction leaves of the link between commands: its events and frames are counted,
its words have a place in the chip's map unless they are the operand of a `WRITEWORD`, the pins are back
between commands (R71, R72, R94, R177). -/
structure LinkRun (i : Instr) (s u : State) (es : List PinEvent) (ws : List Word) : Prop where
  carries : Carries s u es ws
  events : es.length = eventCount i + waitCount i
  waits : es.countP isWait = waitCount i
  tags : ws.map (fun v => v.toNat % 8) = frameTags i
  mapped : Mapped ws ∨ ∃ v, ws = [v] ∧ (i = .writeword v ∨ encode i = .serial v)
  le : s.le = true → u.le = true
  clk : u.clk = false

theorem tag_mod {s : State} (hs : TagsOk s) (i : RegIndex) : (readReg i s).toNat % 8 = i.val := by
  rw [← serialTag_toNat]; exact tag_toNat hs i

theorem configWords_tags {s : State} (hs : TagsOk s) :
    (configWords s).map (fun v => v.toNat % 8) = [5, 4, 3, 2, 1, 0] := by
  simp only [configWords, List.map_cons, List.map_nil, tag_mod hs]
  rfl

theorem readbackWords_tags {s : State} (hs : TagsOk s) :
    (readbackWords s).map (fun v => v.toNat % 8) = [5, 2, 6] := by
  simp only [readbackWords, List.map_cons, List.map_nil, tag_mod (routed_tagsOk hs)]
  rfl

theorem adcWords_tags (mode : Nat) {s : State} (hs : TagsOk s) :
    (adcWords mode s).map (fun v => v.toNat % 8) = [5, 5, 2, 6, 5] := by
  simp only [adcWords, List.map_append, List.map_cons, List.map_nil,
    tag_mod (s := converting mode s) (setFields_tagsOk _ _ hs),
    readbackWords_tags (s := converting mode s) (setFields_tagsOk _ _ hs),
    tag_mod (s := adcIdle s) (setFields_tagsOk _ _ hs)]
  rfl

theorem configWords_mapped {s : State} (hs : TagsOk s) : Mapped (configWords s) := by
  simp [Mapped, configWords, tag_mod hs]

theorem readbackWords_mapped {s : State} (hs : TagsOk s) : Mapped (readbackWords s) := by
  simp [Mapped, readbackWords, tag_mod (routed_tagsOk hs)]

theorem Mapped.append {vs ws : List Word} (hv : Mapped vs) (hw : Mapped ws) : Mapped (vs ++ ws) := by
  intro v h
  exact (List.mem_append.1 h).elim (hv v) (hw v)

theorem adcWords_mapped (mode : Nat) {s : State} (hs : TagsOk s) : Mapped (adcWords mode s) := by
  refine Mapped.append (Mapped.append ?_ (readbackWords_mapped (setFields_tagsOk _ _ hs))) ?_
  · simp [Mapped, tag_mod (s := converting mode s) (setFields_tagsOk _ _ hs)]
  · simp [Mapped, tag_mod (s := adcIdle s) (setFields_tagsOk _ _ hs)]

theorem writeAll_run {i : Instr} {s s' : State} (hi : eventCount i = 588) (hw : waitCount i = 0)
    (ht : frameTags i = [5, 4, 3, 2, 1, 0]) (hs : TagsOk s') (hc : s.clk = false)
    (hl : LinkSame s s') :
    ∃ es ws, LinkRun i s (writeAll params s') es ws := by
  have h := (Carries.of_same hl).trans (writeAll_carries s' (hl.2.1.trans hc))
  exact ⟨_, _, h, by rw [hi, hw, List.nil_append, configEvents_length],
    by rw [hw, List.nil_append, configEvents_noWait],
    by rw [ht, List.nil_append, configWords_tags hs], .inl (configWords_mapped hs),
    fun _ => writeAll_le _, writeAll_clk _⟩

theorem sent_run {i : Instr} {s s' : State} (hi : eventCount i = 588) (hw : waitCount i = 0)
    (ht : frameTags i = [5, 4, 3, 2, 1, 0]) (fs : List (Field × Nat)) (hs : TagsOk s')
    (hc : s.clk = false) (hl : LinkSame s s') :
    ∃ es ws, LinkRun i s (writeAll params (setFields layoutDoc fs s')) es ws :=
  writeAll_run hi hw ht (setFields_tagsOk _ _ hs) hc (by
    obtain ⟨h1, h2, h3, h4, h5, h6⟩ := hl
    simp [LinkSame, h1, h2, h3, h4, h5, h6])

theorem quiet_run {i : Instr} {s u : State} (hi : eventCount i = 0) (hw : waitCount i = 0)
    (ht : frameTags i = []) (hc : s.clk = false) (hl : LinkSame s u) :
    ∃ es ws, LinkRun i s u es ws :=
  ⟨[], [], Carries.of_same hl, by simp [hi, hw], by simp [hw], by simp [ht],
    .inl (by simp [Mapped]), fun h => hl.1.trans h, hl.2.1.trans hc⟩

/-- A serial word is one frame, counted as its row (R85). -/
theorem serial_run {i : Instr} {v : Word} {s : State} (h : encode i = .serial v)
    (hc : s.clk = false) : LinkRun i s (sendFrame params v s) (frameEvents params v) [v] := by
  have hi : eventCount i = 98 ∧ waitCount i = 0 ∧ frameTags i = [v.toNat % 8] := by
    rw [← serialTag_toNat]
    cases i <;> simp only [encode, Packet.serial.injEq, reduceCtorEq] at h <;> subst h <;>
      refine ⟨rfl, rfl, ?_⟩
    case rbreq => rfl
    all_goals
      exact Eq.symm ((congrArg (fun t : BitVec 3 => [t.toNat]) (Laws.tag_append _ _)).trans rfl)
  exact ⟨sendFrame_carries v s hc, by rw [frameEvents_length, hi.1, hi.2.1],
    by rw [frameEvents_noWait, hi.2.1], by rw [hi.2.2]; rfl, .inr ⟨v, rfl, .inr h⟩,
    fun _ => sendFrame_le _ _, sendFrame_clk _ _⟩

theorem readVco_run {s : State} (hs : TagsOk s) (hc : s.clk = false) :
    ∃ es, es.length = 446 ∧ es.countP isWait = 0 ∧ Carries s (readVco params s).2 es (readbackWords s) ∧
      (readVco params s).2.le = true ∧ (readVco params s).2.clk = false := by
  have ⟨_, _, _, hcl, hle, _, es, h1, h2, h3⟩ := readReg6_spec hs hc
  have e : (readVco params s).2 = writeReg 6 (readReg6 params s).1 (readReg6 params s).2 := rfl
  rw [e, writeReg_le, writeReg_clk]
  have h4 := h3.trans (Carries.of_same (linkSame_writeReg 6 (readReg6 params s).1 _))
  rw [List.append_nil, List.append_nil] at h4
  exact ⟨es, h1, h2, h4, hle, hcl⟩

/-- A completing command between commands, on the link (R72, R94, R177). -/
theorem Ran.linkRun {i : Instr} {s u : State} {d : ResultData} (h : Ran i s d u) (hs : TagsOk s)
    (hc : s.clk = false) : ∃ es ws, LinkRun i s u es ws := by
  cases h with
  | rdw => exact quiet_run rfl rfl rfl hc (by simp [LinkSame])
  | wrw => exact quiet_run rfl rfl rfl hc (by simp [LinkSame])
  | rdf => exact quiet_run rfl rfl rfl hc (by simp [LinkSame])
  | wrf => exact quiet_run rfl rfl rfl hc (by simp [LinkSame])
  | apply6 => exact quiet_run rfl rfl rfl hc (by simp [LinkSame])
  | writeword b =>
    exact ⟨_, _, sendFrame_carries b s hc, frameEvents_length b, frameEvents_noWait b, rfl,
      .inr ⟨b, rfl, .inl rfl⟩, fun _ => sendFrame_le _ _, sendFrame_clk _ _⟩
  | writeall => exact writeAll_run rfl rfl rfl hs hc (by simp [LinkSame])
  | readreg6 =>
    obtain ⟨-, -, -, hcl, hle, -, es, h1, h2, h3⟩ := readReg6_spec hs hc
    exact ⟨es, _, h3, h1, h2, readbackWords_tags hs, .inl (readbackWords_mapped hs), fun _ => hle, hcl⟩
  | setpfd a b _ _ h =>
    have hs' : TagsOk (pfdSet a b s) := hs
    have hl : LinkSame s (pfdSet a b s) := by simp [LinkSame, pfdSet]
    have h' := (setPfd_inv h).2.2.2
    rw [h']
    exact sent_run rfl rfl rfl _ hs' hc hl
  | setfreq a _ _ h =>
    have hs' : TagsOk { s with fTarget := some (freqOperand params a) } := hs
    have hl : LinkSame s { s with fTarget := some (freqOperand params a) } := by simp [LinkSame]
    have ⟨_, _, _, _, h'⟩ := setFreq_inv h
    rw [h']
    exact sent_run rfl rfl rfl _ hs' hc hl
  | power => exact sent_run rfl rfl rfl _ hs hc (by simp [LinkSame])
  | outen => exact sent_run rfl rfl rfl _ hs hc (by simp [LinkSame])
  | outdis => exact sent_run rfl rfl rfl _ hs hc (by simp [LinkSame])
  | getfreq => exact quiet_run rfl rfl rfl hc (by simp [LinkSame])
  | readadc =>
    obtain ⟨-, -, hcl, hle, es, h1, h2, h3⟩ := sampleAdc_spec params.adcmVtune hs hc
    exact ⟨es, _, h3, h1, h2, adcWords_tags _ hs, .inl (adcWords_mapped _ hs), fun _ => hle, hcl⟩
  | readtemp =>
    obtain ⟨-, -, hcl, hle, es, h1, h2, h3⟩ := sampleAdc_spec params.adcmTemp hs hc
    exact ⟨es, _, h3, h1, h2, adcWords_tags _ hs, .inl (adcWords_mapped _ hs), fun _ => hle, hcl⟩
  | readvco =>
    obtain ⟨es, h1, h2, h3, h4, h5⟩ := readVco_run hs hc
    exact ⟨es, _, h3, h1, h2, readbackWords_tags hs, .inl (readbackWords_mapped hs), fun _ => h4, h5⟩
  | readld =>
    refine ⟨[.read .ldIn (readLdIn s).1], [], ⟨?_, ?_, ?_, ?_, ?_, ?_, ?_⟩, rfl, rfl, rfl,
      .inl (by simp [Mapped]), ?_, ?_⟩
    all_goals simp [readLdIn, hear, hc, latchAll]
  | readdiag =>
    obtain ⟨-, -, hc1, hl1, e1, a1, b1, k1⟩ := sampleAdc_spec params.adcmVtune hs hc
    have hs1 := sampleAdc_tagsOk params.adcmVtune hs
    obtain ⟨-, -, hc2, hl2, e2, a2, b2, k2⟩ := sampleAdc_spec params.adcmTemp hs1 hc1
    have hs2 := sampleAdc_tagsOk params.adcmTemp hs1
    obtain ⟨e3, a3, b3, k3, hl3, hc3⟩ := readVco_run hs2 hc2
    refine ⟨_, _, (k1.trans k2).trans k3, ?_, ?_, ?_, .inl (((adcWords_mapped _ hs).append
      (adcWords_mapped _ hs1)).append (readbackWords_mapped hs2)), fun _ => hl3, hc3⟩
    · simp only [List.length_append, a1, a2, a3]; rfl
    · simp only [List.countP_append, b1, b2, b3]; rfl
    · simp only [List.map_append, adcWords_tags _ hs, adcWords_tags _ hs1, readbackWords_tags hs2]
      rfl
  | serial _ _ v h =>
    exact ⟨_, _, serial_run h hc⟩

/-! ### The rest -/

/-- No command touches the sticky record or the offers before it answers. -/
theorem Ran.rest {i : Instr} {s u : State} {d : ResultData} (h : Ran i s d u) :
    u.errorSeen = s.errorSeen ∧ u.offers = s.offers := by
  cases h with
  | setpfd a b _ _ h =>
    have h' := (setPfd_inv h).2.2.2
    rw [h']
    simp [pfdSet]
  | setfreq a _ _ h =>
    have ⟨_, _, _, _, h'⟩ := setFreq_inv h
    rw [h']
    simp
  | _ => simp [setGroup, readAdc, readTemp, readVco, readDiag, sampleAdc]

end Sys2Proof.Machine
end

