-- ==== Sys2Proof/Tests/Slice0.lean ====
section
/-!
SUPPORT. The model's own tests. Expected values are those of spec/95_test_vectors.md (the vector is
named at each test) or words written out from the spec's encoding tables. After them, for every
statement with hypotheses, concrete states and operands that meet all of them together.
-/

namespace Sys2Proof.Machine

-- The theorems by kernel evaluation would each wait in a thread of its own for the one before.
set_option Elab.async false

/-! ### Helpers -/

/-- An instruction answers a next state for which `p` holds. -/
def completes (i : Instr) (s : State) (p : State → Bool) : Bool :=
  match exec i s with
  | .next t => p t
  | .fault _ => false
  | .refused _ => false

theorem completes_spec {i : Instr} {s : State} {p : State → Bool} (h : completes i s p = true) :
    ∃ t, exec i s = .next t ∧ p t = true := by
  unfold completes at h
  cases he : exec i s with
  | next t => exact ⟨t, rfl, by rw [he] at h; exact h⟩
  | fault r => rw [he] at h; cases h
  | refused r => rw [he] at h; cases h

/-- A step answers a next state for which `p` holds. -/
def steps (s : State) (p : State → Bool) : Bool :=
  match step s with
  | .next t => p t
  | .fault _ => false
  | .refused _ => false

theorem steps_spec {s : State} {p : State → Bool} (h : steps s p = true) :
    ∃ t, step s = .next t ∧ p t = true := by
  unfold steps at h
  cases he : step s with
  | next t => exact ⟨t, rfl, by rw [he] at h; exact h⟩
  | fault r => rw [he] at h; cases h
  | refused r => rw [he] at h; cases h

/-- A command word, taken from `s` by one step, answers a next state for which `p` holds. -/
def runs (w : Nat) (s : State) (p : State → Bool) : Bool :=
  match step (s.withFetchWord 72 w) with
  | .next t => p t
  | .fault _ => false
  | .refused _ => false

/-- The registers as numbers, 0 to 6. -/
def words (s : State) : List Nat := s.regs.toList.map BitVec.toNat

/-- The words of the frames sent between two states. -/
def sent (s t : State) : List Nat := (framesHeard s (newEvents s t)).map BitVec.toNat

/-- The reset state with some registers written first. -/
def withRegs (l : List (RegIndex × Word)) : State :=
  l.foldl (fun s iv => writeReg iv.1 iv.2 s) State.reset

/-- The levels that make the coming bytes on `DATA_IN`, most significant bit first. -/
def bytesIn (l : List (BitVec 8)) : InPort :=
  ⟨l.flatMap fun b => [7, 6, 5, 4, 3, 2, 1, 0].map fun k => b.getLsbD k, 0⟩

/-! ### Well-formedness: the one check there is -/

theorem test_wf_refuses_w6_without_payload : wellFormed (.w6 0 0 0 0 0) = false := by decide

theorem test_wf_accepts_w6_with_payload : wellFormed (.w6 0 0 0 0 1) = true := by decide

/-! ### Decoding: a word written out from the spec's tables for every constructor -/

theorem test_decode_rdw : decodeTableWord 72 0x000000000700000000 = some (.rdw 7) := by decide
theorem test_decode_wrw : decodeTableWord 72 0x010000000400072647 = some (.wrw 4 0x00072647) := by
  decide
theorem test_decode_rdf : decodeTableWord 72 0x020000001E00000000 = some (.rdf 30) := by decide
theorem test_decode_wrf : decodeTableWord 72 0x030000000E00000009 = some (.wrf 14 9) := by decide
theorem test_decode_apply6 :
    decodeTableWord 72 0x04000000002468ACF0 = some (.apply6 0x2468ACF0) := by decide
theorem test_decode_writeword :
    decodeTableWord 72 0x100000000000074644 = some (.writeword 0x00074644) := by decide
theorem test_decode_writeall : decodeTableWord 72 0x11DEADBEEF12345678 = some .writeall := by decide
theorem test_decode_readreg6 : decodeTableWord 72 0x120000000000000000 = some .readreg6 := by decide
theorem test_decode_setpfd : decodeTableWord 72 0x200000271000000400 = some (.setpfd 10000 1024) := by
  decide
theorem test_decode_setfreq : decodeTableWord 72 0x2100249F0000000000 = some (.setfreq 2400000) := by
  decide
theorem test_decode_power : decodeTableWord 72 0x2200000000FFFFFFFE = some (.power false) := by decide
theorem test_decode_outen : decodeTableWord 72 0x230000000000000000 = some .outen := by decide
theorem test_decode_outdis : decodeTableWord 72 0x240000000000000000 = some .outdis := by decide
theorem test_decode_getfreq : decodeTableWord 72 0x250000000000000000 = some .getfreq := by decide
theorem test_decode_readadc : decodeTableWord 72 0x300000000000000000 = some .readadc := by decide
theorem test_decode_readtemp : decodeTableWord 72 0x310000000000000000 = some .readtemp := by decide
theorem test_decode_readvco : decodeTableWord 72 0x320000000000000000 = some .readvco := by decide
theorem test_decode_readld : decodeTableWord 72 0x330000000000000000 = some .readld := by decide
theorem test_decode_readdiag : decodeTableWord 72 0x340000000000000000 = some .readdiag := by decide
theorem test_decode_w0 : decodeTableWord 32 0x80780000 = some (.w0 1 240 0) := by decide
theorem test_decode_w1 : decodeTableWord 32 0x0002FD01 = some (.w1 0 1 1 4000) := by decide
theorem test_decode_w2 : decodeTableWord 32 0x00040042 = some (.w2 0 1 0 0 1 0) := by decide
theorem test_decode_w3 : decodeTableWord 32 0x00018FA3 = some (.w3 0 3 500) := by decide
theorem test_decode_w4 :
    decodeTableWord 32 0x00072644 = some (.w4 0 0 0 0 0 0 1 1 1 1 200) := by decide
theorem test_decode_w5 : decodeTableWord 32 0x000000E5 = some (.w5 0 1 1 4) := by decide
theorem test_decode_w6 : decodeTableWord 32 0x00014C4E = some (.w6 0 41 1 0 9) := by decide
theorem test_decode_rbreq : decodeTableWord 32 0x00000006 = some .rbreq := by decide

/-! ### Register Model -/

/-- M2. -/
theorem test_rdw : runs 0x000000000600000000 State.reset
    (fun t => t.response == ⟨0x00, 0x00000006⟩ && words t == [0, 1, 2, 3, 4, 5, 6]) = true := by
  decide +kernel

/-- M3. -/
theorem test_rdw_index : runs 0x000000000700000000 State.reset
    (fun t => t.response == ⟨0x06, 0⟩ && words t == [0, 1, 2, 3, 4, 5, 6]) = true := by
  decide +kernel

/-- M4. -/
theorem test_wrw : runs 0x010000000400072647 State.reset
    (fun t => words t == [0, 1, 2, 3, 0x00072644, 5, 6] && t.pinTrace.isEmpty) = true := by
  decide +kernel

/-- M6. -/
theorem test_wrw_index : runs 0x010000000700000001 State.reset
    (fun t => t.status == 0x06 && words t == [0, 1, 2, 3, 4, 5, 6]) = true := by decide +kernel

/-- M7. -/
theorem test_rdf : runs 0x020000000300000000 (withRegs [(1, 0x00007D01)])
    (fun t => t.response == ⟨0x00, 4000⟩) = true := by decide +kernel

/-- X6. -/
theorem test_rdf_index : runs 0x020000001E00000000 State.reset
    (fun t => t.response == ⟨0x06, 0⟩) = true := by decide +kernel

/-- M12: no spill into the neighbour. -/
theorem test_wrf : runs 0x030000000D000007FF State.reset
    (fun t => words t == [0, 1, 2, 3, 0x00001FFC, 5, 6]) = true := by decide +kernel

/-- M11: the neighbours stay. -/
theorem test_wrf_neighbours : runs 0x030000000E00000002 (withRegs [(4, 0x00072644)])
    (fun t => words t == [0, 1, 2, 3, 0x00074644, 5, 6]) = true := by decide +kernel

/-- M16. -/
theorem test_apply6 : runs 0x04000000002468ACF0 State.reset
    (fun t => words t == [0, 1, 2, 3, 4, 5, 0x2468ACF6] && fieldValue .adc t == 21 &&
      fieldValue .adcv t == 1 && fieldValue .vasa t == 0 && fieldValue .vco t == 30) = true := by
  decide +kernel

/-! ### Serial Transport -/

/-- T1: the first seven and the last four events. -/
theorem test_writeword : runs 0x100000000080780000 State.reset
    (fun t => t.pinTrace.take 7 == [.write .le false, .write .dataOut true, .write .clk true,
        .write .clk false, .write .dataOut false, .write .clk true, .write .clk false] &&
      t.pinTrace.drop 94 == [.write .dataOut false, .write .clk true, .write .clk false,
        .write .le true] &&
      t.chip.get 0 == some 0x80780000 && t.chip.get 1 == none) = true := by decide +kernel

/-- T3: tag 7, sent like any other word (R71). -/
theorem test_writeword_tag7 : runs 0x100000000000000007 State.reset
    (fun t => sent State.reset t == [7] && t.chip == State.reset.chip && t.status == 0x00) = true := by
  decide +kernel

/-- T4. -/
theorem test_writeall : runs 0x110000000000000000 State.reset
    (fun t => sent State.reset t == [5, 4, 3, 2, 1, 0] && t.pinTrace.length == 588) = true := by
  decide +kernel

/-- T7. -/
theorem test_readreg6 : runs 0x120000000000000000
    { State.reset with dataIn := bytesIn [0x12, 0x34, 0x56, 0x78] }
    (fun t => t.response == ⟨0x00, 0x2468ACF0⟩ && words t == [0, 1, 2, 3, 4, 5, 6] &&
      sent State.reset t == [0x00000085, 0x00000022, 0x00000006] && t.pinTrace.length == 446 &&
      t.chip.get 5 == some 0x00000085 && t.chip.get 2 == some 0x00000022 &&
      t.chipRb == some true) = true := by decide +kernel

/-! ### Synthesis Engine -/

/-- P1. -/
theorem test_setpfd : runs 0x200000C35000000001 State.reset
    (fun t => words t == [0, 1, 0x00040042, 0x00018FA3, 0x00001F44, 5, 6] && t.fPfd == some 50 &&
      sent State.reset t == [5, 0x00001F44, 0x00018FA3, 0x00040042, 1, 0]) = true := by
  decide +kernel

/-- P17: a tie rounds away from zero. -/
theorem test_setpfd_tie : runs 0x2000063F6A00000001 State.reset
    (fun t => words t == [0, 1, 0x00040042, 0x0001FFFB, 0x00001FFC, 5, 6]) = true := by
  decide +kernel

/-- F1. -/
theorem test_setfreq_integer : runs 0x2100249F0000000000 { State.reset with fPfd := some 10 }
    (fun t => words t == [0x80780000, 0x00007D01, 2, 3, 0x00042004, 5, 6] &&
      t.fTarget == some 2400) = true := by decide +kernel

/-- F3. -/
theorem test_setfreq_fractional : runs 0x210024A8C400000000 { State.reset with fPfd := some 25 }
    (fun t => words t == [0x00601900, 0x0002FD01, 2, 3, 0x00042004, 5, 6]) = true := by
  decide +kernel

/-- W3: only bit 0 of the operand counts. -/
theorem test_power_off : runs 0x2200000000FFFFFFFE State.reset
    (fun t => words t == [0, 1, 2, 3, 0x00F80004, 5, 6] &&
      sent State.reset t == [5, 0x00F80004, 3, 2, 1, 0]) = true := by decide +kernel

/-- W2. -/
theorem test_power_on : runs 0x220000000000000001 (withRegs [(4, 0x00F80004)])
    (fun t => words t == [0, 1, 2, 3, 4, 5, 6]) = true := by decide +kernel

/-- W4. -/
theorem test_outen : runs 0x230000000000000000 (withRegs [(4, 0x00042644)])
    (fun t => words t == [0, 1, 2, 3, 0x00072644, 5, 6]) = true := by decide +kernel

/-- W5. -/
theorem test_outdis : runs 0x240000000000000000 (withRegs [(4, 0x00072644)])
    (fun t => words t == [0, 1, 2, 3, 0x00042644, 5, 6]) = true := by decide +kernel

/-- `GETFREQ` after F3. -/
theorem test_getfreq : runs 0x250000000000000000
    { withRegs [(0, 0x00601900), (1, 0x0002FD01), (4, 0x00042004)] with fPfd := some 25 }
    (fun t => t.response == ⟨0x00, 2402500000⟩ && t.pinTrace.isEmpty) = true := by decide +kernel

/-- `GETFREQ` after `SETPFD 10000, 1` alone. -/
theorem test_getfreq_zero : runs 0x250000000000000000 { State.reset with fPfd := some 10 }
    (fun t => t.response == ⟨0x03, 0⟩) = true := by decide +kernel

/-! ### Diagnostics Reader -/

/-- G1, but for the part of the answer that rests on the open `VASA_EXPECTED`. -/
theorem test_readadc : runs 0x300000000000000000
    { withRegs [(2, 0x00000042)] with dataIn := bytesIn [0x00, 0x00, 0xA7, 0x24] }
    (fun t => words t == [0, 1, 0x00000042, 3, 4, 5, 0x00014E4E] &&
      sent State.reset t == [0x00000065, 0x000000E5, 0x00000062, 0x00000006, 0x00000005] &&
      t.pinTrace.length == 643 && t.chip.get 2 == some 0x00000062 && t.status == 0x00) = true := by
  decide +kernel

/-- G3: the invalid reading, whatever `VASA_EXPECTED` is. -/
theorem test_decode_volts_invalid (s : State) :
    fixedPoint params (decodeVolts params (writeReg 6 0x000322A0 s)).2 = 0xFFFFD8F0 := by
  have h : getField params.layout .adcv (writeReg 6 0x000322A0 s) = 0 := by
    show getBits ⟨6, 10, 1⟩ (readReg 6 (writeReg 6 0x000322A0 s)) = 0
    rw [readReg_writeReg_same]; decide
  have hv : voltsValid params (writeReg 6 0x000322A0 s) = false := by rw [voltsValid, h]; rfl
  rw [decodeVolts, hv, if_neg (by decide)]
  decide +kernel

/-- G2. -/
theorem test_readtemp : runs 0x310000000000000000
    { withRegs [(2, 0x00000042)] with dataIn := bytesIn [0x00, 0x00, 0xA6, 0x24] }
    (fun t => t.response == ⟨0x00, 0x0000290100075D28⟩ &&
      words t == [0, 1, 0x00000042, 3, 4, 5, 0x00014C4E] &&
      sent State.reset t == [0x0000004D, 0x000000CD, 0x00000062, 0x00000006, 0x00000005]) = true := by
  decide +kernel

/-- A code above 83 is a negative temperature: 100 is -19 degrees (section 2.4). -/
theorem test_readtemp_negative : runs 0x310000000000000000
    { State.reset with dataIn := bytesIn [0x00, 0x01, 0x93, 0x50] }
    (fun t => t.response == ⟨0x00, 0x00006401FFFD19D0⟩) = true := by decide +kernel

/-- G4. -/
theorem test_readvco : runs 0x320000000000000000
    { withRegs [(2, 0x00000042)] with dataIn := bytesIn [0x00, 0x01, 0x93, 0x50] }
    (fun t => t.response == ⟨0x00, 20⟩ && words t == [0, 1, 0x00000042, 3, 4, 5, 0x000326A6] &&
      sent State.reset t == [0x00000085, 0x00000062, 0x00000006]) = true := by decide +kernel

/-- G5. -/
theorem test_readld : runs 0x330000000000000000 { State.reset with ldIn := ⟨[true], 0⟩ }
    (fun t => t.response == ⟨0x00, 1⟩ && t.pinTrace == [.read .ldIn true]) = true := by
  decide +kernel

/-- G6, but for the answer, one bit of which rests on the open `VASA_EXPECTED`. -/
theorem test_readdiag : runs 0x340000000000000000
    { withRegs [(2, 0x00000042)] with
      dataIn := bytesIn [0x00, 0x00, 0xA7, 0x24, 0x00, 0x00, 0xA6, 0x24, 0x00, 0x01, 0x93, 0x50] }
    (fun t => t.status == 0x00 && t.dataIn.taken == 96 && readReg 6 t == 0x000326A6 &&
      readReg 5 t == 0x00000005) = true := by decide +kernel

/-! ### Serial words, each run as the `WRITEWORD` that carries it -/

/-- Every row of a register 0 to 5 writes that ghost register and no other (R38). -/
theorem test_serial_words_write_the_chip :
    ([.w0 1 240 0, .w1 0 1 1 4000, .w2 0 1 0 0 1 0, .w3 0 3 500, .w4 0 0 0 0 0 0 1 1 1 1 200,
        .w5 0 1 1 4] : List Instr).map (fun i => match exec i State.reset with
          | .next t => t.chip.toList
          | .fault _ => []
          | .refused _ => []) =
      [[some 0x80780000, none, none, none, none, none, none],
        [none, some 0x0002FD01, none, none, none, none, none],
        [none, none, some 0x00040042, none, none, none, none],
        [none, none, none, some 0x00018FA3, none, none, none],
        [none, none, none, none, some 0x00072644, none, none],
        [none, none, none, none, none, some 0x000000E5, none]] := by decide +kernel

/-- A serial-word row placed for the next step goes out as one frame, with the answer of a command (R85). -/
theorem test_serial_word_step : steps (State.reset.withFetchWord 32 0x00072644)
    (fun t => sent State.reset t == [0x00072644] && t.chip.get 4 == some 0x00072644 &&
      t.response == ⟨0x00, 0⟩ && !t.busy && t.offers.isEmpty) = true := by decide +kernel

/-- Tag 6: with a payload no ghost effect, the readback request sets the flag (R38). -/
theorem test_serial_tag6 :
    completes (.w6 0 41 1 0 9) State.reset (fun t => t.chip == State.reset.chip &&
      t.chipRb == none && sent State.reset t == [0x00014C4E]) = true ∧
    completes .rbreq State.reset (fun t => t.chip == State.reset.chip &&
      t.chipRb == some true && sent State.reset t == [6]) = true := by decide +kernel

/-! ### Errors and reset -/

/-- X3. -/
theorem test_illegal : runs 0x13FFFFFFFFFFFFFFFF State.reset
    (fun t => t.response == ⟨0x07, 0⟩ && t.pinTrace.isEmpty && words t == [0, 1, 2, 3, 4, 5, 6]) =
      true := by decide +kernel

/-- P22, P24, F9, F21, F24: each check, and nothing changed. -/
theorem test_refusals :
    runs 0x200000271000000400 State.reset (fun t => t.status == 0x04 && t.fPfd == none) = true ∧
    runs 0x200000271000000000 State.reset (fun t => t.status == 0x03 && t.fRef == none) = true ∧
    runs 0x210024CFD400000000 { State.reset with fPfd := some 25 }
      (fun t => t.status == 0x05 && words t == [0, 1, 2, 3, 4, 5, 6]) = true ∧
    runs 0x21005B8D8100000000 { State.reset with fPfd := some 25 }
      (fun t => t.status == 0x01 && t.fTarget == none) = true ∧
    runs 0x2100249F0000000000 State.reset (fun t => t.status == 0x02) = true := by decide +kernel

/-! ### The hypotheses of the statements can be met

For every statement with hypotheses, a concrete state and operands that meet them together, for every
clause at a boundary of its range. `reset_tags` and `reset_pins` serve every statement that asks only for
`TagsOk` or `PinsIdle`. -/

theorem reset_tags : TagsOk State.reset := by decide

theorem reset_pins : PinsIdle State.reset := by decide

theorem witness_DecodeEncodeAgree :
    wellFormed (.w6 0 0 0 0 1) = true ∧ wellFormed (.wrf 29 0xFFFFFFFF) = true := by decide

theorem witness_SerialWordHasOneMeaning :
    decode (.serial 0x00000006) = .ok .rbreq ∧ (0x00000006 : Word).toNat % 8 ≠ 7 ∧
      (∃ i, decode (.serial 0x0000000E) = .ok i) ∧ ¬(0xFFFFFFFF : Word).toNat % 8 ≠ 7 := by
  exact ⟨by decide, by decide, ⟨.w6 0 0 0 0 1, by decide⟩, by decide⟩

/-- The reset state with one offer on the port. -/
def offering (o : Offer) : State := { State.reset with offers := [o] }

/-- A command, a serial word as the operand of its `WRITEWORD`, and a row of each width. -/
theorem witness_StepRunsDecodedInstruction :
    ((offering (.command 0x110000000000000000)).offers = [.command 0x110000000000000000] ∧
      (offering (.command 0x110000000000000000)).busy = false ∧
      decode (.command 0x110000000000000000) = .ok .writeall) ∧
    ((offering (.command 0x100000000000014C4E)).offers =
        [.command (0x10#8 ++ (0 : BitVec 32) ++ (0x00014C4E : Word))] ∧
      decode (.serial 0x00014C4E) = .ok (.w6 0 41 1 0 9)) ∧
    decodeTableWord 72 0x110000000000000000 = some .writeall ∧
    decodeTableWord 32 0x00000006 = some .rbreq := by decide

/-- The operation codes with a row. -/
def rowCodes : List Nat := [0x00, 0x01, 0x02, 0x03, 0x04, 0x10, 0x11, 0x12, 0x20, 0x21,
  0x22, 0x23, 0x24, 0x25, 0x30, 0x31, 0x32, 0x33, 0x34]

/-- The lowest and the highest code with no row, and the lowest and the highest with one. -/
theorem witness_IllegalOpcodeRefused :
    (offering (.command 0x050000000000000000)).offers = [.command 0x050000000000000000] ∧
      (offering (.command 0x050000000000000000)).busy = false ∧
      (∀ w ∈ ([0x050000000000000000#72, 0xFF0000000000000000#72] : List CommandWord),
        w.toNat / 2 ^ 64 ∉ rowCodes) ∧
      ∀ w ∈ ([0x000000000000000000#72, 0x34FFFFFFFFFFFFFFFF#72] : List CommandWord),
        w.toNat / 2 ^ 64 ∈ rowCodes := by
  refine ⟨rfl, rfl, ?_, ?_⟩ <;> intro w hw <;>
    simp only [List.mem_cons, List.not_mem_nil, or_false] at hw <;>
    rcases hw with rfl | rfl <;> norm_num [BitVec.toNat_ofNat, rowCodes]

/-- A step that puts a word with tag 7 on the link, and one with tag 6 and the smallest payload. -/
theorem witness_OddTagsOnlyByExplicitWriteword :
    (TagsOk (offering (.command 0x100000000000000007)) ∧
      PinsIdle (offering (.command 0x100000000000000007)) ∧
      ∃ t, step (offering (.command 0x100000000000000007)) = .next t ∧
        ((framesHeard State.reset (newEvents State.reset t)).contains 0x00000007) = true) ∧
    (∃ t, step (offering (.command 0x10000000000000000E)) = .next t ∧
      ((framesHeard State.reset (newEvents State.reset t)).contains 0x0000000E) = true) ∧
    (0x00000007 : Word).toNat % 8 = 7 ∧
    (0x0000000E : Word).toNat % 8 = 6 ∧ (0x0000000E : Word).toNat / 8 ≠ 0 :=
  ⟨⟨by decide, by decide, steps_spec (by decide +kernel)⟩, steps_spec (by decide +kernel),
    by decide, by decide, by decide⟩

theorem witness_IdleAndBusyStepsChangeNothing : State.reset.offers = [] ∧
    { offering (.command 0) with busy := true }.offers = .command 0 :: [] ∧
    { offering (.command 0) with busy := true }.busy = true := by decide

theorem witness_ResetLeavesTheResetTable :
    { offering .reset with status := 0x07, pinTrace := [.wait 100] }.offers = .reset :: [] := by decide

/-- A state after `SETPFD 10000, 1` and `SETFREQ 2400000`, as far as the Synthesizer State goes, with one
offer on the port. -/
def tuned (o : Offer) : State :=
  { offering o with fRef := some 10, rdivS := some 1, fPfd := some 10, fTarget := some 2400 }

/-- A step from a state with a target set, under every invariant, and one by the reset event. -/
theorem witness_invariants :
    let s := tuned (.command 0x2100249F0000000000)
    TagsOk s ∧ PinsIdle s ∧ Quiet s ∧ ReadbackFlagOk s ∧ PinsTraced s ∧
      (∀ rest, s.offers ≠ .reset :: rest) ∧
      SetBy 10000 1 s ∧ params.fOutMin ≤ (2400 : ℚ) ∧ (2400 : ℚ) ≤ params.fOutMax ∧
      (∃ t, step s = .next t ∧ (t.status == 0x00) = true) := by
  refine ⟨by decide, by decide, by decide, by decide, ⟨rfl, rfl, rfl⟩, ?_, by unfold SetBy; decide +kernel,
    by decide +kernel, by decide +kernel, steps_spec (by decide +kernel)⟩
  intro rest h
  cases h

theorem witness_SynthesizerStateStaysCoherent :
    SynthOk (tuned .reset) ∧ ∃ t, step (tuned .reset) = .next t ∧ (t.fPfd == none) = true := by
  refine ⟨?_, steps_spec (by decide +kernel)⟩
  refine ⟨.inr ⟨10000, 1, by unfold SetBy; decide +kernel⟩, ?_⟩
  intro f hf
  obtain rfl : (2400 : ℚ) = f := Option.some.inj hf
  decide +kernel

theorem witness_CommandSideStaysCoherent :
    StatusOk { State.reset with status := 0x07, response := ⟨0x07, 0⟩, errorSeen := true } := by
  unfold StatusOk; decide

theorem witness_GhostChipStaysCoherent :
    ChipOk { State.reset with chip := State.reset.chip.set 4 (some 0x00072644) } := by
  unfold ChipOk
  intro i v h
  fin_cases i <;> simp [State.reset, Vector.get_eq_getElem] at h
  subst h
  decide

/-- With a command on the port, from a trace of nothing. -/
theorem witness_TraceExplainsTheGhostChip :
    TraceExplains (offering (.command 0x110000000000000000)) := ⟨[], rfl, rfl, rfl⟩

/-- A command that completes with `OK` from reset, and one that ends with an error: the premises of the
statements about all commands. -/
theorem witness_commands :
    (∃ t, exec .readreg6 State.reset = .next t ∧ (t.status == 0x00) = true) ∧
    (∃ t, exec (.rdw 7) State.reset = .next t ∧ (t.status == 0x06) = true) ∧
    (∃ t, exec (.w5 0 1 1 4) State.reset = .next t ∧ (t.status == 0x00) = true) :=
  ⟨completes_spec (by decide +kernel), completes_spec (by decide +kernel),
    completes_spec (by decide +kernel)⟩

theorem witness_RegisterSixChangesOnlyByItsList :
    ∃ t, exec (.wrf 29 127) State.reset = .next t ∧
      (readReg 6 t != readReg 6 State.reset) = true := completes_spec (by decide +kernel)

theorem witness_SynthesizerStateHasTwoWriters :
    (∀ a b, Instr.setfreq 2400000 ≠ .setpfd a b) ∧ (∀ a, Instr.setpfd 10000 1 ≠ .setfreq a) ∧
    (∃ t, exec (.setfreq 2400000) { State.reset with fPfd := some 10 } = .next t ∧
      (t.fTarget == some 2400) = true) ∧
    ∃ t, exec (.setpfd 10000 1) State.reset = .next t ∧ (t.fPfd == some 10) = true :=
  ⟨(by intro a b h; cases h), (by intro a h; cases h), completes_spec (by decide +kernel),
    completes_spec (by decide +kernel)⟩

theorem witness_InputsMatterOnlyToReadings :
    Instr.writeall ∉ [Instr.readreg6, .readadc, .readtemp, .readvco, .readld, .readdiag] ∧
    Instr.readreg6 ≠ .readld ∧
    ∃ t, exec .writeall State.reset = .next t ∧ (t.status == 0x00) = true :=
  ⟨by decide, by decide, completes_spec (by decide +kernel)⟩

/-- Register indices 0 and 6, and 7; field ids 0 and 29, and 30. -/
theorem witness_operands :
    (0 : BitVec 32).toNat = (0 : RegIndex).val ∧ (6 : BitVec 32).toNat = (6 : RegIndex).val ∧
    6 < (7 : BitVec 32).toNat ∧ (0 : BitVec 32).toNat = 0 ∧ (29 : BitVec 32).toNat = 29 ∧
    29 < (30 : BitVec 32).toNat := by decide

theorem witness_WordAndFieldViewsAgree :
    layoutOk layoutDoc = true ∧ (Field.n ≠ Field.frac) ∧ ((1 : RegIndex) ≠ (layoutDoc .n).reg) := by
  decide

theorem witness_ReadbackMayAnswerAnyWord :
    (0xFFFFFFFE : Word).getLsbD 0 = false ∧ (0 : Word).getLsbD 0 = false := by decide

theorem witness_TagSixWordsOnTheLink : wellFormed (.w6 1 0 0 0 0) = true := by decide

/-- `SETPFD` at both ends of its divider, and refused beyond them. -/
theorem witness_setpfd :
    ((1 : BitVec 32) ≠ 0 ∧ (1 : BitVec 32).toNat ≤ 1023 ∧ (1023 : BitVec 32).toNat ≤ 1023) ∧
    ((0 : BitVec 32) = 0 ∧ 1023 < (1024 : BitVec 32).toNat) := by decide

/-- The four ranges of the band-select value at their ends (P8, P9, P14, P15). -/
theorem witness_BandSelectCorners :
    (49 / 1000 / 1 : ℚ) < 1 / 20 ∧ (1 / 20 : ℚ) ≤ 50 / 1000 / 1 ∧
    (51199 / 1000 / 1 : ℚ) < 512 / 10 ∧ (512 / 10 : ℚ) ≤ 51200 / 1000 / 1 ∧
    ∃ t, exec (.setpfd 51200 1) State.reset = .next t ∧ (fieldValue .bsLo t == 1023) = true :=
  ⟨by norm_num, by norm_num, by norm_num, by norm_num, completes_spec (by decide +kernel)⟩

/-- The search at its boundaries: the lowest target, the floor, and each power below it. -/
theorem witness_DivaSearchIsMinimal :
    divaSearch params (47 / 2) = .ok 7 ∧ divaSearch params 3000 = .ok 0 ∧
    divaSearch params (2999999 / 1000) = .ok 1 ∧ divaSearch params (46875 / 1000) = .ok 6 ∧
    divaSearch params (46874 / 1000) = .ok 7 ∧ divaSearch params 23 = .error .range := by
  decide +kernel

/-- Coefficients at the boundaries of the fractional part: 1/8000 below and at, one half. -/
theorem witness_FractionCollapsesAboveHalf :
    fracPart params (120 + 12 / 100000) = 0 ∧ fracPart params (75 + 1 / 8000) = 1 ∧
    fracPart params (120 + 1 / 2) = 0 ∧ rha (120 + 1 / 2) = 121 := by decide +kernel

theorem witness_RoundHalfAwayFromZero :
    |(49 / 100 : ℚ) - (0 : ℤ)| < 1 / 2 ∧ (0 : ℤ) ≤ 0 ∧ rha (-(1 / 2)) = -1 ∧ rha (1 / 2) = 1 := by
  decide +kernel

/-- The reset state with a PFD frequency. -/
def atPfd (pfd : ℚ) : State := { State.reset with fPfd := some pfd }

/-- `SETFREQ 2402500` at 25 MHz (F3). -/
theorem witness_SetfreqFractional :
    TagsOk (atPfd 25) ∧ (atPfd 25).fPfd = some 25 ∧ (0 : ℚ) < 25 ∧
    (let f : ℚ := ((2402500 : BitVec 32).toNat : ℚ) / 1000;
      47 / 2 ≤ f ∧ f ≤ 6000 ∧ 3000 ≤ f * 2 ^ 1 ∧ (∀ m < 1, f * 2 ^ m < 3000) ∧
      (let c : ℚ := f * 2 ^ 1 / 25;
        rha (4000 * max (c - rha c) 0) ≠ 0 ∧ rha c ≤ 65535)) :=
  ⟨by decide, rfl, by norm_num, by decide +kernel⟩

/-- `SETFREQ 2400000` at 10 MHz (F1). -/
theorem witness_SetfreqInteger :
    TagsOk (atPfd 10) ∧ (atPfd 10).fPfd = some 10 ∧ (0 : ℚ) < 10 ∧
    (let f : ℚ := ((2400000 : BitVec 32).toNat : ℚ) / 1000;
      47 / 2 ≤ f ∧ f ≤ 6000 ∧ 3000 ≤ f * 2 ^ 1 ∧ (∀ m < 1, f * 2 ^ m < 3000) ∧
      (let c : ℚ := f * 2 ^ 1 / 10;
        rha (4000 * max (c - rha c) 0) = 0 ∧ rha c % 2 ^ 1 = 0 ∧ rha c / 2 ^ 1 ≤ 65535)) :=
  ⟨by decide, rfl, by norm_num, by decide +kernel⟩

/-- The refusals of `SETFREQ` at their boundaries (F22, F21, F9), a divider that does not fit its field, in
both branches, at the smallest PFD frequency of a 10 MHz reference, and parameters under which the search
fails. -/
theorem witness_SetfreqRefuses :
    State.reset.fPfd = none ∧ (atPfd (10 / 1023)).fPfd = some (10 / 1023) ∧ (0 : ℚ) < 10 / 1023 ∧
    ((23499 : BitVec 32).toNat : ℚ) / 1000 < 47 / 2 ∧
    (6000 : ℚ) < ((6000001 : BitVec 32).toNat : ℚ) / 1000 ∧
    (let f : ℚ := ((2412500 : BitVec 32).toNat : ℚ) / 1000;
      47 / 2 ≤ f ∧ f ≤ 6000 ∧ 3000 ≤ f * 2 ^ 1 ∧ (∀ m < 1, f * 2 ^ m < 3000) ∧
      (let c : ℚ := f * 2 ^ 1 / 25;
        rha (4000 * max (c - rha c) 0) = 0 ∧ rha c % 2 ^ 1 ≠ 0)) ∧
    (let f : ℚ := ((6000000 : BitVec 32).toNat : ℚ) / 1000;
      47 / 2 ≤ f ∧ f ≤ 6000 ∧ 3000 ≤ f * 2 ^ 0 ∧
      (let c : ℚ := f * 2 ^ 0 / (10 / 1023);
        rha (4000 * max (c - rha c) 0) = 0 ∧ rha c % 2 ^ 0 = 0 ∧ 65535 < rha c / 2 ^ 0)) ∧
    (let f : ℚ := ((3000001 : BitVec 32).toNat : ℚ) / 1000;
      47 / 2 ≤ f ∧ f ≤ 6000 ∧ 3000 ≤ f * 2 ^ 0 ∧
      (let c : ℚ := f * 2 ^ 0 / (10 / 1023);
        rha (4000 * max (c - rha c) 0) ≠ 0 ∧ 65535 < rha c)) ∧
    (let p : Params := { params with divaMax := 0 };
      let f : ℚ := ((100000 : BitVec 32).toNat : ℚ) / 1000;
      p.fOutMin ≤ f ∧ f ≤ p.fOutMax ∧ ∀ m ≤ p.divaMax, f * 2 ^ m < p.vcoFloor) := by
  refine ⟨rfl, rfl, by norm_num, ?_⟩
  decide +kernel

/-- The three cases of the realized frequency at the fractions 0.00012, 1/8000 and 1/2 (F12, F13, F8). -/
theorem witness_RealizedFrequencyError :
    (∃ t, exec (.setfreq 3000003) { State.reset with fPfd := some 25 } = .next t ∧
      (t.status == 0x00 && decide (Int.fract ((3000003 / 1000 : ℚ) / 25) < 1 / 8000)) = true) ∧
    (∃ t, exec (.setfreq 3000005) { State.reset with fPfd := some 40 } = .next t ∧
      (t.status == 0x00 && decide (Int.fract ((3000005 / 1000 : ℚ) / 40) = 1 / 8000)) = true) ∧
    (∃ t, exec (.setfreq 3012500) { State.reset with fPfd := some 25 } = .next t ∧
      (t.status == 0x00 && decide (Int.fract ((3012500 / 1000 : ℚ) / 25) = 1 / 2)) = true) :=
  ⟨completes_spec (by decide +kernel), completes_spec (by decide +kernel),
    completes_spec (by decide +kernel)⟩

/-- A state after `SETPFD 10000, 1`, with some registers written first. -/
def pfdAt10 (l : List (RegIndex × Word)) : State :=
  { withRegs l with fRef := some 10, rdivS := some 1, fPfd := some 10, fTarget := none }

theorem pfdAt10_synthOk (l : List (RegIndex × Word)) : SynthOk (pfdAt10 l) := by
  refine ⟨.inr ⟨10000, 1, by decide, by decide, by decide, ?_, rfl, ?_⟩, ?_⟩
  · show some (10 : ℚ) = some (((10000 : BitVec 32).toNat : ℚ) / 1000)
    decide +kernel
  · show some (10 : ℚ) = some (((10000 : BitVec 32).toNat : ℚ) / 1000 / ((1 : BitVec 32).toNat : ℚ))
    decide +kernel
  · intro f hf
    cases hf

/-- The three cases of `GETFREQ`, each in one state: a PFD frequency with integer mode, and with fractional
mode and `M = 4000`; no PFD frequency; a PFD frequency with fractional mode and `M = 0`. -/
theorem witness_GetfreqReportsTheRealizedFrequency :
    (SynthOk (pfdAt10 [(0, 0x80780000)]) ∧ (pfdAt10 [(0, 0x80780000)]).fPfd = some 10 ∧
      ¬(fieldValue .int (pfdAt10 [(0, 0x80780000)]) = 0 ∧
        fieldValue .m (pfdAt10 [(0, 0x80780000)]) = 0)) ∧
    (SynthOk (pfdAt10 [(1, 0x00007D01)]) ∧ (pfdAt10 [(1, 0x00007D01)]).fPfd = some 10 ∧
      ¬(fieldValue .int (pfdAt10 [(1, 0x00007D01)]) = 0 ∧
        fieldValue .m (pfdAt10 [(1, 0x00007D01)]) = 0)) ∧
    (SynthOk State.reset ∧ State.reset.fPfd = none) ∧
    (SynthOk (pfdAt10 []) ∧ (pfdAt10 []).fPfd = some 10 ∧
      fieldValue .int (pfdAt10 []) = 0 ∧ fieldValue .m (pfdAt10 []) = 0) :=
  ⟨⟨pfdAt10_synthOk _, rfl, by decide⟩, ⟨pfdAt10_synthOk _, rfl, by decide⟩,
    ⟨⟨.inl ⟨rfl, rfl, rfl, rfl⟩, by intro f hf; cases hf⟩, rfl⟩,
    ⟨pfdAt10_synthOk _, rfl, by decide, by decide⟩⟩

/-- The four runs of the two orders of two commands, for both groups of pairs. -/
theorem witness_PowerAndOutputsCommuteWithTuning :
    (completes (.power false) State.reset fun t => completes .outen t fun _ =>
      completes .outen State.reset fun t' => completes (.power false) t' fun _ => true) = true ∧
    (completes .outdis State.reset fun t => completes (.setpfd 10000 1) t fun _ =>
      completes (.setpfd 10000 1) State.reset fun t' => completes .outdis t' fun _ => true) =
      true := by decide +kernel

end Sys2Proof.Machine
end

section
/-!
PROOFS. The register words seen as fields and as words, for every well-formed layout (R8, R12, R13, R15,
R82), and the rounding of R10.
-/

namespace Sys2Proof.Machine

/-! ### States that differ in their registers alone -/

/-- Two states that differ from a third in their registers alone are equal when their registers have
the same bits. A field write is such a change of registers, by `rfl`. -/
theorem eq_of_readReg_getLsbD {s t u : State} (ht : t = { s with regs := t.regs })
    (hu : u = { s with regs := u.regs })
    (h : ∀ (i : RegIndex) (k : Nat), (readReg i t).getLsbD k = (readReg i u).getLsbD k) :
    t = u := by
  have hregs : t.regs = u.regs :=
    regs_ext fun i => BitVec.eq_of_getLsbD_eq fun k _ => h i k
  calc t = { s with regs := t.regs } := ht
    _ = { s with regs := u.regs } := by rw [hregs]
    _ = u := hu.symm

/-! ### Field writes as equations of states -/

section
variable {l : Layout} {s : State}

/-- The bits of a field's value are the bits of its register at its place (R15). -/
theorem getField_testBit_sub (hl : layoutOk l = true) (f : Field) {k : Nat}
    (h₁ : (l f).lsb ≤ k) (h₂ : k < (l f).lsb + (l f).width) :
    (getField l f s).testBit (k - (l f).lsb) = (readReg (l f).reg s).getLsbD k := by
  have hk : k - (l f).lsb < (l f).width := by omega
  rw [getField, getBits_testBit (layoutOk_place hl f), Nat.add_sub_cancel' h₁]
  simp [hk]

theorem setField_getField (hl : layoutOk l = true) (f : Field) (hs : TagsOk s) :
    setField l f (getField l f s) s = s := by
  refine eq_of_readReg_getLsbD (s := s) rfl rfl fun i k => ?_
  rw [setField_getLsbD hl f _ hs]
  split
  case isTrue hin =>
    obtain ⟨rfl, hlo, hhi⟩ := hin
    exact getField_testBit_sub hl f hlo hhi
  case isFalse => rfl

theorem setField_setField_same (hl : layoutOk l = true) (f : Field) (v w : Nat) (hs : TagsOk s) :
    setField l f w (setField l f v s) = setField l f w s := by
  refine eq_of_readReg_getLsbD (s := s) rfl rfl fun i k => ?_
  rw [setField_getLsbD hl f _ (setField_tagsOk l f v hs), setField_getLsbD hl f _ hs,
    setField_getLsbD hl f _ hs]
  split <;> rfl

/-- No bit of a register lies in two fields of a well-formed layout (R8). -/
theorem not_mem_two_fields (hl : layoutOk l = true) {f g : Field} (hgf : g ≠ f) (i : RegIndex)
    (k : Nat) (hf : i = (l f).reg ∧ (l f).lsb ≤ k ∧ k < (l f).lsb + (l f).width)
    (hg : i = (l g).reg ∧ (l g).lsb ≤ k ∧ k < (l g).lsb + (l g).width) : False := by
  obtain ⟨hfreg, hflo, hfhi⟩ := hf
  obtain ⟨hgreg, hglo, hghi⟩ := hg
  rcases (placesApart_iff _ _).1 (layoutOk_apart hl hgf) with hreg | hbelow | habove
  · exact hreg (hgreg.symm.trans hfreg)
  · omega
  · omega

theorem setField_comm (hl : layoutOk l = true) {f g : Field} (hgf : g ≠ f) (v w : Nat)
    (hs : TagsOk s) :
    setField l g w (setField l f v s) = setField l f v (setField l g w s) := by
  refine eq_of_readReg_getLsbD (s := s) rfl rfl fun i k => ?_
  rw [setField_getLsbD hl g _ (setField_tagsOk l f v hs), setField_getLsbD hl f _ hs,
    setField_getLsbD hl f _ (setField_tagsOk l g w hs), setField_getLsbD hl g _ hs]
  split
  case isTrue hg => rw [if_neg fun hf => not_mem_two_fields hl hgf i k hf hg]
  case isFalse => rfl

end

/-- Settles O31: the laws of word reads after writes and of field reads after field writes are those of
the Register Model; the equations between states compare the registers bit by bit. -/
theorem wordAndFieldViewsAgree : Obligations.WordAndFieldViewsAgree := by
  intro l s hl hs
  refine ⟨fun i v => ?_, fun f v => getField_setField_same hl f v s,
    fun f g v hgf => getField_setField_ne hl hgf v s, fun f v j hj => readReg_writeReg_ne hj _ s,
    fun f v => ?_, fun f => setField_getField hl f hs,
    fun f v w => setField_setField_same hl f v w hs,
    fun f g v w hgf => setField_comm hl hgf v w hs⟩
  · rw [readReg_writeReg_same, tagged_eq_ofNat]
  · rw [setField_tagsOk l f v hs, hs]

/-! ### Rounding (R10) -/

/-- Rounding is odd: both sides of zero round alike. -/
theorem rha_neg (x : ℚ) : rha (-x) = -rha x := by
  rcases lt_trichotomy x 0 with hneg | rfl | hpos
  · simp [rha, hneg.le, hneg.not_ge]
  · norm_num [rha]
  · simp [rha, hpos.le, hpos.not_ge]

/-- A value at or above zero rounds to `n` exactly on the interval of length one about `n`, its lower
end included. -/
theorem rha_eq_iff_of_nonneg {x : ℚ} (hx : 0 ≤ x) (n : ℤ) :
    rha x = n ↔ (n : ℚ) - 1 / 2 ≤ x ∧ x < n + 1 / 2 := by
  rw [rha_of_nonneg hx, Int.floor_eq_iff]
  constructor
  · rintro ⟨hlo, hhi⟩
    constructor <;> linarith
  · rintro ⟨hlo, hhi⟩
    constructor <;> linarith

theorem rha_eq_of_abs_sub_lt {x : ℚ} {n : ℤ} (h : |x - n| < 1 / 2) : rha x = n := by
  obtain ⟨hlo, hhi⟩ := abs_lt.1 h
  rcases le_total 0 x with hx | hx
  · exact (rha_eq_iff_of_nonneg hx n).2 ⟨by linarith, by linarith⟩
  · have hmirror : rha (-x) = -n :=
      (rha_eq_iff_of_nonneg (neg_nonneg.2 hx) (-n)).2
        ⟨by push_cast; linarith, by push_cast; linarith⟩
    rw [rha_neg] at hmirror
    exact neg_injective hmirror

/-- At or above zero a half rounds up. -/
theorem rha_add_half {n : ℤ} (hn : 0 ≤ n) : rha ((n : ℚ) + 1 / 2) = n + 1 := by
  have hq : (0 : ℚ) ≤ n := Int.cast_nonneg hn
  exact (rha_eq_iff_of_nonneg (by linarith) (n + 1)).2
    ⟨by push_cast; linarith, by push_cast; linarith⟩

/-- At or below zero a half rounds down: the mirror image of `rha_add_half`. -/
theorem rha_sub_half {n : ℤ} (hn : n ≤ 0) : rha ((n : ℚ) - 1 / 2) = n - 1 := by
  have hmirror : (n : ℚ) - 1 / 2 = -(((-n : ℤ) : ℚ) + 1 / 2) := by push_cast; ring
  rw [hmirror, rha_neg, rha_add_half (neg_nonneg.2 hn)]
  ring

/-- Settles O45: the nearest integer and the half above zero by the interval that rounds to an integer,
the values below zero by the oddness of `rha`. -/
theorem roundHalfAwayFromZero : Obligations.RoundHalfAwayFromZero :=
  ⟨fun _ _ h => rha_eq_of_abs_sub_lt h, fun _ hn => rha_add_half hn, fun _ hn => rha_sub_half hn⟩

end Sys2Proof.Machine
end

section
/-!
PROOFS. What every step keeps, what the reset leaves, and which state each command reads and writes
(R12, R18, R19, R24, R28, R33, R94).
-/

namespace Sys2Proof.Machine

/-! ### Invariants of the step -/

/-- The induction step of every invariant: a property of the block that the reset event establishes,
that the offers do not matter to, and that every command keeps, completing or failing, is kept by every
step. -/
theorem step_keeps {P : State → Prop} (hreset : ∀ s, P (resetEvent s))
    (hoffers : ∀ s rest, P s → P { s with offers := rest })
    (hran : ∀ {i op s d u}, P s → Ran i (accept op s) d u → P (respond .ok d u))
    (herror : ∀ c s, P s → P (raiseError c s))
    {s t : State} (hs : P s) (h : step s = .next t) : P t := by
  rcases step_cases h with ⟨rfl, -⟩ | ⟨rest, -, rfl⟩ | ⟨w, rest, -, -, ⟨i, -, hi⟩ | rfl⟩
  · exact hs
  · exact hreset _
  · rcases exec_cases hi with ⟨op, d, u, hu, rfl⟩ | ⟨c, -, rfl⟩
    · exact hran (hoffers _ rest hs) hu
    · exact herror c _ (hoffers _ rest hs)
  · exact herror .illegal _ (hoffers _ rest hs)

/-! ### The reset state -/

theorem readReg_reset (i : RegIndex) : readReg i State.reset = BitVec.ofNat 32 i.val := by
  revert i
  decide

theorem chip_reset (i : RegIndex) : State.reset.chip.get i = none := by
  revert i
  decide

theorem reset_tagsOk : TagsOk State.reset := fun i => by
  rw [readReg_reset]
  revert i
  decide

theorem resetEvent_tagsOk (s : State) : TagsOk (resetEvent s) :=
  tagsOk_of_regs (resetEvent_regs s) reset_tagsOk

theorem resetEvent_synthOk (s : State) : SynthOk (resetEvent s) :=
  ⟨.inl ⟨rfl, rfl, rfl, rfl⟩, fun _ hf => nomatch hf⟩

theorem resetEvent_statusOk (s : State) : StatusOk (resetEvent s) :=
  ⟨by simp [State.reset], rfl, fun h => absurd rfl h⟩

theorem resetEvent_chipOk (s : State) : ChipOk (resetEvent s) := fun i v hv => by
  rw [resetEvent_chip, chip_reset] at hv
  exact nomatch hv

/-- A receiver that has heard nothing stands on the reset levels and has learned nothing. -/
theorem resetEvent_traceExplains (s : State) : TraceExplains (resetEvent s) := ⟨[], rfl, rfl, rfl⟩

/-- Settles O9: the reset event copies the values of `State.reset`, so both halves are one table. -/
theorem resetLeavesTheResetTable : Obligations.ResetLeavesTheResetTable := by
  unfold Obligations.ResetLeavesTheResetTable
  intro table
  have htable : ∀ s, table (resetEvent s) := fun s =>
    ⟨readReg_reset, rfl, rfl, rfl, rfl, rfl, rfl, rfl, rfl, rfl, rfl, rfl, chip_reset, rfl, rfl⟩
  exact ⟨htable State.reset, fun s rest hrest =>
    ⟨_, by simp only [step, hrest], htable { s with offers := rest }, ⟨rfl, rfl⟩, rfl⟩⟩

/-- Settles O16: a reset event leaves every invariant true, and leaves the reset state as it is. -/
theorem resetMeetsTheInvariants : Obligations.ResetMeetsTheInvariants :=
  ⟨reset_tagsOk, ⟨rfl, rfl⟩, ⟨rfl, rfl, rfl⟩, resetEvent_synthOk State.reset, ⟨rfl, rfl⟩,
    resetEvent_statusOk State.reset, resetEvent_chipOk State.reset, nofun,
    resetEvent_traceExplains State.reset⟩

/-! ### Address tags -/

/-- Settles O11: every command keeps the tags (`Ran.tagsOk`), an answer does not touch the registers. -/
theorem addressTagsNeverChange : Obligations.AddressTagsNeverChange := fun _ _ hs h =>
  step_keeps (P := TagsOk) resetEvent_tagsOk (fun _ _ hs => hs)
    (fun hs hu => tagsOk_of_regs (respond_regs _ _ _) (hu.tagsOk (tagsOk_accept _ hs)))
    (fun c s hs => tagsOk_of_regs (raiseError_regs c s) hs) hs h

/-! ### The command side -/

/-- An answer leaves `STATUS` a code of the table, the one of the response, and the error in the record
(R66, R145, R151). -/
theorem respond_statusOk {c : Code} {d : ResultData} (h : c = .ok ∨ d = 0) (s : State) :
    StatusOk (respond c d s) := by
  refine ⟨statusByte_le c, rfl, fun hc => ?_⟩
  have hne : c ≠ .ok := fun hok => hc (statusByte_eq_zero.2 hok)
  exact ⟨h.resolve_left hne, by simp [hne]⟩

/-- Settles O14: whatever ran before it, an answer leaves the command side coherent. -/
theorem commandSideStaysCoherent : Obligations.CommandSideStaysCoherent := fun _ _ hq hs h =>
  step_keeps (P := fun s => Quiet s ∧ StatusOk s)
    (fun s => ⟨⟨rfl, rfl⟩, resetEvent_statusOk s⟩) (fun _ _ hs => hs)
    (fun _ _ => ⟨⟨rfl, rfl⟩, respond_statusOk (.inl rfl) _⟩)
    (fun _ s _ => ⟨⟨rfl, rfl⟩, respond_statusOk (.inr rfl) s⟩) ⟨hq, hs⟩ h

/-! ### The Synthesizer State -/

/-- A `SETPFD` that passes its checks writes its three values and leaves the target (R19, R96). -/
theorem setPfd_setBy {a b : BitVec 32} {s u : State} (h : setPfd params a b s = .ok u) :
    SetBy a b u ∧ u.fTarget = s.fTarget := by
  have ⟨ha, hb, hb', hu⟩ := setPfd_inv h
  have hset : SetBy a b (pfdSet a b s) ∧ (pfdSet a b s).fTarget = s.fTarget :=
    ⟨⟨ha, hb, hb', by simp [pfdSet, freqOperand_eq], rfl, by simp [pfdSet, freqOperand_eq]⟩, rfl⟩
  rw [hu]
  simpa [SetBy] using hset

/-- A `SETFREQ` that passes its checks writes a target within the bounds, nothing else of the Synthesizer
State, and finds `F_PFD` set (R19, R99, R107). -/
theorem setFreq_target {a : BitVec 32} {s u : State} (h : setFreq params a s = .ok u) :
    ∃ f, s.fPfd ≠ none ∧ params.fOutMin ≤ f ∧ f ≤ params.fOutMax ∧
      SynthSame { s with fTarget := some f } u := by
  have ⟨pfd, t, hpfd, hplan, hu⟩ := setFreq_inv h
  have ⟨hmin, hmax, _⟩ := planTuning_ok hplan
  refine ⟨freqOperand params a, by simp [hpfd], hmin, hmax, ?_⟩
  rw [hu]
  simp [SynthSame]

/-- What a completing command writes of the Synthesizer State: `SETPFD` its three values, `SETFREQ` the
target, any other command nothing (R19). -/
theorem Ran.synth {i : Instr} {s u : State} {d : ResultData} (h : Ran i s d u) :
    (∃ a b, i = .setpfd a b ∧ SetBy a b u ∧ u.fTarget = s.fTarget) ∨
    (∃ a f, i = .setfreq a ∧ s.fPfd ≠ none ∧ params.fOutMin ≤ f ∧ f ≤ params.fOutMax ∧
      SynthSame { s with fTarget := some f } u) ∨
    SynthSame s u := by
  cases h with
  | setpfd a b _ _ h => exact .inl ⟨a, b, rfl, setPfd_setBy h⟩
  | setfreq a _ _ h =>
    obtain ⟨f, hf⟩ := setFreq_target h
    exact .inr (.inl ⟨a, f, rfl, hf⟩)
  | _ =>
    exact .inr (.inr (by
      simp [SynthSame, setGroup, readAdc, readTemp, readVco, readDiag, sampleAdc]))

theorem SynthOk.of_same {s t : State} (hs : SynthOk s) (h : SynthSame s t) : SynthOk t := by
  obtain ⟨h₁, h₂, h₃, h₄⟩ := h
  simpa only [SynthOk, SetBy, h₁, h₂, h₃, h₄] using hs

theorem Ran.synthOk {i : Instr} {s u : State} {d : ResultData} (h : Ran i s d u) (hs : SynthOk s) :
    SynthOk u := by
  obtain ⟨hset, htarget⟩ := hs
  rcases h.synth with ⟨a, b, -, hu, hf⟩ | ⟨a, f, -, hpfd, hmin, hmax, hu⟩ | hu
  · exact ⟨.inr ⟨a, b, hu⟩, by rwa [hf]⟩
  · refine SynthOk.of_same (s := { s with fTarget := some f }) ⟨.inr ?_, ?_⟩ hu
    · exact hset.resolve_left fun ⟨_, _, hnone, _⟩ => hpfd hnone
    · rintro _ ⟨⟩
      exact ⟨hmin, hmax⟩
  · exact SynthOk.of_same ⟨hset, htarget⟩ hu

/-- Settles O13, by the two writers of the Synthesizer State (`Ran.synth`). -/
theorem synthesizerStateStaysCoherent : Obligations.SynthesizerStateStaysCoherent := fun _ _ hs h =>
  step_keeps (P := SynthOk) resetEvent_synthOk (fun _ _ hs => hs)
    (fun hs hu => hu.synthOk hs) (fun _ _ hs => hs) hs h

/-- Settles O23: a command that ends with an error writes nothing, one that completes only what `Ran.synth`
says. -/
theorem synthesizerStateHasTwoWriters : Obligations.SynthesizerStateHasTwoWriters := by
  intro i s t h
  rcases exec_cases h with ⟨op, d, u, hu, rfl⟩ | ⟨c, -, rfl⟩
  · rcases hu.synth with ⟨a, b, hi, -, hf⟩ | ⟨a, f, hi, -, -, -, h₁, h₂, h₃, -⟩ | ⟨h₁, h₂, h₃, h₄⟩
    · exact ⟨fun hne => absurd hi (hne a b), fun _ => hf⟩
    · exact ⟨fun _ => ⟨h₁, h₂, h₃⟩, fun hne => absurd hi (hne a)⟩
    · exact ⟨fun _ => ⟨h₁, h₂, h₃⟩, fun _ => h₄⟩
  · exact ⟨fun _ => ⟨rfl, rfl, rfl⟩, fun _ => rfl⟩

/-! ### The link -/

/-- What a step leaves of the link, between commands: it is the reset event, or it carries some words and
ends between commands again (R28, R94). -/
theorem step_link {s t : State} (hs : TagsOk s) (hp : PinsIdle s) (h : step s = .next t) :
    (∃ rest, s.offers = .reset :: rest ∧ t = resetEvent { s with offers := rest }) ∨
    (PinsIdle t ∧ ∃ es ws, Carries s t es ws) := by
  obtain ⟨hle, hclk⟩ := hp
  rcases step_cases h with ⟨rfl, -⟩ | hreset | ⟨w, rest, -, -, ⟨i, -, hi⟩ | rfl⟩
  · exact .inr ⟨⟨hle, hclk⟩, _, _, Carries.refl t⟩
  · exact .inl hreset
  · rcases exec_cases hi with ⟨op, d, u, hu, rfl⟩ | ⟨c, -, rfl⟩
    · obtain ⟨es, ws, hlink⟩ := hu.linkRun (tagsOk_accept op hs) hclk
      have haccept : LinkSame s (accept op { s with offers := rest }) := by simp [LinkSame]
      have hrespond : LinkSame u (respond .ok d u) := by simp [LinkSame]
      exact .inr ⟨⟨hlink.le hle, hlink.clk⟩, _, _,
        ((Carries.of_same haccept).trans hlink.carries).trans (Carries.of_same hrespond)⟩
    · exact .inr ⟨⟨hle, hclk⟩, _, _, Carries.of_same (by simp [LinkSame])⟩
  · exact .inr ⟨⟨hle, hclk⟩, _, _, Carries.of_same (by simp [LinkSame])⟩

theorem Carries.newEvents {s t : State} {es : List PinEvent} {ws : List Word}
    (h : Carries s t es ws) : newEvents s t = es := by
  rw [Machine.newEvents, h.trace, List.drop_left]

theorem Carries.pinsTraced {s t : State} {es : List PinEvent} {ws : List Word}
    (h : Carries s t es ws) (hs : PinsTraced s) : PinsTraced t := by
  obtain ⟨hle, hclk, hdata⟩ := hs
  simp only [PinsTraced, h.trace, lastLevel_append, ← hle, ← hclk, ← hdata]
  exact ⟨h.le, h.clk, h.dataOut⟩

/-- The receiver goes on from the words it has heard, and so does the ghost chip. -/
theorem Carries.traceExplains {s t : State} {es : List PinEvent} {ws : List Word}
    (h : Carries s t es ws) (hs : TraceExplains s) : TraceExplains t := by
  obtain ⟨ws₀, hheard, hchip, hrb⟩ := hs
  obtain ⟨hchip', hrb'⟩ := latchAll_chip_congr ws hchip hrb
  refine ⟨ws₀ ++ ws, ?_, ?_, ?_⟩
  · rw [h.trace, List.foldl_append, hheard, h.heard]
  · rw [h.chip, latchAll_append, hchip']
  · rw [h.chipRb, latchAll_append, hrb']

/-- Settles O12: a step drives the events it adds to the trace, and no others. -/
theorem pinsStayAtTheirLastLevels : Obligations.PinsStayAtTheirLastLevels := by
  intro s t hs hp htraced h
  rcases step_link hs hp h with ⟨rest, -, rfl⟩ | ⟨hp', es, ws, hcarries⟩
  · exact ⟨⟨rfl, rfl⟩, rfl, rfl, rfl⟩
  · exact ⟨hp', hcarries.pinsTraced htraced⟩

/-- Settles O17: what a step but a reset carries is what a receiver hears of the events it has added. -/
theorem ghostChipIsWhatTheLinkCarried : Obligations.GhostChipIsWhatTheLinkCarried := by
  intro s t hs hp hoffers h
  rcases step_link hs hp h with ⟨rest, hreset, -⟩ | ⟨-, es, ws, hcarries⟩
  · exact absurd hreset (hoffers rest)
  · rw [hcarries.newEvents, hcarries.frames]
    exact ⟨hcarries.trace, hcarries.chip, hcarries.chipRb⟩

/-- Settles O18: the explanation of the trace so far goes on with the events of the step. -/
theorem traceExplainsTheGhostChip : Obligations.TraceExplainsTheGhostChip := by
  intro s t hs hp hexplains h
  rcases step_link hs hp h with ⟨rest, -, rfl⟩ | ⟨-, es, ws, hcarries⟩
  · exact resetEvent_traceExplains _
  · exact hcarries.traceExplains hexplains

/-! ### The ghost chip -/

/-- The ghost chip is coherent (R37, R38). -/
def GhostOk (s : State) : Prop := ChipOk s ∧ ReadbackFlagOk s

theorem GhostOk.of_same {s t : State} (hs : GhostOk s) (hchip : t.chip = s.chip)
    (hrb : t.chipRb = s.chipRb) : GhostOk t := by
  simpa only [GhostOk, ChipOk, ReadbackFlagOk, hchip, hrb] using hs

/-- A frame writes the register its word is tagged for, or sets the readback flag (R38). -/
theorem GhostOk.sendFrame {s : State} (hs : GhostOk s) (v : Word) :
    GhostOk (sendFrame params v s) := by
  obtain ⟨hchip, hrb⟩ := hs
  refine ⟨fun i w hw => ?_, ?_⟩
  · rw [sendFrame_chip] at hw
    split at hw
    case isTrue htag =>
      obtain rfl := Option.some.inj hw
      exact ⟨BitVec.eq_of_toNat_eq (by rw [htag.1]; simp; omega), htag.2⟩
    case isFalse => exact hchip i w hw
  · rw [ReadbackFlagOk, sendFrame_chipRb]
    split
    case isTrue => simp
    case isFalse => exact hrb

theorem GhostOk.sendReg {s : State} (hs : GhostOk s) (i : RegIndex) :
    GhostOk (sendReg params i s) := hs.sendFrame _

theorem GhostOk.setFields {s : State} (hs : GhostOk s) (fs : List (Field × Nat)) :
    GhostOk (setFields layoutDoc fs s) := hs.of_same (by simp) (by simp)

theorem GhostOk.writeAll {s : State} (hs : GhostOk s) : GhostOk (writeAll params s) := by
  rw [writeAll_eq]
  exact (((((hs.sendReg 5).sendReg 4).sendReg 3).sendReg 2).sendReg 1).sendReg 0

theorem GhostOk.sent {s : State} (hs : GhostOk s) (fs : List (Field × Nat)) :
    GhostOk (Machine.writeAll params (Machine.setFields layoutDoc fs s)) := (hs.setFields fs).writeAll

/-- The read phase sends no frame, so the readback is its three requests (R89). -/
theorem GhostOk.readReg6 {s : State} (hs : GhostOk s) : GhostOk (readReg6 params s).2 := by
  have hrequest : GhostOk (requestReadback params s) := by
    rw [requestReadback_eq]
    exact (((hs.setFields _).sendReg 5).sendReg 2).sendFrame _
  have hread : GhostOk (shiftIn params (requestReadback params s)).2 :=
    hrequest.of_same (shiftIn_chip _ _) (shiftIn_chipRb _ _)
  exact hread.setFields _

theorem GhostOk.sampleAdc {s : State} (hs : GhostOk s) (mode : Nat) :
    GhostOk (sampleAdc params mode s) := by
  have hwait : GhostOk (wait params.tSettle (Machine.sendReg params 5 (converting mode s))) :=
    ((hs.setFields _).sendReg 5).of_same (wait_chip _ _) (wait_chipRb _ _)
  exact ((hwait.readReg6.setFields _).sendReg 5).of_same (writeReg_chip _ _ _) (writeReg_chipRb _ _ _)

theorem GhostOk.readVco {s : State} (hs : GhostOk s) : GhostOk (readVco params s).2 :=
  hs.readReg6.of_same (writeReg_chip _ _ _) (writeReg_chipRb _ _ _)

theorem Ran.ghostOk {i : Instr} {s u : State} {d : ResultData} (h : Ran i s d u) (hs : GhostOk s) :
    GhostOk u := by
  cases h with
  | rdw | rdf | getfreq => exact hs
  | wrw | wrf | apply6 => exact hs.of_same (by simp) (by simp)
  | writeword | serial => exact hs.sendFrame _
  | writeall => exact hs.writeAll
  | readreg6 => exact hs.readReg6
  | setpfd a b _ _ h =>
    have ⟨_, _, _, hu⟩ := setPfd_inv h
    have hset : GhostOk (pfdSet a b s) := hs
    rw [hu]
    exact hset.sent _
  | setfreq a _ _ h =>
    have ⟨_, _, _, _, hu⟩ := setFreq_inv h
    have hset : GhostOk { s with fTarget := some (freqOperand params a) } := hs
    rw [hu]
    exact hset.sent _
  | power | outen | outdis => exact hs.sent _
  | readadc | readtemp => exact hs.sampleAdc _
  | readvco => exact hs.readVco
  | readld => exact hs.of_same (by simp) (by simp)
  | readdiag => exact ((hs.sampleAdc _).sampleAdc _).readVco

/-- Settles O15: the ghost chip changes by frames alone, and each frame keeps it coherent. -/
theorem ghostChipStaysCoherent : Obligations.GhostChipStaysCoherent := fun _ _ hc hr h =>
  step_keeps (P := GhostOk) (fun s => ⟨resetEvent_chipOk s, nofun⟩) (fun _ _ hs => hs)
    (fun hs hu => hu.ghostOk hs) (fun _ _ hs => hs) ⟨hc, hr⟩ h

/-! ### Register 6 -/

/-- The fields of register 6 are those with ids 26 to 29 (R16). -/
theorem layoutDoc_reg_eq_six (f : Field) :
    (layoutDoc f).reg = 6 ↔ 26 ≤ fieldId f ∧ fieldId f ≤ 29 := by
  cases f <;> decide

/-- A readback does not apply the word it reads (R18, R89). -/
theorem readReg6_reg6 (s : State) : readReg 6 (readReg6 params s).2 = readReg 6 s := by
  have hroute : (requestReadback params s).regs = (routed s).regs := by simp [requestReadback_eq]
  calc readReg 6 (readReg6 params s).2
      = readReg 6 (shiftIn params (requestReadback params s)).2 :=
        readReg_setFields_ne _ _ 6 (by simp [layoutDoc])
    _ = readReg 6 (routed s) := readReg_of_regs ((shiftIn_regs _ _).trans hroute) 6
    _ = readReg 6 s := readReg_setFields_ne _ _ 6 (by simp [layoutDoc])

/-- Field writes outside register 6 and the frames of `WRITEALL` leave register 6 alone. -/
theorem sent_reg6 (fs : List (Field × Nat)) (s : State)
    (h : ∀ fx ∈ fs, (layoutDoc fx.1).reg ≠ 6) :
    readReg 6 (writeAll params (setFields layoutDoc fs s)) = readReg 6 s := by
  rw [readReg_writeAll, readReg_setFields_ne fs s 6 h]

theorem tuneFields_reg_ne_six (t : Tuning) :
    ∀ fx ∈ tuneFields params t, (layoutDoc fx.1).reg ≠ 6 := by
  unfold tuneFields modeFields
  split <;> simp [layoutDoc]

/-- The commands that may change register 6 (R18). -/
def WritesRegisterSix (i : Instr) : Prop :=
  (∃ b, i = .apply6 b) ∨ i = .readadc ∨ i = .readtemp ∨ i = .readvco ∨ i = .readdiag ∨
    (∃ a b, i = .wrw a b ∧ a.toNat = 6) ∨ ∃ a b, i = .wrf a b ∧ 26 ≤ a.toNat ∧ a.toNat ≤ 29

theorem Ran.reg6 {i : Instr} {s u : State} {d : ResultData} (h : Ran i s d u) :
    WritesRegisterSix i ∨ readReg 6 u = readReg 6 s := by
  cases h with
  | apply6 | readadc | readtemp | readvco | readdiag => simp [WritesRegisterSix]
  | wrw a b _ i ha =>
    rcases regOperand_cases ha with ⟨j, hj, ⟨⟩⟩ | ⟨-, ⟨⟩⟩
    by_cases hi : i = 6
    case pos => exact .inl (by simp [WritesRegisterSix, hj, hi])
    case neg => exact .inr (readReg_writeReg_ne (Ne.symm hi) b s)
  | wrf a b _ f ha =>
    rcases fieldOperand_cases ha with ⟨g, hg, ⟨⟩⟩ | ⟨-, ⟨⟩⟩
    by_cases hf : (layoutDoc f).reg = 6
    case pos => exact .inl (by simpa [WritesRegisterSix, hg] using (layoutDoc_reg_eq_six f).1 hf)
    case neg => exact .inr (readReg_writeReg_ne (Ne.symm hf) _ s)
  | setpfd a b _ _ h =>
    have ⟨_, _, _, hu⟩ := setPfd_inv h
    exact .inr (by rw [hu, sent_reg6 _ _ (by simp [pfdFields, layoutDoc])]; rfl)
  | setfreq a _ _ h =>
    have ⟨_, t, _, _, hu⟩ := setFreq_inv h
    exact .inr (by rw [hu, sent_reg6 _ _ (tuneFields_reg_ne_six t)]; rfl)
  | power | outen | outdis => exact .inr (sent_reg6 _ _ (by simp [layoutDoc]))
  | readreg6 => exact .inr (readReg6_reg6 s)
  | rdw | rdf | writeword | writeall | getfreq | readld | serial => simp

/-- Settles O22: every other command writes registers 0 to 5 only, and an error writes none. -/
theorem registerSixChangesOnlyByItsList : Obligations.RegisterSixChangesOnlyByItsList := by
  intro i s t h hne
  rcases exec_cases h with ⟨op, d, u, hu, rfl⟩ | ⟨c, -, rfl⟩
  · exact hu.reg6.resolve_right hne
  · exact absurd rfl hne

end Sys2Proof.Machine
end

section
/-!
PROOFS. What the commands do not depend on: a relation between states that every operation respects is kept
by every instruction; the inputs replaced, and the ghosts replaced, are such relations (R25, R28, R32, R40).
-/

namespace Sys2Proof.Machine

/-! ### Relations that the operations respect -/

/-- `R` relates states that agree on what the rules compute from, the registers and `F_PFD`, and every
primitive operation but the two samples keeps them related. -/
structure Respected (R : State → State → Prop) : Prop where
  regs {s t} : R s t → t.regs = s.regs
  fPfd {s t} : R s t → t.fPfd = s.fPfd
  writeReg {s t} (i v) : R s t → R (writeReg i v s) (writeReg i v t)
  pfdSet {s t} (a b) : R s t → R (pfdSet a b s) (pfdSet a b t)
  target {s t} (f) : R s t → R { s with fTarget := f } { t with fTarget := f }
  drive {s t} (es) : R s t → R (drive es s) (drive es t)
  memWrite {s t} (v) : R s t → R (memWrite v s) (memWrite v t)
  accept {s t} (op) : R s t → R (accept op s) (accept op t)
  respond {s t} (c d) : R s t → R (respond c d s) (respond c d t)

/-- Two results agree: the same value, related states. -/
def Agree {α : Type} (R : State → State → Prop) (x y : α × State) : Prop :=
  y.1 = x.1 ∧ R x.2 y.2

theorem Agree.pair {α : Type} {R : State → State → Prop} {d e : α} {u v : State} (hde : e = d)
    (h : R u v) : Agree R (d, u) (e, v) := ⟨hde, h⟩

/-- Two checked results agree: the same error, or two values that `ρ` relates. -/
inductive AgreeExcept {α : Type} (ρ : α → α → Prop) : Except Code α → Except Code α → Prop where
  | ok {x y} (h : ρ x y) : AgreeExcept ρ (.ok x) (.ok y)
  | error (c) : AgreeExcept ρ (.error c) (.error c)

theorem AgreeExcept.map {α β : Type} {ρ : α → α → Prop} {σ : β → β → Prop} {x y : Except Code α}
    {f g : α → β} (h : AgreeExcept ρ x y) (hfg : ∀ a b, ρ a b → σ (f a) (g b)) :
    AgreeExcept σ (x.map f) (y.map g) := by
  cases h with
  | ok h => exact .ok (hfg _ _ h)
  | error c => exact .error c

/-- A check that is the same on both sides, and what each side makes of its value. -/
theorem AgreeExcept.map_same {α β : Type} {σ : β → β → Prop} (x : Except Code α) {f g : α → β}
    (hfg : ∀ a, σ (f a) (g a)) : AgreeExcept σ (x.map f) (x.map g) := by
  cases x with
  | ok a => exact .ok (hfg a)
  | error c => exact .error c

/-- Two instructions agree: each answers, and the states they leave are related. -/
def AgreeOutcome (R : State → State → Prop) (x y : Host.Outcome State Fault Refusal) : Prop :=
  ∃ u v, x = .next u ∧ y = .next v ∧ R u v

/-- `SETFREQ` before any `SETPFD` (R107). -/
theorem setFreq_of_none (a : BitVec 32) {s : State} (h : s.fPfd = none) :
    setFreq params a s = .error .noPfd := by
  rw [setFreq, h]

/-- `SETFREQ` with a PFD frequency: the plan decides, the state is only written (R99). -/
theorem setFreq_of_some (a : BitVec 32) {s : State} {pfd : ℚ} (h : s.fPfd = some pfd) :
    setFreq params a s = (planTuning params pfd (freqOperand params a)).map fun plan =>
      writeAll params (setFields params.layout (tuneFields params plan)
        { s with fTarget := some (freqOperand params a) }) := by
  rcases setFreq_cases a s with ⟨hnone, -⟩ | ⟨_, c, hpfd, hplan, hs⟩ | ⟨_, plan, hpfd, hplan, hs⟩
  · simp [h] at hnone
  all_goals
    obtain rfl := Option.some.inj (h.symm.trans hpfd)
    rw [hs, hplan]
    rfl

namespace Respected

variable {R : State → State → Prop} (hR : Respected R) {s t : State} (h : R s t)
include hR h

theorem readReg (i : RegIndex) : readReg i t = readReg i s := readReg_of_regs (hR.regs h) i

theorem getField (l : Layout) (f : Field) : getField l f t = getField l f s :=
  getField_of_regs l f (hR.regs h)

/-! #### Registers and frames -/

theorem setField (l : Layout) (f : Field) (x : Nat) : R (setField l f x s) (setField l f x t) := by
  unfold Machine.setField
  rw [hR.readReg h]
  exact hR.writeReg _ _ h

theorem setFields (l : Layout) (fs : List (Field × Nat)) :
    R (setFields l fs s) (setFields l fs t) := by
  induction fs generalizing s t with
  | nil => exact h
  | cons fx fs ih => exact ih (hR.setField h l fx.1 fx.2)

theorem sendFrame (v : Word) : R (sendFrame params v s) (sendFrame params v t) :=
  hR.memWrite v (hR.drive _ h)

theorem sendReg (i : RegIndex) : R (sendReg params i s) (sendReg params i t) := by
  unfold Machine.sendReg
  rw [hR.readReg h]
  exact hR.sendFrame h _

theorem writeAll : R (writeAll params s) (writeAll params t) := by
  rw [writeAll_eq, writeAll_eq]
  exact hR.sendReg (hR.sendReg (hR.sendReg (hR.sendReg (hR.sendReg (hR.sendReg h 5) 4) 3) 2) 1) 0

theorem sent (fs : List (Field × Nat)) :
    R (Machine.writeAll params (Machine.setFields params.layout fs s))
      (Machine.writeAll params (Machine.setFields params.layout fs t)) :=
  hR.writeAll (hR.setFields h _ fs)

/-! #### The synthesis engine -/

theorem setPfd (a b : BitVec 32) :
    AgreeExcept R (setPfd params a b s) (setPfd params a b t) := by
  unfold Machine.setPfd
  by_cases hzero : a = 0 ∨ b = 0
  · simp only [if_pos hzero]
    exact .error .zero
  · by_cases hwide : 2 ^ (params.layout .rdiv).width - 1 < b.toNat
    · simp only [if_neg hzero, if_pos hwide]
      exact .error .field
    · simp only [if_neg hzero, if_neg hwide]
      exact .ok (hR.sent (hR.pfdSet a b h) _)

theorem setFreq (a : BitVec 32) : AgreeExcept R (setFreq params a s) (setFreq params a t) := by
  cases hpfd : s.fPfd with
  | none =>
    rw [setFreq_of_none a hpfd, setFreq_of_none a ((hR.fPfd h).trans hpfd)]
    exact .error .noPfd
  | some pfd =>
    rw [setFreq_of_some a hpfd, setFreq_of_some a ((hR.fPfd h).trans hpfd)]
    exact .map_same _ fun plan => hR.sent (hR.target _ h) _

theorem getFreq_eq : getFreq params t = getFreq params s :=
  calc getFreq params t = getFreq params { s with regs := t.regs, fPfd := t.fPfd } := rfl
    _ = getFreq params s := by rw [hR.regs h, hR.fPfd h]

/-! #### Readings -/

/-- Both guards and values of a reading are computed from the registers. -/
theorem decode_eq : decodeVolts params t = decodeVolts params s ∧
    decodeDegrees params t = decodeDegrees params s := by
  constructor
  · calc decodeVolts params t = decodeVolts params { s with regs := t.regs } := rfl
      _ = decodeVolts params s := by rw [hR.regs h]
  · calc decodeDegrees params t = decodeDegrees params { s with regs := t.regs } := rfl
      _ = decodeDegrees params s := by rw [hR.regs h]

theorem wait (us : Nat) : R (wait us s) (wait us t) := hR.drive _ h

theorem setGroup (fs : List Field) (x : Nat) :
    R (setGroup params fs x s) (setGroup params fs x t) := hR.sent h _

section
variable (hsample : ∀ {s t : State}, R s t → Agree R (readDataIn s) (readDataIn t))
include hsample

theorem xferBits (o : BitVec 8) (n : Nat) (r : BitVec 8) :
    Agree R (xferBits params o n r s) (xferBits params o n r t) := by
  induction n generalizing r s t with
  | zero => exact ⟨rfl, h⟩
  | succ n ih =>
    obtain ⟨hlevel, hstate⟩ :=
      hsample (hR.drive [.write .dataOut (o.getLsbD n), .write .clk (!params.clkIdle)] h)
    simp only [Machine.xferBits, hlevel]
    exact ih (hR.drive _ hstate) _

theorem xferByte (o : BitVec 8) : Agree R (xferByte params o s) (xferByte params o t) :=
  hR.xferBits h hsample o 8 0

theorem shiftIn : Agree R (shiftIn params s) (shiftIn params t) := by
  obtain ⟨b0, h0⟩ := hR.xferByte h hsample 0x00
  obtain ⟨b1, h1⟩ := hR.xferByte h0 hsample 0x00
  obtain ⟨b2, h2⟩ := hR.xferByte h1 hsample 0x00
  obtain ⟨b3, h3⟩ := hR.xferByte h2 hsample 0x00
  exact ⟨by simp only [Machine.shiftIn, b0, b1, b2, b3], hR.drive _ h3⟩

theorem readReg6 : Agree R (readReg6 params s) (readReg6 params t) := by
  have hrequest : R (requestReadback params s) (requestReadback params t) :=
    hR.sendFrame (hR.sendReg (hR.sendReg (hR.setFields h _ _) 5) 2) _
  obtain ⟨hword, hread⟩ := hR.shiftIn hrequest hsample
  refine ⟨hword, ?_⟩
  simp only [Machine.readReg6, hR.getField h]
  exact hR.setFields hread _ _

theorem sampleAdc (mode : Nat) : R (sampleAdc params mode s) (sampleAdc params mode t) := by
  have hstarted := hR.wait (hR.sendReg (hR.setFields h params.layout [(.adcm, mode), (.adcs, 1)]) 5)
    params.tSettle
  obtain ⟨hword, hread⟩ := hR.readReg6 hstarted hsample
  have hidle := hR.sendReg (hR.setFields hread params.layout [(.adcm, params.adcmIdle), (.adcs, 0)]) 5
  simp only [Machine.sampleAdc, hword]
  exact hR.writeReg 6 _ hidle

theorem readAdc : Agree R (readAdc params s) (readAdc params t) := by
  have hstate := hR.sampleAdc h hsample params.adcmVtune
  refine ⟨?_, hstate⟩
  simp only [Machine.readAdc, (hR.decode_eq hstate).1, hR.getField hstate]

theorem readTemp : Agree R (readTemp params s) (readTemp params t) := by
  have hstate := hR.sampleAdc h hsample params.adcmTemp
  refine ⟨?_, hstate⟩
  simp only [Machine.readTemp, (hR.decode_eq hstate).2, hR.getField hstate]

theorem readVco : Agree R (readVco params s) (readVco params t) := by
  obtain ⟨hword, hread⟩ := hR.readReg6 h hsample
  have happlied := hR.writeReg 6 (Machine.readReg6 params s).1 hread
  simp only [Machine.readVco, hword]
  exact ⟨hR.getField happlied _ _, happlied⟩

theorem readDiag : Agree R (readDiag params s) (readDiag params t) := by
  obtain ⟨hvolts, h1⟩ := hR.readAdc h hsample
  obtain ⟨hdegrees, h2⟩ := hR.readTemp h1 hsample
  obtain ⟨hvco, h3⟩ := hR.readVco h2 hsample
  exact ⟨by simp only [Machine.readDiag, hvolts, hdegrees, hvco], h3⟩

end

/-! #### Instructions -/

theorem runCommand {op : BitVec 8} {body : State → Except Code (ResultData × State)}
    (hbody : ∀ {s t}, R s t → AgreeExcept (Agree R) (body s) (body t)) :
    AgreeOutcome R (runCommand op body s) (runCommand op body t) := by
  have hagree := hbody (hR.accept op h)
  unfold Machine.runCommand
  revert hagree
  cases body (Machine.accept op s) <;> cases body (Machine.accept op t) <;> rintro ⟨⟩
  case error.error c => exact ⟨_, _, rfl, rfl, hR.respond c 0 h⟩
  case ok.ok x y hxy =>
    obtain ⟨hdata, hstate⟩ := hxy
    refine ⟨_, _, rfl, rfl, ?_⟩
    rw [hdata]
    exact hR.respond .ok x.1 hstate

theorem runSerial (v : Word) : AgreeOutcome R (runSerial v s) (runSerial v t) :=
  hR.runCommand h fun h => .ok ⟨rfl, hR.sendFrame h v⟩

/-- An instruction run in two related states answers alike, when the samples it takes keep the states
related. -/
theorem exec (i : Instr)
    (hdata : i ∈ [Instr.readreg6, .readadc, .readtemp, .readvco, .readdiag] →
      ∀ {s t : State}, R s t → Agree R (readDataIn s) (readDataIn t))
    (hld : i = .readld → ∀ {s t : State}, R s t → Agree R (readLdIn s) (readLdIn t)) :
    AgreeOutcome R (exec i s) (exec i t) := by
  unfold Machine.exec
  cases i with
  | rdw a =>
    refine hR.runCommand h fun {s t} h => ?_
    exact .map_same _ fun _ => .pair (by rw [hR.readReg h]) h
  | wrw a b =>
    refine hR.runCommand h fun {s t} h => ?_
    exact .map_same _ fun _ => .pair rfl (hR.writeReg _ b h)
  | rdf a =>
    refine hR.runCommand h fun {s t} h => ?_
    exact .map_same _ fun _ => .pair (by rw [hR.getField h]) h
  | wrf a b =>
    refine hR.runCommand h fun {s t} h => ?_
    exact .map_same _ fun _ => .pair rfl (hR.setField h _ _ _)
  | apply6 b =>
    refine hR.runCommand h fun {s t} h => ?_
    exact .ok (.pair rfl (hR.writeReg 6 b h))
  | writeword b =>
    refine hR.runCommand h fun {s t} h => ?_
    exact .ok (.pair rfl (hR.sendFrame h b))
  | writeall =>
    refine hR.runCommand h fun {s t} h => ?_
    exact .ok (.pair rfl (hR.writeAll h))
  | readreg6 =>
    refine hR.runCommand h fun {s t} h => ?_
    obtain ⟨hword, hstate⟩ := hR.readReg6 h (hdata (by simp))
    exact .ok (.pair (by rw [hword]) hstate)
  | setpfd a b =>
    refine hR.runCommand h fun {s t} h => ?_
    exact (hR.setPfd h a b).map fun _ _ hu => .pair rfl hu
  | setfreq a =>
    refine hR.runCommand h fun {s t} h => ?_
    exact (hR.setFreq h a).map fun _ _ hu => .pair rfl hu
  | power | outen | outdis =>
    refine hR.runCommand h fun {s t} h => ?_
    exact .ok (.pair rfl (hR.setGroup h _ _))
  | getfreq =>
    refine hR.runCommand h fun {s t} h => ?_
    rw [hR.getFreq_eq h]
    exact .map_same _ fun _ => .pair rfl h
  | readadc =>
    refine hR.runCommand h fun {s t} h => ?_
    obtain ⟨hreading, hstate⟩ := hR.readAdc h (hdata (by simp))
    exact .ok (.pair (by rw [hreading]) hstate)
  | readtemp =>
    refine hR.runCommand h fun {s t} h => ?_
    obtain ⟨hreading, hstate⟩ := hR.readTemp h (hdata (by simp))
    exact .ok (.pair (by rw [hreading]) hstate)
  | readvco =>
    refine hR.runCommand h fun {s t} h => ?_
    obtain ⟨hindex, hstate⟩ := hR.readVco h (hdata (by simp))
    exact .ok (.pair (by rw [hindex]) hstate)
  | readld =>
    refine hR.runCommand h fun {s t} h => ?_
    obtain ⟨hlevel, hstate⟩ := hld rfl h
    exact .ok (.pair (by rw [hlevel]) hstate)
  | readdiag =>
    refine hR.runCommand h fun {s t} h => ?_
    obtain ⟨hdiag, hstate⟩ := hR.readDiag h (hdata (by simp))
    exact .ok (.pair (by rw [hdiag]) hstate)
  | w0 | w1 | w2 | w3 | w4 | w5 | w6 | rbreq => exact hR.runSerial h _

end Respected

/-! ### What does not matter -/

/-- The inputs of the second state are `d` and `l`, all else is alike. -/
def InputsReplaced (d l : InPort) (s t : State) : Prop := t = { s with dataIn := d, ldIn := l }

/-- `LD_IN` of the second state is `l`, all else is alike. -/
def LdInReplaced (l : InPort) (s t : State) : Prop := t = { s with ldIn := l }

/-- The states are alike but for the ghosts. -/
def GhostsApart (s t : State) : Prop :=
  ∃ c r tr e, t = { s with chip := c, chipRb := r, pinTrace := tr, errorSeen := e }

theorem memWrite_inputs (v : Word) (d l : InPort) (s : State) :
    memWrite v { s with dataIn := d, ldIn := l } =
      { memWrite v s with dataIn := d, ldIn := l } := by
  unfold memWrite
  split_ifs <;> rfl

theorem inputsReplaced_respected (d l : InPort) : Respected (InputsReplaced d l) where
  regs := by rintro _ _ rfl; rfl
  fPfd := by rintro _ _ rfl; rfl
  writeReg _ _ := by rintro rfl; rfl
  pfdSet _ _ := by rintro rfl; rfl
  target _ := by rintro rfl; rfl
  drive _ := by rintro rfl; rfl
  memWrite v := by rintro rfl; exact memWrite_inputs v d l _
  accept _ := by rintro rfl; rfl
  respond _ _ := by rintro rfl; rfl

theorem ldInReplaced_respected (l : InPort) : Respected (LdInReplaced l) where
  regs := by rintro _ _ rfl; rfl
  fPfd := by rintro _ _ rfl; rfl
  writeReg _ _ := by rintro rfl; rfl
  pfdSet _ _ := by rintro rfl; rfl
  target _ := by rintro rfl; rfl
  drive _ := by rintro rfl; rfl
  memWrite {s _} v := by
    rintro rfl
    simpa [LdInReplaced] using memWrite_inputs v s.dataIn l s
  accept _ := by rintro rfl; rfl
  respond _ _ := by rintro rfl; rfl

theorem ghostsApart_respected : Respected GhostsApart where
  regs := by rintro _ _ ⟨_, _, _, _, rfl⟩; rfl
  fPfd := by rintro _ _ ⟨_, _, _, _, rfl⟩; rfl
  writeReg _ _ := by rintro ⟨_, _, _, _, rfl⟩; exact ⟨_, _, _, _, rfl⟩
  pfdSet _ _ := by rintro ⟨_, _, _, _, rfl⟩; exact ⟨_, _, _, _, rfl⟩
  target _ := by rintro ⟨_, _, _, _, rfl⟩; exact ⟨_, _, _, _, rfl⟩
  drive _ := by rintro ⟨_, _, _, _, rfl⟩; exact ⟨_, _, _, _, rfl⟩
  memWrite v := by
    rintro ⟨_, _, _, _, rfl⟩
    unfold memWrite
    split_ifs <;> exact ⟨_, _, _, _, rfl⟩
  accept _ := by rintro ⟨_, _, _, _, rfl⟩; exact ⟨_, _, _, _, rfl⟩
  respond _ _ := by rintro ⟨_, _, _, _, rfl⟩; exact ⟨_, _, _, _, rfl⟩

/-- Settles O24: replacing the inputs is respected by all but the samples, replacing `LD_IN` also by the
samples of `DATA_IN`. -/
theorem inputsMatterOnlyToReadings : Obligations.InputsMatterOnlyToReadings := by
  intro i s t d l h
  constructor
  · intro hi
    have hsub : [Instr.readreg6, .readadc, .readtemp, .readvco, .readdiag] ⊆
        [Instr.readreg6, .readadc, .readtemp, .readvco, .readld, .readdiag] := by decide
    obtain ⟨u, v, hu, hv, rfl⟩ := (inputsReplaced_respected d l).exec (s := s) rfl i
      (fun hmem => absurd (hsub hmem) hi) (fun hld => absurd (by simp [hld]) hi)
    obtain rfl : t = u := by simpa [h] using hu
    exact hv
  · intro hi
    obtain ⟨u, v, hu, hv, rfl⟩ := (ldInReplaced_respected l).exec (s := s) rfl i
      (fun _ => by rintro s _ rfl; exact ⟨rfl, rfl⟩) (fun hld => absurd hld hi)
    obtain rfl : t = u := by simpa [h] using hu
    exact hv

/-- Settles O25: replacing the ghosts is respected by every operation, the samples included. -/
theorem ghostsAreNeverRead : Obligations.GhostsAreNeverRead := by
  intro i s t c r tr e h
  obtain ⟨u, v, hu, hv, c', r', tr', e', rfl⟩ :=
    ghostsApart_respected.exec (s := s) ⟨c, r, tr, e, rfl⟩ i
      (fun _ => by rintro _ _ ⟨_, _, _, _, rfl⟩; exact ⟨rfl, _, _, _, _, rfl⟩)
      (fun _ => by rintro _ _ ⟨_, _, _, _, rfl⟩; exact ⟨rfl, _, _, _, _, rfl⟩)
  obtain rfl : t = u := by simpa [h] using hu
  exact ⟨_, hv, rfl⟩

end Sys2Proof.Machine
end

section
/-!
PROOFS. The step on the command port (R49, R61, R73), the serial words on the link (R38, R58 to R60, R85)
and the readback of register 6 (R38, R40, R89, R91).
-/

namespace Sys2Proof.Machine

/-! ### Serial words, their numbers and their pieces (R58 to R60) -/

theorem toNat_append_eq_add {m n : Nat} (x : BitVec m) (y : BitVec n) :
    (x ++ y).toNat = x.toNat * 2 ^ n + y.toNat := by
  rw [BitVec.toNat_append, ← Nat.shiftLeft_add_eq_or_of_lt y.isLt, Nat.shiftLeft_eq]

theorem wordW0_toNat (int : BitVec 1) (n : BitVec 16) (frac : BitVec 12) :
    (wordW0 int n frac).toNat = int.toNat * 2 ^ 31 + n.toNat * 2 ^ 15 + frac.toNat * 2 ^ 3 := by
  simp only [wordW0, toNat_append_eq_add, BitVec.ofNat_eq_ofNat, BitVec.toNat_ofNat]
  omega

theorem wordW1_toNat (rest : BitVec 14) (fcomp : BitVec 1) (cpl : BitVec 2) (m : BitVec 12) :
    (wordW1 rest fcomp cpl m).toNat = rest.toNat * 2 ^ 18 + fcomp.toNat * 2 ^ 17 +
      cpl.toNat * 2 ^ 15 + m.toNat * 2 ^ 3 + 1 := by
  simp only [wordW1, toNat_append_eq_add, BitVec.ofNat_eq_ofNat, BitVec.toNat_ofNat]
  omega

theorem wordW2_toNat (rest : BitVec 13) (lds rdiv2 dbr : BitVec 1) (rdiv : BitVec 10)
    (muxlo : BitVec 3) : (wordW2 rest lds rdiv2 dbr rdiv muxlo).toNat =
      rest.toNat * 2 ^ 19 + lds.toNat * 2 ^ 18 + rdiv2.toNat * 2 ^ 17 + dbr.toNat * 2 ^ 16 +
        rdiv.toNat * 2 ^ 6 + muxlo.toNat * 2 ^ 3 + 2 := by
  simp only [wordW2, toNat_append_eq_add, BitVec.ofNat_eq_ofNat, BitVec.toNat_ofNat]
  omega

theorem wordW3_toNat (rest : BitVec 15) (bsHi : BitVec 2) (bsclk : BitVec 12) :
    (wordW3 rest bsHi bsclk).toNat =
      rest.toNat * 2 ^ 17 + bsHi.toNat * 2 ^ 15 + bsclk.toNat * 2 ^ 3 + 3 := by
  simp only [wordW3, toNat_append_eq_add, BitVec.ofNat_eq_ofNat, BitVec.toNat_ofNat]
  omega

theorem wordW4_toNat (rest : BitVec 8) (sd4 sd3 sd2 sd1 sd0 mtld outenB outenA : BitVec 1)
    (diva : BitVec 3) (bsLo : BitVec 10) :
    (wordW4 rest sd4 sd3 sd2 sd1 sd0 mtld outenB outenA diva bsLo).toNat =
      rest.toNat * 2 ^ 24 + sd4.toNat * 2 ^ 23 + sd3.toNat * 2 ^ 22 + sd2.toNat * 2 ^ 21 +
        sd1.toNat * 2 ^ 20 + sd0.toNat * 2 ^ 19 + mtld.toNat * 2 ^ 18 + outenB.toNat * 2 ^ 17 +
        outenA.toNat * 2 ^ 16 + diva.toNat * 2 ^ 13 + bsLo.toNat * 2 ^ 3 + 4 := by
  simp only [wordW4, toNat_append_eq_add, BitVec.ofNat_eq_ofNat, BitVec.toNat_ofNat]
  omega

theorem wordW5_toNat (rest : BitVec 24) (muxhi adcs : BitVec 1) (adcm : BitVec 3) :
    (wordW5 rest muxhi adcs adcm).toNat =
      rest.toNat * 2 ^ 8 + muxhi.toNat * 2 ^ 7 + adcs.toNat * 2 ^ 6 + adcm.toNat * 2 ^ 3 + 5 := by
  simp only [wordW5, toNat_append_eq_add, BitVec.ofNat_eq_ofNat, BitVec.toNat_ofNat]
  omega

theorem wordW6_toNat (rest : BitVec 14) (adc : BitVec 7) (adcv vasa : BitVec 1) (vco : BitVec 6) :
    (wordW6 rest adc adcv vasa vco).toNat = rest.toNat * 2 ^ 18 + adc.toNat * 2 ^ 11 +
      adcv.toNat * 2 ^ 10 + vasa.toNat * 2 ^ 9 + vco.toNat * 2 ^ 3 + 6 := by
  simp only [wordW6, toNat_append_eq_add, BitVec.ofNat_eq_ofNat, BitVec.toNat_ofNat]
  omega

/-- A tag-6 word with a payload is no readback request (R60). -/
theorem wordW6_ne_readback_request {rest : BitVec 14} {adc : BitVec 7} {adcv vasa : BitVec 1}
    {vco : BitVec 6} (h : wellFormed (.w6 rest adc adcv vasa vco) = true) :
    wordW6 rest adc adcv vasa vco ≠ 0x00000006 := by
  intro heq
  have hsum := (wordW6_toNat rest adc adcv vasa vco).symm.trans (congrArg BitVec.toNat heq)
  have hzero : rest = 0 ∧ adc = 0 ∧ adcv = 0 ∧ vasa = 0 ∧ vco = 0 := by
    simp only [← BitVec.toNat_inj, BitVec.ofNat_eq_ofNat, BitVec.toNat_ofNat] at hsum ⊢
    omega
  obtain ⟨rfl, rfl, rfl, rfl, rfl⟩ := hzero
  exact absurd h (by decide)

theorem tag_eq_extractLsb' {v : Word} {k : Nat} (h : (serialTag v).toNat = k) :
    BitVec.ofNat 3 k = v.extractLsb' 0 3 := by
  rw [← h, BitVec.ofNat_toNat, BitVec.setWidth_eq, serialTag]

/-- A serial word is the word of the payload fields it decodes to: they are its pieces, from bit 31 down to
the tag (R58 to R60). -/
theorem encode_of_decodeSerial {v : Word} {i : Instr} (h : decodeSerial v = .ok i) :
    encode i = .serial v := by
  unfold decodeSerial at h
  split at h
  case h_7 htag =>
    split at h <;> obtain rfl := Except.ok.inj h <;> refine congrArg Packet.serial ?_
    case isTrue heq => exact heq.symm
    case isFalse =>
      simp (disch := omega) only [wordW6, BitVec.ofNat_eq_ofNat, tag_eq_extractLsb' htag,
        BitVec.extractLsb'_append_extractLsb'_eq_extractLsb']
      exact BitVec.extractLsb'_eq_self
  case h_8 => cases h
  all_goals
    next htag =>
      obtain rfl := Except.ok.inj h
      refine congrArg Packet.serial ?_
      simp (disch := omega) only [wordW0, wordW1, wordW2, wordW3, wordW4, wordW5,
        BitVec.ofNat_eq_ofNat, tag_eq_extractLsb' htag,
        BitVec.extractLsb'_append_extractLsb'_eq_extractLsb']
      exact BitVec.extractLsb'_eq_self

/-! ### The command port -/

/-- The second operand of a command word made from its parts (R57). -/
@[simp] theorem commandB_commandOf (op : BitVec 8) (a b : BitVec 32) :
    commandB (commandOf op a b) = b := by
  apply BitVec.eq_of_getLsbD_eq
  intro k hk
  simp only [commandB, commandOf, BitVec.getLsbD_extractLsb', BitVec.getLsbD_append, Nat.zero_add,
    hk, decide_true, Bool.true_and, if_true]

/-- `WRITEWORD`, whatever its unused first operand holds (R57, R61). -/
theorem decodeCommand_writeword (a : BitVec 32) (v : Word) :
    decodeCommand (commandOf 0x10 a v) = .ok (.writeword v) := by
  unfold decodeCommand
  rw [commandOp_commandOf, commandB_commandOf]
  rfl

/-- A command offered to an idle block is taken, and the decoded instruction runs (R49, R61, R73). -/
theorem step_command {s : State} {w : CommandWord} {rest : List Offer} {i : Instr}
    (hoffers : s.offers = .command w :: rest) (hbusy : s.busy = false)
    (hi : decodeCommand w = .ok i) : step s = exec i { s with offers := rest } := by
  simp [step, hoffers, hbusy, runWord, hi]

/-- The instruction of a serial word runs when the word is offered as the operand of a `WRITEWORD` (R71). -/
theorem step_serial {s : State} {a : BitVec 32} {v : Word} {rest : List Offer} {i : Instr}
    (hoffers : s.offers = .command (commandOf 0x10 a v) :: rest) (hbusy : s.busy = false)
    (hi : decodeSerial v = .ok i) : step s = exec i { s with offers := rest } := by
  rw [step_command hoffers hbusy (decodeCommand_writeword a v),
    exec_serial (encode_of_decodeSerial hi)]

/-- A packet of either encoding, offered as it stands on the port (R56; log entry 4). -/
theorem step_portWord {s : State} {p : Packet} {rest : List Offer} {i : Instr}
    (hoffers : s.offers = .command (portWord p) :: rest) (hbusy : s.busy = false)
    (hi : decode p = .ok i) : step s = exec i { s with offers := rest } := by
  cases p with
  | command w => exact step_command hoffers hbusy hi
  | serial v => exact step_serial hoffers hbusy hi

theorem decodeTableWord_eq_some {nbits w : Nat} {i : Instr} (h : decodeTableWord nbits w = some i) :
    ∃ p, packetOfTableWord nbits w = some p ∧ decode p = .ok i := by
  unfold decodeTableWord at h
  split at h
  case h_1 => cases h
  case h_2 p hp =>
    refine ⟨p, hp, ?_⟩
    cases hd : decode p with
    | ok j => simpa [hd, Except.toOption] using h
    | error e => simp [hd, Except.toOption] at h

theorem withFetchWord_of_packet {nbits w : Nat} {p : Packet} (h : packetOfTableWord nbits w = some p)
    (s : State) : s.withFetchWord nbits w =
      { s with offers := .command (portWord p) :: s.offers, busy := false, seq := .idle } := by
  rw [State.withFetchWord, h]

/-- Settles O5: a command by its decoding, a serial word by that of the `WRITEWORD` that carries it, a table
word as one of the two. -/
theorem stepRunsDecodedInstruction : Obligations.StepRunsDecodedInstruction := by
  refine ⟨fun _ _ _ _ hoffers hbusy hi => step_command hoffers hbusy hi,
    fun _ _ _ _ _ hoffers hbusy hi => step_serial hoffers hbusy hi, fun s nbits w i hi => ?_⟩
  obtain ⟨p, hp, hdecode⟩ := decodeTableWord_eq_some hi
  rw [withFetchWord_of_packet hp]
  exact step_portWord rfl rfl hdecode

/-! ### Serial words on the link -/

/-- A completing command is answered `OK` with its data (R66, R73). -/
theorem Ran.answered {i : Instr} {op : BitVec 8} {s u : State} {d : ResultData}
    (h : Ran i (accept op s) d u) : Answered s (respond .ok d u) d :=
  have ⟨herror, hoffers⟩ := h.rest
  respond_answered d herror hoffers

/-- `WRITEWORD` is one frame of its operand and touches nothing of the block (R85). -/
theorem exec_writeword (v : Word) (s : State) :
    ∃ t, exec (.writeword v) s = .next t ∧ Answered s t 0 ∧ FrameSent v s t ∧
      RegsSame s t ∧ SynthSame s t ∧ InputsSame s t := by
  have hran := Ran.writeword v (accept (opcodeOf (.writeword v)) s)
  refine ⟨_, exec_ran hran, hran.answered, (sendFrame_sent v _).command, fun i => ?_, ?_, ?_⟩
  · simp
  · simp [SynthSame]
  · simp [InputsSame]

/-- A serial word is one frame of the word, given by its number (R58, R85). -/
theorem exec_serial_frame {i : Instr} {v : Word} {n : Nat} (hi : encode i = .serial v)
    (hn : v.toNat = n) (s : State) :
    ∃ t, exec i s = .next t ∧ Answered s t 0 ∧ FrameSent (BitVec.ofNat 32 n) s t ∧
      RegsSame s t ∧ SynthSame s t ∧ InputsSame s t := by
  subst hn
  rw [exec_serial hi, BitVec.ofNat_toNat, BitVec.setWidth_eq]
  exact exec_writeword v s

/-- Settles O38: each word has the number its fields make. -/
theorem serialWordsAreFrames : Obligations.SerialWordsAreFrames := fun s =>
  ⟨fun _ _ _ => exec_serial_frame rfl (wordW0_toNat ..) s,
    fun _ _ _ _ => exec_serial_frame rfl (wordW1_toNat ..) s,
    fun _ _ _ _ _ _ => exec_serial_frame rfl (wordW2_toNat ..) s,
    fun _ _ _ => exec_serial_frame rfl (wordW3_toNat ..) s,
    fun _ _ _ _ _ _ _ _ _ _ _ => exec_serial_frame rfl (wordW4_toNat ..) s,
    fun _ _ _ _ => exec_serial_frame rfl (wordW5_toNat ..) s⟩

/-- A frame whose tag is not 0 to 5 writes no ghost register (R38, R71). -/
theorem FrameSent.chip_eq {v : Word} {s t : State} (h : FrameSent v s t) (hv : 6 ≤ v.toNat % 8) :
    t.chip = s.chip := by
  obtain ⟨-, -, -, -, hchip, -⟩ := h
  apply Vector.ext
  intro k hk
  exact (hchip ⟨k, hk⟩).trans (if_neg fun ⟨htag, hle⟩ => by simp only at htag hle; omega)

theorem FrameSent.chipRb_eq {v : Word} {s t : State} (h : FrameSent v s t) (hv : v ≠ 0x00000006) :
    t.chipRb = s.chipRb := by
  obtain ⟨-, -, -, -, -, hrb⟩ := h
  rw [hrb, if_neg hv]

/-- Settles O39: both words have tag 6, and only the one without a payload is the readback request. -/
theorem tagSixWordsOnTheLink : Obligations.TagSixWordsOnTheLink := by
  intro s
  refine ⟨fun rest adc adcv vasa vco hwf => ?_, ?_⟩
  · have hword := wordW6_toNat rest adc adcv vasa vco
    obtain ⟨t, hexec, hanswered, hframe, hsame⟩ := exec_writeword (wordW6 rest adc adcv vasa vco) s
    have hchip : t.chip = s.chip := hframe.chip_eq (by omega)
    have hrb : t.chipRb = s.chipRb := hframe.chipRb_eq (wordW6_ne_readback_request hwf)
    rw [← hword, BitVec.ofNat_toNat, BitVec.setWidth_eq]
    exact ⟨t, hexec, hanswered, hframe, hchip, hrb, hsame⟩
  · obtain ⟨t, hexec, hanswered, hframe, hsame⟩ := exec_writeword 0x00000006 s
    have hchip : t.chip = s.chip := hframe.chip_eq (by decide)
    have hrb : t.chipRb = some true := by
      obtain ⟨-, -, -, -, -, hrb⟩ := hframe
      exact hrb
    exact ⟨t, hexec, hanswered, hframe, hchip, hrb, hsame⟩

/-! ### The request of a readback -/

/-- The routing frames put the routed registers 5 and 2 into the ghost chip; the request after them writes
no ghost register (R38, R89). -/
theorem requestReadback_chip {s : State} (hs : TagsOk s) {i : RegIndex} (hi : i = 5 ∨ i = 2) :
    (requestReadback params s).chip.get i = some (readReg i (routed s)) := by
  have hrouted : TagsOk (routed s) := routed_tagsOk hs
  have hsent : TagsOk (sendReg params 5 (routed s)) :=
    tagsOk_of_regs (sendReg_regs params 5 _) hrouted
  have hrequest : ¬((serialTag 0x00000006).toNat = i.val ∧ i ≠ 6) :=
    fun ⟨htag, hne⟩ => hne (Fin.ext htag.symm)
  rw [requestReadback_eq, sendFrame_chip, if_neg hrequest, sendReg_chip hsent 2 i (by decide),
    sendReg_chip hrouted 5 i (by decide), readReg_sendReg]
  rcases hi with rfl | rfl <;> rfl

theorem requestReadback_chipRb (s : State) : (requestReadback params s).chipRb = some true :=
  sendFrame_chipRb params 0x00000006 _

theorem rbRouted_of_chip {s : State} {v5 v2 : Word} (h5 : s.chip.get 5 = some v5)
    (h2 : s.chip.get 2 = some v2) (hhi : getBits (layoutDoc .muxhi) v5 = 1)
    (hlo : getBits (layoutDoc .muxlo) v2 = 4) : rbRouted params s = true := by
  simp [rbRouted, h5, h2, hhi, hlo]

/-- Settles O35: the chip holds the routed registers, whose multiplexer fields are the last values written
to them. -/
theorem readbackIsWellRequested : Obligations.ReadbackIsWellRequested := by
  intro s hs
  have hhi : getField layoutDoc .muxhi (routed s) = 1 := getField_setFields ..
  have hlo : getField layoutDoc .muxlo (routed s) = 4 := getField_setFields ..
  have hrouted : rbRouted params (requestReadback params s) = true :=
    rbRouted_of_chip (requestReadback_chip hs (.inl rfl)) (requestReadback_chip hs (.inr rfl)) hhi hlo
  simp [wellRequested, hrouted, requestReadback_chipRb]

/-! ### The answer of a readback -/

/-- `READREG6` answers the word the coming levels of `DATA_IN` make (R89, R91). -/
theorem exec_readreg6 {s : State} (hs : TagsOk s) :
    ∃ t, exec .readreg6 s = .next t ∧ Answered s t ((answeredWord s 0).setWidth 64) := by
  have hran := Ran.readreg6 (accept (opcodeOf .readreg6) s)
  have ⟨hword, _⟩ := readReg6_exact (tagsOk_accept (opcodeOf .readreg6) hs)
  rw [hword] at hran
  exact ⟨_, exec_ran hran, hran.answered⟩

theorem ofBool_getLsbD_eq_extractLsb' {w : Nat} (v : BitVec w) (k : Nat) :
    BitVec.ofBool (v.getLsbD k) = v.extractLsb' k 1 := by
  apply BitVec.eq_of_getLsbD_eq
  intro j hj
  obtain rfl : j = 0 := by omega
  simp

/-- The eight bits of a word from bit `8 * k` on, most significant first, are its byte `k`. -/
theorem byte_of_word (v : Word) (k : Nat) :
    BitVec.ofBool (v.getLsbD (8 * k + 7)) ++ BitVec.ofBool (v.getLsbD (8 * k + 6)) ++
      BitVec.ofBool (v.getLsbD (8 * k + 5)) ++ BitVec.ofBool (v.getLsbD (8 * k + 4)) ++
      BitVec.ofBool (v.getLsbD (8 * k + 3)) ++ BitVec.ofBool (v.getLsbD (8 * k + 2)) ++
      BitVec.ofBool (v.getLsbD (8 * k + 1)) ++ BitVec.ofBool (v.getLsbD (8 * k)) =
    v.extractLsb' (8 * k) 8 := by
  simp (disch := omega) only [ofBool_getLsbD_eq_extractLsb',
    BitVec.extractLsb'_append_extractLsb'_eq_extractLsb']

/-- The levels of a word sent most significant bit first are read back shifted by one (R41, R91). -/
theorem answeredWord_of_wordBits {s : State} {v : Word} {n : Nat} (h : s.dataIn = ⟨wordBits v, n⟩) :
    answeredWord s 0 = v <<< 1 := by
  have h0 : levelByte s 0 = v.extractLsb' 24 8 := by rw [levelByte, h]; exact byte_of_word v 3
  have h1 : levelByte s 8 = v.extractLsb' 16 8 := by rw [levelByte, h]; exact byte_of_word v 2
  have h2 : levelByte s 16 = v.extractLsb' 8 8 := by rw [levelByte, h]; exact byte_of_word v 1
  have h3 : levelByte s 24 = v.extractLsb' 0 8 := by rw [levelByte, h]; exact byte_of_word v 0
  apply BitVec.eq_of_toNat_eq
  simp only [answeredWord, Nat.zero_add, h0, h1, h2, h3, BitVec.toNat_ofNat, BitVec.toNat_shiftLeft,
    BitVec.extractLsb'_toNat, Nat.shiftRight_eq_div_pow, Nat.shiftLeft_eq]
  omega

theorem shift_back {w : Word} (h : w.getLsbD 0 = false) : (w >>> 1) <<< 1 = w := by
  apply BitVec.eq_of_getLsbD_eq
  intro k hk
  cases k with
  | zero => simpa using h
  | succ k => simp [hk, Nat.add_comm 1 k]

/-- Levels of `DATA_IN` that a readback makes a word of: its bits, shifted down by the one place the
readback shifts up (R91). -/
def levelsFor (w : Word) : InPort := ⟨wordBits (w >>> 1), 0⟩

theorem answeredWord_of_levelsFor {s : State} {w : Word} (hbit : w.getLsbD 0 = false)
    (h : s.dataIn = levelsFor w) : answeredWord s 0 = w := by
  rw [answeredWord_of_wordBits h, shift_back hbit]

/-- Settles O37, by the levels `levelsFor w`. -/
theorem readbackMayAnswerAnyWord : Obligations.ReadbackMayAnswerAnyWord := by
  intro w s hs hbit
  have htags : TagsOk { s with dataIn := levelsFor w } := hs
  obtain ⟨t, hexec, hanswered⟩ := exec_readreg6 htags
  rw [answeredWord_of_levelsFor hbit rfl] at hanswered
  exact ⟨levelsFor w, t, hexec, hanswered⟩

end Sys2Proof.Machine
end

section
/-!
PROOFS. The encodings: decoder and encoder of commands and serial words (R57 to R61, R70, R71), the frames an
instruction sends (R71, R72) and the fixed-point results (R68).
-/

namespace Sys2Proof.Machine

/-! ### Command words, their numbers and their parts (R57) -/

theorem commandOf_toNat (op : BitVec 8) (a b : BitVec 32) :
    (commandOf op a b).toNat = op.toNat * 2 ^ 64 + a.toNat * 2 ^ 32 + b.toNat := by
  simp only [commandOf, toNat_append_eq_add]
  omega

theorem ofNat_eq_commandOf (op : BitVec 8) (a b : BitVec 32) :
    BitVec.ofNat 72 (op.toNat * 2 ^ 64 + a.toNat * 2 ^ 32 + b.toNat) = commandOf op a b := by
  rw [← commandOf_toNat, BitVec.ofNat_toNat, BitVec.setWidth_eq]

/-- The first operand of a command word made from its parts (R57). -/
@[simp] theorem commandA_commandOf (op : BitVec 8) (a b : BitVec 32) :
    commandA (commandOf op a b) = a := by
  simp (disch := omega) only [commandA, commandOf, BitVec.extractLsb'_append_eq_of_le,
    BitVec.extractLsb'_append_eq_of_add_le]
  exact BitVec.extractLsb'_eq_self

theorem commandOp_toNat (w : CommandWord) : (commandOp w).toNat = w.toNat / 2 ^ 64 := by
  rw [commandOp, BitVec.extractLsb'_toNat, Nat.shiftRight_eq_div_pow]
  omega

/-! ### The decoder of commands (R57, R61, R70) -/

/-- Settles O3: each row of the opcode map is one case of the decoder. -/
theorem commandWordDecoded : Obligations.CommandWordDecoded := by
  intro op a b
  rw [ofNat_eq_commandOf, decode, decodeCommand, commandOp_commandOf, commandA_commandOf,
    commandB_commandOf]
  have hbit : b[0] = decide (b.toNat % 2 = 1) := by simp [BitVec.getElem_eq_testBit_toNat]
  simp only [← BitVec.toNat_inj, BitVec.ofNat_eq_ofNat, BitVec.toNat_ofNat]
  split
  case h_20 => simp_all
  all_goals next hop => simp [hop, hbit]

/-- A command decodes exactly when its operation code has a row (R61, R70). -/
theorem decodeCommand_isOk_iff (w : CommandWord) :
    (∃ i, decodeCommand w = .ok i) ↔ w.toNat / 2 ^ 64 ∈ [0x00, 0x01, 0x02, 0x03, 0x04, 0x10, 0x11,
      0x12, 0x20, 0x21, 0x22, 0x23, 0x24, 0x25, 0x30, 0x31, 0x32, 0x33, 0x34] := by
  rw [← commandOp_toNat]
  unfold decodeCommand
  split
  case h_20 => simp_all
  all_goals next hop => simp [hop]

/-- Settles O6: a code with no row is a decode error, which the port answers with `E_ILLEGAL`. -/
theorem illegalOpcodeRefused : Obligations.IllegalOpcodeRefused := by
  refine ⟨by decide +kernel, fun s w rest hoffers hbusy hop => ?_,
    fun w hop => (decodeCommand_isOk_iff w).2 hop⟩
  have hstep : step s = .next (raiseError .illegal { s with offers := rest }) := by
    cases hdecode : decodeCommand w with
    | ok i => exact absurd ((decodeCommand_isOk_iff w).1 ⟨i, hdecode⟩) hop
    | error e => simp [step, hoffers, hbusy, runWord, hdecode]
  exact ⟨_, hstep, raiseError_failed (by decide) _⟩

/-! ### The decoder of serial words (R58 to R60) -/

/-- Of the eight tags, 7 alone has no format (R58, R71). -/
theorem decodeSerial_isOk_iff (v : Word) : (∃ i, decodeSerial v = .ok i) ↔ v.toNat % 8 ≠ 7 := by
  rw [← serialTag_toNat]
  unfold decodeSerial
  split
  case h_7 htag => split <;> simp [htag]
  case h_8 =>
    have hlt := (serialTag v).isLt
    simp only [reduceCtorEq, exists_false, false_iff, not_not, imp_false] at *
    omega
  all_goals next htag => simp [htag]

theorem eq_w6_of_not_wellFormed {i : Instr} (h : wellFormed i ≠ true) : i = .w6 0 0 0 0 0 := by
  cases i
  case w6 => simpa [wellFormed, hasPayload6, and_assoc] using h
  all_goals exact absurd rfl h

/-- The one ill-formed instruction has the word of the readback request, which decodes to that (R60). -/
theorem wellFormed_of_decodeSerial {v : Word} {i : Instr} (h : decodeSerial v = .ok i) :
    wellFormed i = true := by
  by_contra hwf
  obtain rfl := eq_w6_of_not_wellFormed hwf
  obtain rfl : wordW6 0 0 0 0 0 = v := Packet.serial.inj (encode_of_decodeSerial h)
  exact absurd h (by decide)

/-- Settles O2: the payload fields of a word are its pieces, so encoding puts the word together again. -/
theorem serialWordHasOneMeaning : Obligations.SerialWordHasOneMeaning := fun v =>
  ⟨fun _ h => ⟨wellFormed_of_decodeSerial h, encode_of_decodeSerial h⟩, decodeSerial_isOk_iff v⟩

/-! ### Decoding what was encoded -/

/-- A command is one case of the map of operation codes (R57, R61). -/
theorem decode_encode_command {i : Instr} {w : CommandWord} (hi : encode i = .command w) :
    decode (.command w) = .ok i := by
  cases i <;> simp only [encode, reduceCtorEq, Packet.command.injEq] at hi <;> subst hi <;>
    rw [← ofNat_eq_commandOf, commandWordDecoded]
  case power enable => cases enable <;> rfl
  all_goals rfl

/-- The payload fields lie in a serial word one above the other, on its tag (R58 to R60). -/
theorem decode_encode_serial {i : Instr} {v : Word} (hwf : wellFormed i = true)
    (hi : encode i = .serial v) : decode (.serial v) = .ok i := by
  cases i <;> simp only [encode, reduceCtorEq, Packet.serial.injEq] at hi <;> subst hi
  case rbreq => rfl
  all_goals
    simp (disch := omega) only [decode, decodeSerial, serialTag, wordW0, wordW1, wordW2, wordW3,
      wordW4, wordW5, wordW6, BitVec.extractLsb'_append_eq_of_le,
      BitVec.extractLsb'_append_eq_of_add_le, Nat.reduceSub, BitVec.extractLsb'_eq_self,
      BitVec.ofNat_eq_ofNat, BitVec.toNat_ofNat]
  case w6 => exact if_neg (wordW6_ne_readback_request hwf)

/-- Settles O1: a command by its operation code, a serial word by its tag. -/
theorem decodeEncodeAgree : Obligations.DecodeEncodeAgree := by
  intro i hwf
  rcases encode_cases i with ⟨w, hw⟩ | ⟨v, hv⟩
  · rw [hw, decode_encode_command hw]
  · rw [hv, decode_encode_serial hwf hv]

/-- Settles O4: each word is run through the decoder. -/
theorem decodedWords : Obligations.DecodedWords := by
  refine ⟨?_, ?_, ?_, ?_, ?_, ?_, ?_, ?_, ?_⟩ <;> decide

/-! ### The frames an instruction sends (R71, R72) -/

/-- Accepting and answering a command leave the link alone (R66, R73). -/
theorem LinkRun.command {i : Instr} {op : BitVec 8} {c : Code} {d : ResultData} {s u : State}
    {es : List PinEvent} {ws : List Word} (h : LinkRun i (accept op s) u es ws) :
    LinkRun i s (respond c d u) es ws where
  carries := by
    have haccept : Carries s (accept op s) [] [] := .of_same (by simp [LinkSame])
    have hrespond : Carries u (respond c d u) [] [] := .of_same (by simp [LinkSame])
    simpa using (haccept.trans h.carries).trans hrespond
  events := h.events
  waits := h.waits
  tags := h.tags
  mapped := h.mapped
  le := h.le
  clk := h.clk

/-- What an instruction leaves of the link: it ends with an error and carries nothing, or it carries the
frames of its row (R72, R149). -/
theorem exec_link {i : Instr} {s t : State} (hs : TagsOk s) (hclk : s.clk = false)
    (h : exec i s = .next t) :
    (t.status ≠ 0x00 ∧ Carries s t [] []) ∨ ∃ es ws, LinkRun i s t es ws := by
  rcases exec_cases h with ⟨op, d, u, hu, rfl⟩ | ⟨c, hc, rfl⟩
  · obtain ⟨es, ws, hlink⟩ := hu.linkRun (tagsOk_accept op hs) hclk
    exact .inr ⟨es, ws, hlink.command⟩
  · exact .inl ⟨fun h0 => hc (statusByte_eq_zero.1 h0), .of_same (by simp [LinkSame])⟩

theorem Carries.framesHeard_newEvents {s t : State} {es : List PinEvent} {ws : List Word}
    (h : Carries s t es ws) : framesHeard s (Machine.newEvents s t) = ws := by
  rw [h.newEvents, h.frames]

theorem newEvents_resetEvent (s u : State) : newEvents s (resetEvent u) = [] := List.drop_nil

/-- Settles O19: what a receiver hears of a completing instruction are the frames of its row. -/
theorem framesFixedByOpcode : Obligations.FramesFixedByOpcode := by
  intro i s t hs ⟨_, hclk⟩ h hok
  rcases exec_link hs hclk h with ⟨herror, -⟩ | ⟨es, ws, hlink⟩
  · exact absurd hok herror
  · rw [hlink.carries.framesHeard_newEvents, hlink.tags]

/-- A word with no place in the chip's map: tag 7, or tag 6 and a payload (R71). -/
def OddWord (v : Word) : Prop := v.toNat % 8 = 7 ∨ (v.toNat % 8 = 6 ∧ v.toNat / 8 ≠ 0)

theorem OddWord.tag_le {v : Word} (h : OddWord v) : 6 ≤ v.toNat % 8 := by
  unfold OddWord at h
  omega

theorem OddWord.ne_readback_request {v : Word} (h : OddWord v) : v ≠ 0x00000006 := by
  rintro rfl
  exact absurd h (by unfold OddWord; decide)

theorem Mapped.not_odd {ws : List Word} (h : Mapped ws) {v : Word} (hv : v ∈ ws) : ¬OddWord v :=
  fun hodd => (h v hv).elim (fun hlt => absurd hodd.tag_le (by omega)) hodd.ne_readback_request

/-- An instruction that sends an odd word has it for its operand (R71). -/
theorem exec_sends_odd {i : Instr} {s t : State} (hs : TagsOk s) (hclk : s.clk = false)
    (h : exec i s = .next t) {v : Word} (hv : v ∈ framesHeard s (newEvents s t)) (hodd : OddWord v) :
    i = .writeword v ∨ encode i = .serial v := by
  rcases exec_link hs hclk h with ⟨-, hquiet⟩ | ⟨es, ws, hlink⟩
  · simp [hquiet.framesHeard_newEvents] at hv
  · rw [hlink.carries.framesHeard_newEvents] at hv
    rcases hlink.mapped with hmapped | ⟨v', rfl, hoperand⟩
    · exact absurd hodd (hmapped.not_odd hv)
    · rwa [List.mem_singleton.1 hv]

/-- Settles O7: of all a step can do only `WRITEWORD` sends an odd word, for no command is a serial word. -/
theorem oddTagsOnlyByExplicitWriteword : Obligations.OddTagsOnlyByExplicitWriteword := by
  refine ⟨fun s t v hs ⟨_, hclk⟩ h hv hodd => ?_, fun s v hodd => ?_⟩
  · rcases step_cases h with
      ⟨rfl, -⟩ | ⟨rest, -, rfl⟩ | ⟨w, rest, hoffers, hbusy, ⟨i, hi, hexec⟩ | rfl⟩
    · simp [(Carries.refl t).framesHeard_newEvents] at hv
    · simp [newEvents_resetEvent, framesHeard] at hv
    · have ⟨⟨w', hcommand⟩, hword⟩ := decodeCommand_ok hi
      have hwriteword : i = .writeword v := by
        refine (exec_sends_odd (s := { s with offers := rest }) hs hclk hexec hv hodd).resolve_right ?_
        simp [hcommand]
      exact ⟨hbusy, commandA w, rest, by rw [hoffers, ← hword v hwriteword]⟩
    · have hquiet : Carries s (raiseError .illegal { s with offers := rest }) [] [] :=
        .of_same (by simp [LinkSame])
      simp [hquiet.framesHeard_newEvents] at hv
  · replace hodd : OddWord v := hodd
    obtain ⟨t, hexec, hanswered, hframe, hsame⟩ := exec_writeword v s
    have hchip := hframe.chip_eq hodd.tag_le
    have hrb := hframe.chipRb_eq hodd.ne_readback_request
    obtain ⟨htrace, hle, hclk, hdata, -, -⟩ := hframe
    exact ⟨t, hexec, hanswered, htrace, hle, hclk, hdata, hchip, hrb, hsame⟩

/-- Settles O8: the two branches of `step` that take nothing from the offers. -/
theorem idleAndBusyStepsChangeNothing : Obligations.IdleAndBusyStepsChangeNothing := fun _ =>
  ⟨fun hidle => by simp [step, hidle], fun _ _ hoffers hbusy => by simp [step, hoffers, hbusy]⟩

/-! ### Fixed-point results (R68) -/

/-- A value that is an integer of 32 bits at scale 10000 is that integer, as two's complement. -/
theorem fixedPoint_toInt {x : ℚ} {n : ℤ} (hx : x * 10000 = n) (hlo : -2 ^ 31 ≤ n) (hhi : n < 2 ^ 31) :
    (fixedPoint params x).toInt = n := by
  rw [fixedPoint, params_resultScale, hx, Int.floor_intCast]
  exact BitVec.toInt_ofInt_eq_self (by decide) hlo hhi

/-- The value of `DecodeVolts` at scale 10000 (R68, R118). -/
def voltsScaled (s : State) : ℤ :=
  if voltsValid params s then 3150 + 165 * fieldValue .adc s else -10000

/-- The value of `DecodeTemp` at scale 10000 (R68, R120). -/
def degreesScaled (s : State) : ℤ :=
  if degreesValid params s then 950000 - 11400 * fieldValue .adc s else -10000

theorem decodeVolts_scaled (s : State) : (decodeVolts params s).2 * 10000 = voltsScaled s := by
  simp only [decodeVolts, voltsScaled, params_layout, getField_eq_fieldValue, params_vOffset,
    params_vSlope, params_sentinel]
  split <;> push_cast <;> ring

theorem decodeDegrees_scaled (s : State) : (decodeDegrees params s).2 * 10000 = degreesScaled s := by
  simp only [decodeDegrees, degreesScaled, params_layout, getField_eq_fieldValue, params_tOffset,
    params_tSlope, params_sentinel]
  split <;> push_cast <;> ring

theorem fieldValue_adc_lt (s : State) : fieldValue .adc s < 128 := Nat.mod_lt _ (by decide)

theorem voltsScaled_bounds (s : State) : -10000 ≤ voltsScaled s ∧ voltsScaled s ≤ 24105 := by
  have hcode := fieldValue_adc_lt s
  unfold voltsScaled
  split <;> omega

theorem degreesScaled_bounds (s : State) : -497800 ≤ degreesScaled s ∧ degreesScaled s ≤ 950000 := by
  have hcode := fieldValue_adc_lt s
  unfold degreesScaled
  split <;> omega

theorem fixedPoint_decodeVolts (s : State) :
    (fixedPoint params (decodeVolts params s).2).toInt = voltsScaled s :=
  have ⟨hlo, hhi⟩ := voltsScaled_bounds s
  fixedPoint_toInt (decodeVolts_scaled s) (by omega) (by omega)

theorem fixedPoint_decodeDegrees (s : State) :
    (fixedPoint params (decodeDegrees params s).2).toInt = degreesScaled s :=
  have ⟨hlo, hhi⟩ := degreesScaled_bounds s
  fixedPoint_toInt (decodeDegrees_scaled s) (by omega) (by omega)

/-- A valid voltage is not negative (R68, R118). -/
theorem decodeVolts_nonneg {s : State} (h : voltsValid params s = true) :
    0 ≤ (decodeVolts params s).2 := by
  have hscaled := decodeVolts_scaled s
  rw [voltsScaled, if_pos h] at hscaled
  push_cast at hscaled
  linarith [Nat.cast_nonneg (α := ℚ) (fieldValue .adc s)]

/-- No ADC code makes a temperature of -1, for 960000 is no multiple of 11400 (R68, R120). -/
theorem decodeDegrees_ne_sentinel {s : State} (h : degreesValid params s = true) :
    (decodeDegrees params s).2 ≠ -1 := by
  intro hvalue
  have hscaled := decodeDegrees_scaled s
  rw [hvalue, degreesScaled, if_pos h] at hscaled
  have hint : (-1 : ℤ) * 10000 = 950000 - 11400 * fieldValue .adc s := by exact_mod_cast hscaled
  omega

/-- Settles O59: at scale 10000 both values are integers of 32 bits, and a valid one is not -10000. -/
theorem resultEncodingsExact : Obligations.ResultEncodingsExact := by
  intro s
  refine ⟨?_, ?_, decodeVolts_nonneg, decodeDegrees_ne_sentinel,
    fixedPoint_decodeVolts s, fixedPoint_decodeDegrees s⟩
  · rw [decodeVolts_scaled, voltsScaled, Int.cast_ite]
    rfl
  · rw [decodeDegrees_scaled, degreesScaled, Int.cast_ite]
    rfl

end Sys2Proof.Machine
end

section
/-!
PROOFS. The commands of the Register Model (R76 to R81), and the commutation of power, output enable and
tuning (R111 to R114) by the disjoint groups of fields they write.
-/

namespace Sys2Proof.Machine

/-! ### What a Register Model command leaves alone (R76) -/

/-- A command that changes the registers and answers leaves the Synthesizer State, the link and the inputs
alone. -/
theorem respond_regs_frame (op : BitVec 8) (d : ResultData) (s : State) (r : Vector Word 7) :
    SynthSame s (respond .ok d { accept op s with regs := r }) ∧
      LinkSame s (respond .ok d { accept op s with regs := r }) ∧
      InputsSame s (respond .ok d { accept op s with regs := r }) :=
  ⟨⟨rfl, rfl, rfl, rfl⟩, ⟨rfl, rfl, rfl, rfl, rfl, rfl⟩, rfl, rfl⟩

/-! ### Whole words (R77, R78, R81) -/

/-- The low bits of a word answered for a register are the register's tag (R12, R77). -/
theorem dataOfWord_mod_eight {s : State} (hs : TagsOk s) (i : RegIndex) :
    (dataOfWord (readReg i s)).toNat % 8 = i.val := by
  have hfits : (dataOfWord (readReg i s)).toNat = (readReg i s).toNat :=
    BitVec.toNat_setWidth_of_le (by decide)
  rw [hfits, tag_mod hs]

/-- Settles O26: the answer is the word of the register the operand names. -/
theorem rdwReadsTheWord : Obligations.RdwReadsTheWord := by
  intro a s
  refine ⟨fun i hi => ?_, fun h => ⟨_, exec_rdw_error h, raiseError_failed (by decide) s⟩⟩
  have hran := Ran.rdw a (accept (opcodeOf (.rdw a)) s) i (regOperand_ok hi)
  exact ⟨_, exec_ran hran, hran.answered, fun hs => (dataOfWord_mod_eight hs i).trans hi.symm,
    fun _ => rfl, respond_regs_frame _ _ s _⟩

/-- Settles O27: the write tags the operand for its register. -/
theorem wrwStoresTheWord : Obligations.WrwStoresTheWord := by
  intro a b s
  refine ⟨fun i hi => ?_, fun h => ⟨_, exec_wrw_error h, raiseError_failed (by decide) s⟩⟩
  have hran := Ran.wrw a b (accept (opcodeOf (.wrw a b)) s) i (regOperand_ok hi)
  refine ⟨_, exec_ran hran, hran.answered, ?_, fun j hj => ?_, respond_regs_frame _ _ s _⟩
  · rw [readReg_respond, readReg_writeReg_same, tagged_eq_ofNat]
  · rw [readReg_respond, readReg_writeReg_ne (by simpa using hj), readReg_accept]

/-- The tag a word is stored with lies outside every place (R8, R13). -/
theorem getBits_tagged {pl : Place} (h : placeOk pl = true) (i : RegIndex) (v : Word) :
    getBits pl (tagged i v) = getBits pl v := by
  have hplace := (placeOk_iff pl).1 h
  exact getBits_congr h fun k hk _ => by rw [tagged_getLsbD, if_neg (by omega)]

/-- The fields of register 6 take their bits from the word applied to it (R81). -/
theorem fieldValue_of_applied6 {f : Field} {b : Word} {t : State} (hf : (layoutDoc f).reg = 6)
    (h : readReg 6 t = applied6 b) :
    fieldValue f t = b.toNat / 2 ^ (layoutDoc f).lsb % 2 ^ (layoutDoc f).width := by
  have htagged : applied6 b = tagged 6 b := (tagged_eq_ofNat 6 b).symm
  rw [← getField_eq_fieldValue, getField, hf, h, htagged, getBits_tagged (layoutDoc_place f),
    getBits_eq (layoutDoc_place f)]

/-- The answer does not keep the operation code the sequencer ran under (R30, R73). -/
theorem respond_writeReg_accept (op op' : BitVec 8) (d : ResultData) (i : RegIndex) (v : Word)
    (s : State) :
    respond .ok d (writeReg i v (accept op s)) = respond .ok d (writeReg i v (accept op' s)) := rfl

/-- The two commands differ in the operation code alone (R81). -/
theorem exec_apply6_eq_wrw (b : BitVec 32) (s : State) :
    exec (.apply6 b) s = exec (.wrw 6 b) s := by
  rw [exec_ran (.apply6 b _), exec_ran (.wrw 6 b _ 6 (regOperand_ok rfl)),
    respond_writeReg_accept (opcodeOf (.apply6 b)) (opcodeOf (.wrw 6 b))]

/-- Settles O30: `APPLY6` is `WRW 6`, and the four fields of register 6 follow from its word. -/
theorem apply6AppliesTheWord : Obligations.Apply6AppliesTheWord := by
  intro b s
  obtain ⟨t, hexec, hanswered, hword, hframe⟩ := (wrwStoresTheWord 6 b s).1 6 rfl
  refine ⟨exec_apply6_eq_wrw b s, t, (exec_apply6_eq_wrw b s).trans hexec, hanswered, hword,
    fieldValue_of_applied6 rfl hword, ?_, ?_, fieldValue_of_applied6 rfl hword, hframe⟩
  · exact (fieldValue_of_applied6 rfl hword).trans (Nat.toNat_testBit b.toNat 10).symm
  · exact (fieldValue_of_applied6 rfl hword).trans (Nat.toNat_testBit b.toNat 9).symm

/-! ### Fields (R79, R80) -/

/-- The row of a field in the field table: id, name, register, least significant bit, width (R16). -/
def fieldRow (f : Field) : Nat × Field × RegIndex × Nat × Nat :=
  (fieldId f, f, (layoutDoc f).reg, (layoutDoc f).lsb, (layoutDoc f).width)

/-- A row of the table, which the statements write out, has the place `LAYOUT_DOC` gives its field (R16). -/
theorem eq_of_mem_fieldRows {k : Nat} {f : Field} {reg : RegIndex} {lsb width : Nat}
    (h : (k, f, reg, lsb, width) ∈ fieldsById.map fieldRow) :
    k = fieldId f ∧ reg = (layoutDoc f).reg ∧ lsb = (layoutDoc f).lsb ∧
      width = (layoutDoc f).width := by
  obtain ⟨g, -, hg⟩ := List.mem_map.1 h
  simp only [fieldRow, Prod.mk.injEq] at hg
  obtain ⟨hid, rfl, hreg, hlsb, hwidth⟩ := hg
  exact ⟨hid.symm, hreg.symm, hlsb.symm, hwidth.symm⟩

theorem fieldValue_lt (f : Field) (s : State) : fieldValue f s < 2 ^ (layoutDoc f).width :=
  Nat.mod_lt _ (Nat.two_pow_pos _)

/-- A field value, of 16 bits at most (R8), fills the low bits of the result data (R67). -/
theorem dataOfField_fieldValue (f : Field) (s : State) :
    (dataOfField (getField layoutDoc f s)).toNat = fieldValue f s := by
  have ⟨_, _, _, hwidth⟩ := (placeOk_iff _).1 (layoutDoc_place f)
  rw [getField_eq_fieldValue]
  exact getBits_dataOfField ((fieldValue_lt f s).trans_le (Nat.pow_le_pow_right (by decide) hwidth))

/-- Settles O28: the rows are those of `LAYOUT_DOC`, and the answer is the value of the field. -/
theorem rdfReadsTheField : Obligations.RdfReadsTheField := by
  intro a s
  refine ⟨fun k f reg lsb width hrow ha => ?_,
    fun h => ⟨_, exec_rdf_error h, raiseError_failed (by decide) s⟩⟩
  obtain ⟨rfl, rfl, rfl, rfl⟩ := eq_of_mem_fieldRows hrow
  have hvalue := dataOfField_fieldValue f s
  have hdata : dataOfField (getField layoutDoc f s) = BitVec.ofNat 64 (fieldValue f s) := by
    rw [← hvalue, BitVec.ofNat_toNat, BitVec.setWidth_eq]
  have hran := Ran.rdf a (accept (opcodeOf (.rdf a)) s) f (fieldOperand_ok ha)
  rw [getField_accept] at hran
  exact ⟨_, exec_ran hran, hdata ▸ hran.answered, hvalue, hvalue.trans_lt (fieldValue_lt f s), rfl,
    fun _ => rfl, respond_regs_frame _ _ s _⟩

/-- Settles O29: the rows are those of `LAYOUT_DOC`, and the write replaces the bits of the field alone. -/
theorem wrfStoresTheField : Obligations.WrfStoresTheField := by
  intro a b s hs
  refine ⟨fun k f reg lsb width hrow ha => ?_,
    fun h => ⟨_, exec_wrf_error h, raiseError_failed (by decide) s⟩⟩
  obtain ⟨rfl, rfl, rfl, rfl⟩ := eq_of_mem_fieldRows hrow
  have hran := Ran.wrf a b (accept (opcodeOf (.wrf a b)) s) f (fieldOperand_ok ha)
  have hvalue (u : State) : fieldValue f (respond .ok 0 (setField layoutDoc f b.toNat u)) =
      b.toNat % 2 ^ (layoutDoc f).width := by
    rw [← getField_eq_fieldValue, getField_respond, getField_setField_same layoutDoc_ok]
  refine ⟨_, exec_ran hran, hran.answered, hvalue _, hvalue _, fun i j hij => ?_,
    respond_regs_frame _ _ s _⟩
  rw [readReg_respond, setField_getLsbD layoutDoc_ok f _ (tagsOk_accept _ hs), if_neg hij,
    readReg_accept]

/-! ### Field writes that commute (R82) -/

/-- A write to one field commutes with writes to others. -/
theorem setFields_setField_comm {l : Layout} (hl : layoutOk l = true) (f : Field) (x : Nat)
    {gs : List (Field × Nat)} (h : ∀ gx ∈ gs, gx.1 ≠ f) {s : State} (hs : TagsOk s) :
    setFields l gs (setField l f x s) = setField l f x (setFields l gs s) := by
  induction gs generalizing s with
  | nil => rfl
  | cons gx gs ih =>
    obtain ⟨hne, hrest⟩ := List.forall_mem_cons.1 h
    calc setFields l gs (setField l gx.1 gx.2 (setField l f x s))
        = setFields l gs (setField l f x (setField l gx.1 gx.2 s)) := by
          rw [setField_comm hl hne x gx.2 hs]
      _ = setField l f x (setFields l gs (setField l gx.1 gx.2 s)) :=
          ih hrest (setField_tagsOk l _ _ hs)

/-- Writes to disjoint groups of fields commute. -/
theorem setFields_comm {l : Layout} (hl : layoutOk l = true) {fs gs : List (Field × Nat)}
    (h : ∀ fx ∈ fs, ∀ gx ∈ gs, gx.1 ≠ fx.1) {s : State} (hs : TagsOk s) :
    setFields l gs (setFields l fs s) = setFields l fs (setFields l gs s) := by
  induction fs generalizing s with
  | nil => rfl
  | cons fx fs ih =>
    obtain ⟨hfx, hfs⟩ := List.forall_mem_cons.1 h
    calc setFields l gs (setFields l fs (setField l fx.1 fx.2 s))
        = setFields l fs (setFields l gs (setField l fx.1 fx.2 s)) :=
          ih hfs (setField_tagsOk l _ _ hs)
      _ = setFields l fs (setField l fx.1 fx.2 (setFields l gs s)) := by
          rw [setFields_setField_comm hl fx.1 fx.2 hfx hs]

/-! ### The field writes of power, output enable and tuning (R96, R99, R111 to R113) -/

/-- The group of fields that power, output enable or tuning writes. -/
def writtenFields : Instr → List Field
  | .power _ => [.sd0, .sd1, .sd2, .sd3, .sd4]
  | .outen | .outdis => [.outenA, .outenB]
  | .setpfd _ _ => [.lds, .bsclk, .dbr, .rdiv2, .rdiv, .bsLo, .bsHi]
  | .setfreq _ => [.int, .fcomp, .cpl, .n, .frac, .m, .diva, .mtld]
  | _ => []

/-- Run where `F_PFD` is `pfd`, the instruction leaves the registers as these field writes do, whatever
else the state holds; no writes at all where it ends with an error. -/
def WritesAt (i : Instr) (pfd : Option ℚ) (fs : List (Field × Nat)) : Prop :=
  (∀ fx ∈ fs, fx.1 ∈ writtenFields i) ∧
    ∀ s t, s.fPfd = pfd → exec i s = .next t → t.regs = (setFields layoutDoc fs s).regs

/-- An instruction that completes with field writes and a `WRITEALL`. -/
theorem WritesAt.of_ran {i : Instr} {pfd : Option ℚ} {fs : List (Field × Nat)}
    (hfs : ∀ fx ∈ fs, fx.1 ∈ writtenFields i)
    (h : ∀ s, s.fPfd = pfd → ∃ s', s'.regs = s.regs ∧
      Ran i s 0 (writeAll params (setFields layoutDoc fs s'))) : WritesAt i pfd fs := by
  refine ⟨hfs, fun s t hpfd hexec => ?_⟩
  obtain ⟨s', hregs, hran⟩ := h (accept (opcodeOf i) s) hpfd
  obtain rfl : respond .ok 0 (writeAll params (setFields layoutDoc fs s')) = t := by
    simpa [exec_ran hran] using hexec
  rw [respond_regs, writeAll_regs]
  exact setFields_regs_congr layoutDoc fs hregs

/-- An instruction that cannot complete ends with an error and writes nothing (R149). -/
theorem WritesAt.of_not_ran {i : Instr} {pfd : Option ℚ}
    (h : ∀ s d u, s.fPfd = pfd → ¬ Ran i s d u) : WritesAt i pfd [] := by
  refine ⟨nofun, fun s t hpfd hexec => ?_⟩
  rcases exec_cases hexec with ⟨op, d, u, hran, -⟩ | ⟨c, -, rfl⟩
  · exact absurd hran (h _ d u hpfd)
  · rfl

/-- Power and output enable write the same fields in every state (R111 to R113). -/
theorem switch_writesAt {i : Instr} (hi : (∃ e, i = .power e) ∨ i = .outen ∨ i = .outdis) :
    ∃ fs, ∀ pfd, WritesAt i pfd fs := by
  rcases hi with ⟨e, rfl⟩ | rfl | rfl
  · exact ⟨_, fun _ => .of_ran (by simp [writtenFields]) fun s _ => ⟨s, rfl, .power e s⟩⟩
  · exact ⟨_, fun _ => .of_ran (by simp [writtenFields]) fun s _ => ⟨s, rfl, .outen s⟩⟩
  · exact ⟨_, fun _ => .of_ran (by simp [writtenFields]) fun s _ => ⟨s, rfl, .outdis s⟩⟩

/-- The operands of `SETPFD` alone decide what it writes (R96, R97). -/
theorem setpfd_writesAt (a b : BitVec 32) (pfd : Option ℚ) :
    ∃ fs, WritesAt (.setpfd a b) pfd fs := by
  by_cases hok : a ≠ 0 ∧ b ≠ 0 ∧ b.toNat ≤ 1023
  case pos =>
    obtain ⟨ha, hb, hb'⟩ := hok
    exact ⟨_, .of_ran (by simp [writtenFields, pfdFields]) fun s _ =>
      ⟨pfdSet a b s, rfl, .setpfd a b s _ (setPfd_ok ha hb hb' s)⟩⟩
  case neg =>
    refine ⟨[], .of_not_ran fun s d u _ hran => ?_⟩
    cases hran with
    | setpfd _ _ _ _ h =>
      have ⟨ha, hb, hb', _⟩ := setPfd_inv h
      exact hok ⟨ha, hb, hb'⟩
    | serial _ _ _ h => cases h

theorem tuneFields_written (a : BitVec 32) (plan : Tuning) :
    ∀ fx ∈ tuneFields params plan, fx.1 ∈ writtenFields (.setfreq a) := by
  unfold tuneFields modeFields
  split <;> simp [writtenFields]

/-- The operand of `SETFREQ` and `F_PFD` decide what it writes (R99, R107). -/
theorem setfreq_writesAt (a : BitVec 32) (pfd : Option ℚ) :
    ∃ fs, WritesAt (.setfreq a) pfd fs := by
  by_cases hok : ∃ f plan, pfd = some f ∧ planTuning params f (freqOperand params a) = .ok plan
  case pos =>
    obtain ⟨f, plan, rfl, hplan⟩ := hok
    refine ⟨_, .of_ran (tuneFields_written a plan) fun s hpfd =>
      ⟨{ s with fTarget := some (freqOperand params a) }, rfl, .setfreq a s _ ?_⟩⟩
    rw [setFreq_of_some a hpfd, hplan]
    rfl
  case neg =>
    refine ⟨[], .of_not_ran fun s d u hpfd hran => ?_⟩
    cases hran with
    | setfreq _ _ _ h =>
      have ⟨f, plan, hf, hplan, _⟩ := setFreq_inv h
      exact hok ⟨f, plan, hpfd.symm.trans hf, hplan⟩
    | serial _ _ _ h => cases h

/-- Two instructions that write disjoint groups of fields leave the same registers in both orders, when
the first writes the same fields at every `F_PFD` and leaves it alone. -/
theorem regsSame_of_writesAt {i j : Instr} {fs gs : List (Field × Nat)} {s t u t' u' : State}
    (hs : TagsOk s) (hi : ∀ pfd, WritesAt i pfd fs) (hj : WritesAt j s.fPfd gs)
    (hpfd : t.fPfd = s.fPfd) (hdisjoint : (writtenFields j).Disjoint (writtenFields i))
    (hit : exec i s = .next t) (hju : exec j t = .next u) (hjt : exec j s = .next t')
    (hiu : exec i t' = .next u') : RegsSame u u' := by
  obtain ⟨hgs, hj⟩ := hj
  have hapart : ∀ fx ∈ fs, ∀ gx ∈ gs, gx.1 ≠ fx.1 := fun fx hfx gx hgx heq =>
    hdisjoint (hgs gx hgx) (heq ▸ (hi none).1 fx hfx)
  refine readReg_of_regs ?_
  calc u'.regs = (setFields layoutDoc fs t').regs := (hi _).2 t' u' rfl hiu
    _ = (setFields layoutDoc fs (setFields layoutDoc gs s)).regs :=
        setFields_regs_congr _ _ (hj s t' rfl hjt)
    _ = (setFields layoutDoc gs (setFields layoutDoc fs s)).regs := by
        rw [setFields_comm layoutDoc_ok hapart hs]
    _ = (setFields layoutDoc gs t).regs :=
        (setFields_regs_congr _ _ ((hi _).2 s t rfl hit)).symm
    _ = u.regs := (hj t u hpfd hju).symm

/-- Settles O53: each command writes within its group of fields, and the groups are disjoint; the first of
the two leaves `F_PFD` alone, so the second writes the same in both orders. -/
theorem powerAndOutputsCommuteWithTuning : Obligations.PowerAndOutputsCommuteWithTuning := by
  intro i j s t u t' u' hs hpair hit hju hjt hiu
  have hswitch : (∃ e, i = .power e) ∨ i = .outen ∨ i = .outdis := by
    rcases hpair with ⟨hpower, -⟩ | ⟨h, -⟩
    · exact .inl hpower
    · exact h
  obtain ⟨fs, hi⟩ := switch_writesAt hswitch
  have hj : ∃ gs, WritesAt j s.fPfd gs := by
    rcases hpair with ⟨-, hj⟩ | ⟨-, ⟨a, b, rfl⟩ | ⟨a, rfl⟩⟩
    · obtain ⟨gs, hgs⟩ := switch_writesAt (.inr hj)
      exact ⟨gs, hgs _⟩
    · exact setpfd_writesAt a b _
    · exact setfreq_writesAt a _
  obtain ⟨gs, hj⟩ := hj
  have hpfd : t.fPfd = s.fPfd := by
    have hnot : ∀ a b, i ≠ .setpfd a b := by rcases hswitch with ⟨e, rfl⟩ | rfl | rfl <;> nofun
    obtain ⟨-, -, h⟩ := (synthesizerStateHasTwoWriters i s t hit).1 hnot
    exact h
  have hdisjoint : (writtenFields j).Disjoint (writtenFields i) := by
    rcases hpair with ⟨⟨e, rfl⟩, rfl | rfl⟩ |
      ⟨⟨e, rfl⟩ | rfl | rfl, ⟨a, b, rfl⟩ | ⟨a, rfl⟩⟩ <;> simp [writtenFields]
  exact regsSame_of_writesAt hs hi hj hpfd hdisjoint hit hju hjt hiu

end Sys2Proof.Machine
end

section
/-!
PROOFS. The Serial Transport: the counts of the events and frames an instruction sends (R85, R87, R89, R117,
R149), `WRITEWORD`, `WRITEALL` and `READREG6` (R85 to R92), and the reconstruction of a word read back (R91).
-/

namespace Sys2Proof.Machine

/-! ### Counting events (R149, R177) -/

/-- An instruction whose status is not `OK` has raised an error on the state it started from (R149). -/
theorem exec_eq_raiseError {i : Instr} {s t : State} (h : exec i s = .next t)
    (hstatus : t.status ≠ 0x00) : ∃ c, c ≠ .ok ∧ t = raiseError c s := by
  refine (exec_cases h).resolve_left ?_
  rintro ⟨op, d, u, -, rfl⟩
  exact hstatus rfl

/-- Settles O20: the counts of a completing instruction are those of its link run, and an error adds no
event. -/
theorem eventCounts : Obligations.EventCounts := by
  intro i s t hs ⟨_, hclk⟩ h
  refine ⟨fun hok => ?_, fun herror => ?_⟩
  · rcases exec_link hs hclk h with ⟨herror, -⟩ | ⟨es, ws, hlink⟩
    · exact absurd hok herror
    · rw [hlink.carries.framesHeard_newEvents, hlink.carries.newEvents, ← hlink.tags, List.length_map]
      exact ⟨hlink.events, hlink.waits, rfl⟩
  · obtain ⟨c, -, rfl⟩ := exec_eq_raiseError h herror
    exact raiseError_pinTrace c s

/-! ### The commands (R85, R87, R89) -/

/-- Settles O32: the frame of a word has 98 events, and `WRITEWORD` sends just that frame. -/
theorem writewordSendsOneFrame : Obligations.WritewordSendsOneFrame := fun b s =>
  ⟨frameOf_length b, exec_writeword b s⟩

/-- Six frames of 98 events each (R87). -/
theorem ConfigSent.newEvents_length {s t : State} (h : ConfigSent s t) :
    (newEvents s t).length = 588 := by
  obtain ⟨htrace, -⟩ := h
  simp [newEvents, htrace]

/-- Settles O33: `writeAll_sent` on the accepted state, which has the registers and the link of the state
before. -/
theorem writeallSendsTheConfiguration : Obligations.WriteallSendsTheConfiguration := by
  intro s hs
  have hran := Ran.writeall (accept (opcodeOf .writeall) s)
  have hsent : ConfigSent s (respond .ok 0 (writeAll params (accept (opcodeOf .writeall) s))) :=
    (writeAll_sent (tagsOk_accept _ hs)).command
  refine ⟨_, exec_ran hran, hran.answered, fun i => ?_, hsent, hsent.newEvents_length, ?_, ?_⟩
  · simp
  · simp [SynthSame]
  · simp [InputsSame]

/-- Settles O34: `readReg6_exact` on the accepted state, which has the registers and the coming levels of
the state before. -/
theorem readreg6ReadsTheChip : Obligations.Readreg6ReadsTheChip := by
  intro s hs
  have hran := Ran.readreg6 (accept (opcodeOf .readreg6) s)
  obtain ⟨hword, hregs, hdata, htrace, hlink⟩ :=
    readReg6_exact (tagsOk_accept (opcodeOf .readreg6) hs)
  rw [hword, answeredWord_congr (accept_dataIn _ s)] at hran
  rw [readReg_accept, readReg_accept, readbackTrace_congr (accept_dataIn _ s), accept_pinTrace]
    at htrace
  rw [readReg_accept, readReg_accept] at hlink
  refine ⟨_, exec_ran hran, hran.answered, fun i => ?_, ?_, ?_, hlink.command, ?_, ?_⟩
  · rw [readReg_respond, readReg_of_regs hregs, readReg_accept]
  · simp [SynthSame]
  · rw [respond_pinTrace, htrace]
  · rw [respond_dataIn, hdata, accept_dataIn]
  · simp

/-! ### The reconstruction (R91) -/

/-- The reconstructed number as the spec writes it: the shifted bytes joined, modulo `2^32`. -/
theorem reconstruct_toNat_or (b0 b1 b2 b3 : BitVec 8) : (reconstruct b0 b1 b2 b3).toNat =
    (b0.toNat <<< 25 ||| b1.toNat <<< 17 ||| b2.toNat <<< 9 ||| b3.toNat <<< 1) % 2 ^ 32 := by
  have hwide (b : BitVec 8) : (b.setWidth 32).toNat = b.toNat :=
    BitVec.toNat_setWidth_of_le (by decide)
  simp only [reconstruct, BitVec.toNat_or, BitVec.toNat_shiftLeft, hwide, Nat.or_mod_two_pow]

/-- The shifted bytes do not overlap, so joining them is adding them. -/
theorem reconstruct_toNat_add (b0 b1 b2 b3 : BitVec 8) : (reconstruct b0 b1 b2 b3).toNat =
    (b0.toNat * 2 ^ 25 + b1.toNat * 2 ^ 17 + b2.toNat * 2 ^ 9 + b3.toNat * 2) % 2 ^ 32 := by
  rw [reconstruct_eq, BitVec.toNat_ofNat]

theorem reconstruct_eq_append_shiftLeft (b0 b1 b2 b3 : BitVec 8) :
    reconstruct b0 b1 b2 b3 = (b0 ++ b1 ++ b2 ++ b3 : BitVec (8 + 8 + 8 + 8)) <<< 1 := by
  apply BitVec.eq_of_toNat_eq
  rw [reconstruct_toNat_add, BitVec.toNat_shiftLeft, Nat.shiftLeft_eq]
  simp only [toNat_append_eq_add]
  omega

/-- Nothing of the four bytes reaches bit 0. -/
theorem reconstruct_getLsbD_zero (b0 b1 b2 b3 : BitVec 8) :
    (reconstruct b0 b1 b2 b3).getLsbD 0 = false := by
  simp [reconstruct_eq_append_shiftLeft]

/-- Bit 7 of the first byte has weight `2^32` and falls off. -/
theorem reconstruct_and_mask (b0 b1 b2 b3 : BitVec 8) :
    reconstruct (b0 &&& 0x7F) b1 b2 b3 = reconstruct b0 b1 b2 b3 := by
  have hlow : (b0 &&& 0x7F).toNat = b0.toNat % 2 ^ 7 := Nat.and_two_pow_sub_one_eq_mod b0.toNat 7
  apply BitVec.eq_of_toNat_eq
  rw [reconstruct_toNat_add, reconstruct_toNat_add, hlow]
  omega

/-- Settles O36: the laws hold for all bytes, and the five examples are evaluated. -/
theorem reconstructionOffsets : Obligations.ReconstructionOffsets := by
  refine ⟨fun b0 b1 b2 b3 => ⟨reconstruct_toNat_or b0 b1 b2 b3, reconstruct_toNat_add b0 b1 b2 b3,
    reconstruct_eq_append_shiftLeft b0 b1 b2 b3, reconstruct_getLsbD_zero b0 b1 b2 b3,
    reconstruct_and_mask b0 b1 b2 b3⟩, ?_, ?_, ?_, ?_, ?_⟩ <;> decide

end Sys2Proof.Machine
end

section
/-!
PROOFS. The Synthesis Engine: what a command that writes fields and sends the configuration leaves, `POWER`,
`OUTEN` and `OUTDIS` (R111 to R113), `SETPFD` and the band-select corners (R96 to R98).
-/

namespace Sys2Proof.Machine

/-! ### Field writes and the configuration sent -/

theorem lastWrite_of_not_mem {f : Field} {fs : List (Field × Nat)} (h : f ∉ fs.map Prod.fst) (y : Nat) :
    lastWrite f y fs = y := by
  induction fs with
  | nil => rfl
  | cons gx gs ih =>
    obtain ⟨hne, hrest⟩ := not_or.1 (List.mem_cons.not.1 h)
    have hstep : lastWrite f y (gx :: gs) = lastWrite f y gs := by
      simp [lastWrite, Ne.symm hne]
    rw [hstep, ih hrest]

/-- Writes to distinct fields leave in each the value written to it, truncated (R15). -/
theorem lastWrite_of_mem {fs : List (Field × Nat)} (hnodup : (fs.map Prod.fst).Nodup) {f : Field}
    {x : Nat} (h : (f, x) ∈ fs) (y : Nat) : lastWrite f y fs = x % 2 ^ (layoutDoc f).width := by
  induction fs generalizing y with
  | nil => cases h
  | cons gx gs ih =>
    obtain ⟨hfresh, hrest⟩ := List.nodup_cons.1 hnodup
    rcases List.mem_cons.1 h with rfl | hmem
    · have hstep : lastWrite f y ((f, x) :: gs) = lastWrite f (x % 2 ^ (layoutDoc f).width) gs := by
        simp [lastWrite]
      rw [hstep, lastWrite_of_not_mem hfresh]
    · exact ih hrest hmem _

/-- The fields of a list hold the values written to them, every other bit of every register is as it was, the
configuration is sent and no input sampled (R96, R99, R111 to R113). -/
structure FieldsSent (fs : List (Field × Nat)) (s t : State) : Prop where
  value {f : Field} {x : Nat} (h : (f, x) ∈ fs) : fieldValue f t = x % 2 ^ (layoutDoc f).width
  frame : FieldsSameBut (fs.map Prod.fst) s t
  config : ConfigSent s t
  inputs : InputsSame s t

/-- A value that fits its field is stored whole. -/
theorem FieldsSent.value_of_lt {fs : List (Field × Nat)} {s t : State} (h : FieldsSent fs s t) {f : Field}
    {x : Nat} (hmem : (f, x) ∈ fs) (hx : x < 2 ^ (layoutDoc f).width) : fieldValue f t = x := by
  rw [h.value hmem, Nat.mod_eq_of_lt hx]

/-- Field writes, `WRITEALL` and the answer, from a state `s'` that differs from `s` in the command side
and the Synthesizer State at most. -/
theorem fieldsSent_respond {fs : List (Field × Nat)} {s s' : State} (hs : TagsOk s)
    (hnodup : (fs.map Prod.fst).Nodup) (hregs : s'.regs = s.regs) (hlink : LinkSame s s')
    (hinputs : InputsSame s s') :
    FieldsSent fs s (respond .ok 0 (writeAll params (setFields layoutDoc fs s'))) where
  value {f x} h := by
    rw [← getField_eq_fieldValue, getField_respond, getField_writeAll, getField_setFields,
      lastWrite_of_mem hnodup h]
  frame := by
    have hwritten : (respond .ok 0 (writeAll params (setFields layoutDoc fs s'))).regs =
        (setFields layoutDoc fs s).regs := by
      rw [respond_regs, writeAll_regs, setFields_regs_congr layoutDoc fs hregs]
    exact (setFields_fieldsSameBut fs hs).of_regs hwritten
  config := by
    have hsent := writeAll_sent (setFields_tagsOk layoutDoc fs (tagsOk_of_regs hregs hs))
    have hsame : LinkSame (accept 0 s) (setFields layoutDoc fs s') := by
      simpa [LinkSame] using hlink
    exact (hsent.of_same hsame).command
  inputs := by simpa [InputsSame] using hinputs

/-- An instruction that completes with field writes and a `WRITEALL`. -/
theorem exec_fieldsSent {i : Instr} {fs : List (Field × Nat)} {s s' : State} (hs : TagsOk s)
    (hnodup : (fs.map Prod.fst).Nodup) (hregs : s'.regs = s.regs) (hlink : LinkSame s s')
    (hinputs : InputsSame s s')
    (hran : Ran i (accept (opcodeOf i) s) 0 (writeAll params (setFields layoutDoc fs s'))) :
    ∃ t, exec i s = .next t ∧ Answered s t 0 ∧ SynthSame s' t ∧ FieldsSent fs s t :=
  ⟨_, exec_ran hran, hran.answered, by simp [SynthSame],
    fieldsSent_respond hs hnodup hregs hlink hinputs⟩

/-! ### Power and output enable (R111 to R113) -/

/-- A command whose rule is one value written to each field of a group: power and output enable. -/
theorem exec_setGroup {i : Instr} {fs : List Field} {x : Nat} {s : State} (hs : TagsOk s) (hnodup : fs.Nodup)
    (hwidth : ∀ f ∈ fs, x < 2 ^ (layoutDoc f).width)
    (hran : Ran i (accept (opcodeOf i) s) 0 (setGroup params fs x (accept (opcodeOf i) s))) :
    ∃ t, exec i s = .next t ∧ Answered s t 0 ∧ (∀ f ∈ fs, fieldValue f t = x) ∧
      FieldsSameBut fs s t ∧ SynthSame s t ∧ ConfigSent s t ∧ InputsSame s t := by
  have hnames : (fs.map fun f => (f, x)).map Prod.fst = fs := by simp [Function.comp_def]
  obtain ⟨t, hexec, hanswered, hsynth, hsent⟩ :=
    exec_fieldsSent hs (hnames.symm ▸ hnodup) (accept_regs _ s) (by simp [LinkSame])
      (by simp [InputsSame]) hran
  refine ⟨t, hexec, hanswered, fun f hf => ?_, hnames ▸ hsent.frame, hsynth, hsent.config,
    hsent.inputs⟩
  exact hsent.value_of_lt (List.mem_map_of_mem hf) (hwidth f hf)

/-- Settles O51: the decoder keeps bit 0 alone, and its inverse is written to the group of shutdown fields. -/
theorem powerFlipsTheShutdownFields : Obligations.PowerFlipsTheShutdownFields := by
  refine ⟨fun a b => ?_, fun enable s hs => ?_⟩
  · show decodeCommand (commandOf 0x22 a b) = _
    simp [decodeCommand]
  · have hvalue : (if enable then 0 else 1) = 1 - enable.toNat := by cases enable <;> rfl
    rw [hvalue]
    exact exec_setGroup hs (by decide) (by cases enable <;> decide) (.power enable _)

/-- Settles O52: both commands write one value to the group of output-enable fields. -/
theorem outputsSwitchTogether : Obligations.OutputsSwitchTogether := by
  refine fun s hs => ⟨?_, ?_⟩
  · obtain ⟨t, hexec, hanswered, hvalue, hframe⟩ :=
      exec_setGroup hs (by decide) (by decide) (.outen (accept (opcodeOf .outen) s))
    exact ⟨t, hexec, hanswered, hvalue _ (by simp), hvalue _ (by simp), hframe⟩
  · obtain ⟨t, hexec, hanswered, hvalue, hframe⟩ :=
      exec_setGroup hs (by decide) (by decide) (.outdis (accept (opcodeOf .outdis) s))
    exact ⟨t, hexec, hanswered, hvalue _ (by simp), hvalue _ (by simp), hframe⟩

/-! ### SETPFD (R96, R97) -/

theorem pfdFields_nodup (f : ℚ) (div : Nat) : ((pfdFields params f div).map Prod.fst).Nodup := by
  simp [pfdFields]

theorem satW_lt (w n : Nat) : satW w n < 2 ^ w := by
  have hpos := Nat.two_pow_pos w
  unfold satW
  omega

theorem clampInt_eq (x : Int) {a b : Int} (h : a ≤ b) : clampInt x a b = max a (min x b) := by
  unfold clampInt
  split_ifs <;> omega

theorem lockSpeed_eq (f : ℚ) : lockSpeed params f = if 32 < f then 1 else 0 := rfl

theorem bandClock_eq (f : ℚ) : bandClock params f = min (rha (f / (1 / 10))).toNat 4095 := rfl

theorem bandSelect_eq (f : ℚ) : bandSelect params f = (max 1 (min ⌊f * 20⌋ 1023)).toNat :=
  congrArg Int.toNat (clampInt_eq _ (by decide))

theorem bandLow_eq (bs : Nat) : bandLow bs = bs % 1024 := Nat.and_two_pow_sub_one_eq_mod bs 10

theorem bandHigh_eq (bs : Nat) : bandHigh bs = bs / 256 % 4 := by
  rw [bandHigh, Nat.and_two_pow_sub_one_eq_mod _ 2, Nat.shiftRight_eq_div_pow]

/-- Settles O40: the operands pass the checks, so the rule runs; each of its seven values fits its field. -/
theorem setpfdComputesAndSends : Obligations.SetpfdComputesAndSends := by
  intro a b s hs ha hb hb' f bs
  have hsetpfd := setPfd_ok ha hb hb' (accept (opcodeOf (.setpfd a b)) s)
  have hf : freqOperand params a / (b.toNat : ℚ) = f := by rw [freqOperand_eq]
  obtain ⟨hset, -⟩ := setPfd_setBy hsetpfd
  rw [hf] at hsetpfd
  obtain ⟨t, hexec, hanswered, hsynth, hsent⟩ :=
    exec_fieldsSent (s' := pfdSet a b (accept (opcodeOf (.setpfd a b)) s)) hs
      (pfdFields_nodup f b.toNat) rfl ⟨rfl, rfl, rfl, rfl, rfl, rfl⟩ ⟨rfl, rfl⟩
      (.setpfd a b _ _ hsetpfd)
  obtain ⟨href, hdiv, hpfd, htarget⟩ := hsynth
  have hbs : bandSelect params f = bs := bandSelect_eq f
  have hlow : bandLow (bandSelect params f) = bs % 1024 := by rw [bandLow_eq, hbs]
  have hhigh : bandHigh (bandSelect params f) = bs / 256 % 4 := by rw [bandHigh_eq, hbs]
  refine ⟨t, hexec, hanswered, ?_, htarget, ?_, ?_, ?_, ?_, ?_, ?_, ?_, hsent.frame,
    hsent.config, hsent.inputs⟩
  · simpa [SetBy, href, hdiv, hpfd] using hset
  · exact hsent.value_of_lt (by simp [pfdFields, lockSpeed_eq]) (by split <;> decide)
  · exact hsent.value_of_lt (by simp [pfdFields, bandClock_eq]) (satW_lt 12 _)
  · exact hsent.value_of_lt (by simp [pfdFields]) (by decide)
  · exact hsent.value_of_lt (by simp [pfdFields]) (by decide)
  · exact hsent.value_of_lt (by simp [pfdFields]) (Nat.lt_succ_of_le hb')
  · exact hsent.value_of_lt (by simp [pfdFields, hlow]) (Nat.mod_lt _ (by decide))
  · exact hsent.value_of_lt (by simp [pfdFields, hhigh]) (Nat.mod_lt _ (by decide))

/-- Settles O41: the zero check comes first and is passed by operands that are not zero (`setPfd_cases`). -/
theorem setpfdRefuses : Obligations.SetpfdRefuses := by
  intro a b s
  constructor
  · intro hzero
    refine ⟨_, exec_setpfd_error ?_, raiseError_failed (c := .zero) (by decide) s⟩
    rw [setPfd, if_pos hzero]
  · intro ha hwide
    have hb : b ≠ 0 := by rintro rfl; simp at hwide
    refine ⟨_, exec_setpfd_error ?_, raiseError_failed (c := .field) (by decide) s⟩
    rcases setPfd_cases a b (accept 0x20 s) with ⟨hzero, -⟩ | ⟨-, -, -, herror⟩ | ⟨-, -, hfits, -⟩
    · exact absurd hzero (not_or.2 ⟨ha, hb⟩)
    · exact herror
    · omega

/-- Settles O42: the values `SETPFD` writes, with the band-select value clamped below, above or not at all. -/
theorem bandSelectCorners : Obligations.BandSelectCorners := by
  intro a b s t hs ha hb hb' hexec f
  obtain ⟨u, hu, -, -, -, -, hclock, -, -, -, hlow, hhigh, -⟩ :=
    setpfdComputesAndSends a b s hs ha hb hb'
  obtain rfl : u = t := by simpa [hexec] using hu.symm
  rw [show (a.toNat : ℚ) / 1000 / (b.toNat : ℚ) = f from rfl] at hclock hlow hhigh
  have hf : 0 ≤ f := by positivity
  have hfloor : 0 ≤ ⌊f * 20⌋ := Int.floor_nonneg.2 (by positivity)
  refine ⟨fun hsmall => ?_, fun hlarge => ?_, fun hmin hmax => ?_, ?_⟩
  · have hraw : ⌊f * 20⌋ = 0 := Int.floor_eq_zero_iff.2 ⟨by positivity, by linarith⟩
    have hround : rha (f / (1 / 10)) = 0 :=
      (rha_eq_iff_of_nonneg (by positivity) 0).2 ⟨by push_cast; linarith, by push_cast; linarith⟩
    rw [hlow, hhigh, hclock, hraw, hround]
    decide
  · have hraw : 1023 < ⌊f * 20⌋ := Int.le_floor.2 (by push_cast; linarith)
    rw [hlow, hhigh]
    omega
  · have hraw : 1 ≤ ⌊f * 20⌋ ∧ ⌊f * 20⌋ < 1024 :=
      ⟨Int.le_floor.2 (by push_cast; linarith), Int.floor_lt.2 (by push_cast; linarith)⟩
    rw [hlow, mul_comm 20 f]
    omega
  · rw [hlow, hhigh]
    split_ifs <;> omega

end Sys2Proof.Machine
end

section
/-!
PROOFS. The Synthesis Engine: the search for the output divider and the parts of the coefficient (R100 to
R102), `SETFREQ` (R99 to R108) and `GETFREQ` (R109, R110).
-/

namespace Sys2Proof.Machine

/-! ### The search for the output divider (R100) -/

/-- The search answers the smallest exponent within its bound that reaches the VCO floor: it can answer no
other (`divaFrom_ok`), and it finds one when there is one (`divaFrom_error`). -/
theorem divaSearch_eq_ok_iff {p : Params} {f : ℚ} {d : Nat} : divaSearch p f = .ok d ↔
    d ≤ p.divaMax ∧ p.vcoFloor ≤ f * 2 ^ d ∧ ∀ m < d, f * 2 ^ m < p.vcoFloor := by
  constructor
  · intro h
    obtain ⟨-, hbound, hreach, hbelow⟩ := divaFrom_ok h
    exact ⟨by omega, hreach, fun m hm => hbelow m (Nat.zero_le m) hm⟩
  · rintro ⟨hbound, hreach, hbelow⟩
    cases h : divaSearch p f with
    | error c => exact absurd hreach (not_le.2 ((divaFrom_error h).2 d (Nat.zero_le d) (by omega)))
    | ok n =>
      obtain ⟨-, -, hn, hbelow'⟩ := divaFrom_ok h
      rcases lt_trichotomy n d with hlt | rfl | hgt
      · exact absurd hn (not_le.2 (hbelow n hlt))
      · rfl
      · exact absurd hreach (not_le.2 (hbelow' d (Nat.zero_le d) hgt))

theorem divaSearch_eq_error_iff {p : Params} {f : ℚ} {c : Code} : divaSearch p f = .error c ↔
    c = .range ∧ ∀ m ≤ p.divaMax, f * 2 ^ m < p.vcoFloor := by
  constructor
  · intro h
    obtain ⟨hc, hbelow⟩ := divaFrom_error h
    exact ⟨hc, fun m hm => hbelow m (Nat.zero_le m) (by omega)⟩
  · rintro ⟨rfl, hbelow⟩
    cases h : divaSearch p f with
    | error c => rw [(divaFrom_error h).1]
    | ok n =>
      obtain ⟨hbound, hreach, -⟩ := divaSearch_eq_ok_iff.1 h
      exact absurd hreach (not_le.2 (hbelow n hbound))

/-- Seven doublings lift every target within the bounds to the VCO floor (R100, R107). -/
theorem le_seven_of_minimal {f : ℚ} {d : Nat} (hmin : 47 / 2 ≤ f) (hbelow : ∀ m < d, f * 2 ^ m < 3000) :
    d ≤ 7 := by
  by_contra hd
  have h7 := hbelow 7 (by omega)
  linarith

/-- Under the defaults an exponent that is minimal is the one the search answers. -/
theorem divaSearch_of_minimal {f : ℚ} {d : Nat} (hmin : 47 / 2 ≤ f) (hreach : 3000 ≤ f * 2 ^ d)
    (hbelow : ∀ m < d, f * 2 ^ m < 3000) : divaSearch params f = .ok d :=
  divaSearch_eq_ok_iff.2 ⟨le_seven_of_minimal hmin hbelow, hreach, hbelow⟩

/-- The search cannot fail on a target within the bounds. -/
theorem exists_divaSearch {f : ℚ} (hmin : 47 / 2 ≤ f) : ∃ d ≤ 7, divaSearch params f = .ok d := by
  cases h : divaSearch params f with
  | ok d => exact ⟨d, (divaSearch_eq_ok_iff.1 h).1, rfl⟩
  | error c =>
    have h7 : f * 2 ^ 7 < 3000 := (divaSearch_eq_error_iff.1 h).2 7 le_rfl
    linarith

/-- Settles O43: the two equivalences hold for all parameters; a range of the table is the minimality of its
exponent, since `f * 2 ^ m` grows with `m`. -/
theorem divaSearchIsMinimal : Obligations.DivaSearchIsMinimal := by
  refine ⟨fun p f d => divaSearch_eq_ok_iff, fun p f c => divaSearch_eq_error_iff,
    fun f => exists_divaSearch, fun f hf => ?_, fun f d hd hd' hmin hmax => ?_⟩
  · exact divaSearch_eq_ok_iff.2 ⟨Nat.zero_le _, by simpa using hf, nofun⟩
  · have hreach : 3000 ≤ f * 2 ^ d := (div_le_iff₀ (by positivity)).1 hmin
    have hlast : f * 2 ^ (d - 1) < 3000 := (lt_div_iff₀ (by positivity)).1 hmax
    have hf : 0 ≤ f := le_trans (by positivity) hmin
    refine divaSearch_eq_ok_iff.2 ⟨hd', hreach, fun m hm => ?_⟩
    calc f * 2 ^ m ≤ f * 2 ^ (d - 1) := by
          gcongr
          · norm_num
          · omega
      _ < 3000 := hlast

/-! ### The parts of the coefficient (R101, R102) -/

theorem fracPart_eq (c : ℚ) : fracPart params c = rha (4000 * max (c - rha c) 0) := by
  simp [fracPart]

theorem rha_zero : rha 0 = 0 := by norm_num [rha]

/-- An integer bound above or at a value bounds its rounding. -/
theorem rha_le_of_le {x : ℚ} (hx : 0 ≤ x) {n : ℤ} (h : x ≤ n) : rha x ≤ n := by
  obtain ⟨hlo, -⟩ := (rha_eq_iff_of_nonneg hx _).1 rfl
  have hlt : ((rha x : ℤ) : ℚ) < ((n + 1 : ℤ) : ℚ) := by push_cast; linarith
  exact Int.lt_add_one_iff.1 (Int.cast_lt.1 hlt)

theorem fracPart_nonneg (c : ℚ) : 0 ≤ fracPart params c := by
  rw [fracPart_eq]
  exact rha_nonneg (by positivity)

/-- Below a half the coefficient rounds down, and what is left of it is its fractional part. -/
theorem coefficient_parts_of_lt_half {c : ℚ} (hc : 0 ≤ c) (h : Int.fract c < 1 / 2) :
    rha c = ⌊c⌋ ∧ fracPart params c = rha (4000 * Int.fract c) := by
  have hrha : rha c = ⌊c⌋ := by rw [rha_eq_floor hc, if_pos h]
  refine ⟨hrha, ?_⟩
  rw [fracPart_eq, hrha, Int.self_sub_floor, max_eq_left (Int.fract_nonneg c)]

/-- From a half on the coefficient rounds up, and nothing is left of it. -/
theorem coefficient_parts_of_half_le {c : ℚ} (hc : 0 ≤ c) (h : 1 / 2 ≤ Int.fract c) :
    rha c = ⌊c⌋ + 1 ∧ fracPart params c = 0 := by
  have hrha : rha c = ⌊c⌋ + 1 := by rw [rha_eq_floor hc, if_neg (not_lt.2 h)]
  have hneg : c - (⌊c⌋ + 1 : ℤ) ≤ 0 := by
    push_cast
    linarith [Int.lt_floor_add_one c]
  refine ⟨hrha, ?_⟩
  rw [fracPart_eq, hrha, max_eq_right hneg, mul_zero, rha_zero]

theorem fracPart_eq_zero_of_small {c : ℚ} (hc : 0 ≤ c) (h : Int.fract c < 1 / 8000) :
    fracPart params c = 0 := by
  have h0 := Int.fract_nonneg c
  obtain ⟨-, hfrac⟩ := coefficient_parts_of_lt_half hc (by linarith)
  rw [hfrac, rha_eq_iff_of_nonneg (by linarith)]
  constructor <;> push_cast <;> linarith

theorem fracPart_le {c : ℚ} (hc : 0 ≤ c) : fracPart params c ≤ 2000 := by
  rcases lt_or_ge (Int.fract c) (1 / 2) with h | h
  · have h0 := Int.fract_nonneg c
    rw [(coefficient_parts_of_lt_half hc h).2]
    exact rha_le_of_le (by linarith) (by push_cast; linarith)
  · rw [(coefficient_parts_of_half_le hc h).2]
    decide

/-- Settles O44: by the fractional part of the coefficient, below a half or not. -/
theorem fractionCollapsesAboveHalf : Obligations.FractionCollapsesAboveHalf := by
  intro c hc
  refine ⟨fun h => ?_, coefficient_parts_of_half_le hc, fracPart_eq_zero_of_small hc, fracPart_eq c,
    (fracPart_le hc).trans_lt (by decide)⟩
  obtain ⟨hrha, hfrac⟩ := coefficient_parts_of_lt_half hc h
  exact ⟨hrha, hfrac, fracPart_nonneg c, fracPart_le hc⟩

/-! ### The plan of SETFREQ (R99 to R107) -/

theorem storedN_of_ne {n frac : ℤ} (d : Nat) (h : frac ≠ 0) : storedN params n frac d = .ok n := by
  rw [storedN, if_neg h]

theorem storedN_of_dvd {n : ℤ} {d : Nat} (h : n % 2 ^ d = 0) :
    storedN params n 0 d = .ok (n / 2 ^ d) := by
  rw [storedN, if_pos rfl, rescale, if_neg (not_not.2 h)]

theorem storedN_of_not_dvd {n : ℤ} {d : Nat} (h : n % 2 ^ d ≠ 0) :
    storedN params n 0 d = .error .inexact := by
  rw [storedN, if_pos rfl, rescale, if_pos h]
  rfl

/-- A target within the bounds whose exponent is found: the plan is that of the `N` to store (R99). -/
theorem planTuning_eq (pfd : ℚ) {f : ℚ} {d : Nat} (hmin : 47 / 2 ≤ f) (hmax : f ≤ 6000)
    (hd : divaSearch params f = .ok d) :
    planTuning params pfd f =
      (storedN params (rha (coefficient pfd f d)) (fracPart params (coefficient pfd f d)) d).bind
        fun n => if 65535 < n then .error .field
          else .ok ⟨d, rha (coefficient pfd f d), fracPart params (coefficient pfd f d), n⟩ := by
  have hbounds : ¬(f < params.fOutMin ∨ params.fOutMax < f) :=
    not_or.2 ⟨not_lt.2 hmin, not_lt.2 hmax⟩
  rw [planTuning, if_neg hbounds]
  simp only [hd]
  cases storedN params (rha (coefficient pfd f d)) (fracPart params (coefficient pfd f d)) d <;> rfl

/-- A plan that passes all checks, in the terms of the statements. -/
theorem planTuning_inv {pfd f : ℚ} {plan : Tuning} (hpfd : 0 < pfd)
    (h : planTuning params pfd f = .ok plan) :
    0 ≤ coefficient pfd f plan.diva ∧ plan.diva ≤ 7 ∧ 3000 ≤ f * 2 ^ plan.diva ∧
      (∀ m < plan.diva, f * 2 ^ m < 3000) ∧ 0 ≤ plan.frac ∧ plan.frac ≤ 2000 ∧
      0 ≤ plan.nStored ∧ plan.nStored ≤ 65535 := by
  obtain ⟨hmin, -, hd, hpre, hfrac, hstored, hfits⟩ := planTuning_ok h
  obtain ⟨hdiva, hreach, hbelow⟩ := divaSearch_eq_ok_iff.1 hd
  have hc : 0 ≤ coefficient pfd f plan.diva := by
    have hf : 0 ≤ f := le_trans (by norm_num) hmin
    unfold coefficient
    positivity
  have hn : 0 ≤ plan.nPre := hpre ▸ rha_nonneg hc
  refine ⟨hc, hdiva, hreach, hbelow, hfrac ▸ fracPart_nonneg _, hfrac ▸ fracPart_le hc, ?_, hfits⟩
  rcases storedN_ok hstored with ⟨-, hscaled⟩ | ⟨-, hsame⟩
  · rw [hscaled] at hn
    exact nonneg_of_mul_nonneg_left hn (by positivity)
  · exact hsame ▸ hn

/-! ### SETFREQ (R99 to R107) -/

/-- In either branch `SETFREQ` writes the same eight fields, the mode by the numerator (R99, R103, R105). -/
theorem tuneFields_eq (plan : Tuning) : tuneFields params plan =
    [(.int, if plan.frac = 0 then 1 else 0), (.fcomp, if plan.frac = 0 then 0 else 1),
      (.cpl, if plan.frac = 0 then 0 else 1), (.n, plan.nStored.toNat), (.frac, plan.frac.toNat),
      (.m, 4000), (.diva, plan.diva), (.mtld, 1)] := by
  unfold tuneFields modeFields
  split <;> simp [*]

theorem tuneFields_names (plan : Tuning) : (tuneFields params plan).map Prod.fst =
    [.int, .fcomp, .cpl, .n, .frac, .m, .diva, .mtld] := by
  rw [tuneFields_eq]
  rfl

theorem tuneFields_nodup (plan : Tuning) : ((tuneFields params plan).map Prod.fst).Nodup := by
  rw [tuneFields_names]
  decide

/-- A `SETFREQ` whose plan passes all checks completes with the plan's fields written and sent. -/
theorem exec_setfreq_of_plan {a : BitVec 32} {s : State} {pfd f : ℚ} {plan : Tuning} (hs : TagsOk s)
    (hpfd : s.fPfd = some pfd) (hf : (a.toNat : ℚ) / 1000 = f)
    (hplan : planTuning params pfd f = .ok plan) :
    ∃ t, exec (.setfreq a) s = .next t ∧ Answered s t 0 ∧
      SynthSame { s with fTarget := some f } t ∧ FieldsSent (tuneFields params plan) s t := by
  rw [← hf, ← freqOperand_eq] at hplan ⊢
  have hset : setFreq params a (accept (opcodeOf (.setfreq a)) s) = .ok (writeAll params
      (setFields layoutDoc (tuneFields params plan)
        { accept (opcodeOf (.setfreq a)) s with fTarget := some (freqOperand params a) })) := by
    rw [setFreq_of_some a ((accept_fPfd _ s).trans hpfd), hplan]
    rfl
  exact exec_fieldsSent (s' := { accept (opcodeOf (.setfreq a)) s with
      fTarget := some (freqOperand params a) }) hs (tuneFields_nodup plan) rfl
    ⟨rfl, rfl, rfl, rfl, rfl, rfl⟩ ⟨rfl, rfl⟩ (.setfreq a _ _ hset)

/-- A `SETFREQ` whose plan fails a check ends with the error of the check and changes nothing (R107, R149). -/
theorem exec_setfreq_of_plan_error {a : BitVec 32} {s : State} {pfd f : ℚ} {c : Code}
    (hpfd : s.fPfd = some pfd) (hf : (a.toNat : ℚ) / 1000 = f)
    (hplan : planTuning params pfd f = .error c) :
    exec (.setfreq a) s = .next (raiseError c s) := by
  rw [← hf, ← freqOperand_eq] at hplan
  apply exec_setfreq_error
  rw [setFreq_of_some a ((accept_fPfd _ s).trans hpfd), hplan]
  rfl

/-- The fields of a plan, as they stand after its `SETFREQ`: the checks have made every value fit. -/
structure Tuned (plan : Tuning) (t : State) : Prop where
  n : (fieldValue .n t : ℤ) = plan.nStored
  frac : (fieldValue .frac t : ℤ) = plan.frac
  m : fieldValue .m t = 4000
  diva : fieldValue .diva t = plan.diva
  int : fieldValue .int t = if plan.frac = 0 then 1 else 0
  fcomp : fieldValue .fcomp t = if plan.frac = 0 then 0 else 1
  cpl : fieldValue .cpl t = if plan.frac = 0 then 0 else 1
  mtld : fieldValue .mtld t = 1

theorem FieldsSent.tuned {pfd f : ℚ} {plan : Tuning} {s t : State} (hpfd : 0 < pfd)
    (hplan : planTuning params pfd f = .ok plan) (h : FieldsSent (tuneFields params plan) s t) :
    Tuned plan t := by
  obtain ⟨-, hdiva, -, -, hfrac, hfrac', hn, hn'⟩ := planTuning_inv hpfd hplan
  rw [tuneFields_eq] at h
  constructor
  · rw [h.value_of_lt (f := .n) (x := plan.nStored.toNat) (by simp) (by simp [layoutDoc]; omega)]
    omega
  · rw [h.value_of_lt (f := .frac) (x := plan.frac.toNat) (by simp) (by simp [layoutDoc]; omega)]
    omega
  · exact h.value_of_lt (by simp) (by decide)
  · exact h.value_of_lt (by simp) (Nat.lt_succ_of_le hdiva)
  · exact h.value_of_lt (by simp) (by split <;> decide)
  · exact h.value_of_lt (by simp) (by split <;> decide)
  · exact h.value_of_lt (by simp) (by split <;> decide)
  · exact h.value_of_lt (by simp) (by decide)

/-- Settles O46: a numerator that is not zero stores the rounded coefficient as it is. -/
theorem setfreqFractional : Obligations.SetfreqFractional := by
  intro a s pfd d hs hpfd hpos f hmin hmax hreach hbelow c frac hfrac hfits
  have hfracPart : fracPart params c = frac := fracPart_eq c
  have hplan : planTuning params pfd f = .ok ⟨d, rha c, frac, rha c⟩ := by
    rw [planTuning_eq pfd hmin hmax (divaSearch_of_minimal hmin hreach hbelow),
      show coefficient pfd f d = c from rfl, hfracPart, storedN_of_ne d hfrac]
    exact if_neg (not_lt.2 hfits)
  obtain ⟨t, hexec, hanswered, ⟨href, hdiv, hpfd', htarget⟩, hsent⟩ :=
    exec_setfreq_of_plan hs hpfd rfl hplan
  have ht := hsent.tuned hpos hplan
  exact ⟨t, hexec, hanswered, href, hdiv, hpfd', htarget, ht.n, ht.frac, ht.m, ht.diva,
    ht.int.trans (if_neg hfrac), ht.fcomp.trans (if_neg hfrac), ht.cpl.trans (if_neg hfrac), ht.mtld,
    tuneFields_names _ ▸ hsent.frame, hsent.config, hsent.inputs⟩

/-- Settles O47: a numerator of zero stores the exact quotient of the rounded coefficient. -/
theorem setfreqInteger : Obligations.SetfreqInteger := by
  intro a s pfd d hs hpfd hpos f hmin hmax hreach hbelow c hfrac hdvd hfits
  have hplan : planTuning params pfd f = .ok ⟨d, rha c, 0, rha c / 2 ^ d⟩ := by
    rw [planTuning_eq pfd hmin hmax (divaSearch_of_minimal hmin hreach hbelow),
      show coefficient pfd f d = c from rfl, fracPart_eq, hfrac, storedN_of_dvd hdvd]
    exact if_neg (not_lt.2 hfits)
  obtain ⟨t, hexec, hanswered, ⟨href, hdiv, hpfd', htarget⟩, hsent⟩ :=
    exec_setfreq_of_plan hs hpfd rfl hplan
  have ht := hsent.tuned hpos hplan
  have hn : (fieldValue .n t : ℤ) * 2 ^ d = rha c := by
    rw [ht.n]
    exact Int.ediv_mul_cancel (Int.dvd_of_emod_eq_zero hdvd)
  exact ⟨t, hexec, hanswered, href, hdiv, hpfd', htarget, hn, Int.natCast_eq_zero.1 ht.frac, ht.m,
    ht.diva, ht.int, ht.fcomp, ht.cpl, ht.mtld, tuneFields_names _ ▸ hsent.frame, hsent.config,
    hsent.inputs⟩

/-- A target outside the bounds is refused before the search. -/
theorem planTuning_of_out_of_bounds (pfd : ℚ) {f : ℚ} (h : f < 47 / 2 ∨ 6000 < f) :
    planTuning params pfd f = .error .range := if_pos h

/-- A failed search ends the plan before anything is computed from it. -/
theorem planTuning_of_search_error (pfd : ℚ) {p : Params} {f : ℚ} (hmin : p.fOutMin ≤ f)
    (hmax : f ≤ p.fOutMax) (h : ∀ m ≤ p.divaMax, f * 2 ^ m < p.vcoFloor) :
    planTuning p pfd f = .error .range := by
  rw [planTuning, if_neg (not_or.2 ⟨not_lt.2 hmin, not_lt.2 hmax⟩)]
  simp only [divaSearch_eq_error_iff.2 ⟨rfl, h⟩]

/-- Settles O48: each check is one way for the plan to end with an error. -/
theorem setfreqRefuses : Obligations.SetfreqRefuses := by
  intro a s
  constructor
  · intro hnone
    exact ⟨_, exec_setfreq_error (setFreq_of_none a hnone),
      raiseError_failed (c := .noPfd) (by decide) s⟩
  intro pfd hpfd _ f
  refine ⟨fun hout => ?_, fun p hmin hmax hsearch =>
    planTuning_of_search_error pfd hmin hmax hsearch, ?_⟩
  · exact ⟨_, exec_setfreq_of_plan_error hpfd rfl (planTuning_of_out_of_bounds pfd hout),
      raiseError_failed (c := .range) (by decide) s⟩
  intro d hmin hmax hreach hbelow c frac
  have hplan := planTuning_eq pfd hmin hmax (divaSearch_of_minimal hmin hreach hbelow)
  rw [show coefficient pfd f d = c from rfl, show fracPart params c = frac from fracPart_eq c] at hplan
  refine ⟨fun hfrac hdvd => ?_, fun hfrac hdvd hwide => ?_, fun hfrac hwide => ?_⟩
  · rw [hfrac, storedN_of_not_dvd hdvd] at hplan
    exact ⟨_, exec_setfreq_of_plan_error hpfd rfl hplan, raiseError_failed (c := .inexact) (by decide) s⟩
  · rw [hfrac, storedN_of_dvd hdvd] at hplan
    exact ⟨_, exec_setfreq_of_plan_error hpfd rfl (hplan.trans (if_pos hwide)),
      raiseError_failed (c := .field) (by decide) s⟩
  · rw [storedN_of_ne d hfrac] at hplan
    exact ⟨_, exec_setfreq_of_plan_error hpfd rfl (hplan.trans (if_pos hwide)),
      raiseError_failed (c := .field) (by decide) s⟩

/-! ### The realized frequency (R108 to R110) -/

/-- A `SETFREQ` that returns `OK` has a plan that passed all checks, and its fields hold it. -/
theorem exec_setfreq_inv {a : BitVec 32} {s u : State} {pfd : ℚ} (hs : TagsOk s)
    (hpfd : s.fPfd = some pfd) (hpos : 0 < pfd) (hexec : exec (.setfreq a) s = .next u)
    (hok : u.status = 0x00) :
    ∃ plan, planTuning params pfd ((a.toNat : ℚ) / 1000) = .ok plan ∧ Tuned plan u := by
  cases hplan : planTuning params pfd ((a.toNat : ℚ) / 1000) with
  | error c =>
    obtain rfl : raiseError c s = u := by
      simpa [exec_setfreq_of_plan_error hpfd rfl hplan] using hexec
    exact absurd (statusByte_eq_zero.1 hok) (planTuning_err hplan)
  | ok plan =>
    obtain ⟨t, ht, -, -, hsent⟩ := exec_setfreq_of_plan hs hpfd rfl hplan
    obtain rfl : t = u := by simpa [ht] using hexec
    exact ⟨plan, rfl, hsent.tuned hpos hplan⟩

/-- The numerator is the nearest to four thousand times the fractional part. -/
theorem abs_fract_sub_fracPart_le {c : ℚ} (hc : 0 ≤ c) (h : Int.fract c < 1 / 2) :
    |Int.fract c - (fracPart params c : ℚ) / 4000| ≤ 1 / 8000 := by
  have hround := abs_sub_rha_le (x := 4000 * Int.fract c) (by linarith [Int.fract_nonneg c])
  rw [← (coefficient_parts_of_lt_half hc h).2, abs_le] at hround
  obtain ⟨hlo, hhi⟩ := hround
  rw [abs_le]
  constructor <;> linarith

/-- A fractional part of `1/8000` or more does not round to a zero numerator. -/
theorem fracPart_ne_zero {c : ℚ} (hc : 0 ≤ c) (hlo : 1 / 8000 ≤ Int.fract c)
    (hhi : Int.fract c < 1 / 2) : fracPart params c ≠ 0 := by
  rw [(coefficient_parts_of_lt_half hc hhi).2, Ne, rha_eq_iff_of_nonneg (by linarith)]
  rintro ⟨-, hsmall⟩
  push_cast at hsmall
  linarith

section
variable {pfd f c : ℚ} {plan : Tuning} {u : State} (h : Tuned plan u)
  (hplan : planTuning params pfd f = .ok plan) (hcoeff : coefficient pfd f plan.diva = c)
include h hplan hcoeff

/-- Both modes realize the rounded coefficient with its numerator: what the rescale divided away, integer mode
does not divide again (R108, R109). -/
theorem Tuned.realizedAt_eq :
    realizedAt pfd u = pfd * ((rha c : ℚ) + (fracPart params c : ℚ) / 4000) / 2 ^ plan.diva := by
  obtain ⟨-, -, -, hpre, hplanFrac, hstored, -⟩ := planTuning_ok hplan
  rw [hcoeff] at hpre hplanFrac
  have hn : (fieldValue .n u : ℚ) = plan.nStored := by exact_mod_cast h.n
  have hfrac : (fieldValue .frac u : ℚ) = plan.frac := by exact_mod_cast h.frac
  rw [realizedAt, h.int, hn, hfrac, h.m, h.diva, ← hpre, ← hplanFrac]
  rcases storedN_ok hstored with ⟨hzero, hscaled⟩ | ⟨hne, hsame⟩
  · rw [if_pos (if_pos hzero), hscaled, hzero]
    push_cast
    field_simp
    ring
  · rw [if_neg (by simp [hne]), hsame]
    norm_num

/-- The realized frequency misses the target by what its coefficient misses of the exact one, in PFD cycles of
the output. -/
theorem Tuned.error_eq (hpos : 0 < pfd) : f - realizedAt pfd u =
    (c - ((rha c : ℚ) + (fracPart params c : ℚ) / 4000)) * pfd / 2 ^ plan.diva := by
  rw [h.realizedAt_eq hplan hcoeff, ← hcoeff]
  unfold coefficient
  field_simp

theorem Tuned.int_eq : fieldValue .int u = if fracPart params c = 0 then 1 else 0 := by
  obtain ⟨-, -, -, -, hplanFrac, -⟩ := planTuning_ok hplan
  rw [h.int, hplanFrac, hcoeff]

/-- In fractional mode the fields hold the rounded coefficient and its numerator (R105). -/
theorem Tuned.fields_of_fractional (hne : fracPart params c ≠ 0) :
    (fieldValue .n u : ℚ) = rha c ∧ (fieldValue .frac u : ℚ) = fracPart params c := by
  obtain ⟨-, -, -, hpre, hplanFrac, hstored, -⟩ := planTuning_ok hplan
  rw [hcoeff] at hpre hplanFrac
  rw [hpre, hplanFrac, storedN_of_ne _ hne, Except.ok.injEq] at hstored
  rw [hstored, ← hplanFrac]
  exact ⟨by exact_mod_cast h.n, by exact_mod_cast h.frac⟩

/-- The first range: the numerator is the nearest, so the error is half a numerator step at most. -/
theorem Tuned.error_of_fractional (hpos : 0 < pfd) (hc : 0 ≤ c) (hlo : 1 / 8000 ≤ Int.fract c)
    (hhi : Int.fract c < 1 / 2) : fieldValue .int u = 0 ∧
      |c - ((fieldValue .n u : ℚ) + (fieldValue .frac u : ℚ) / 4000)| ≤ 1 / 8000 ∧
      |f - realizedAt pfd u| ≤ pfd / (8000 * 2 ^ plan.diva) := by
  have hne := fracPart_ne_zero hc hlo hhi
  obtain ⟨hn, hfrac⟩ := h.fields_of_fractional hplan hcoeff hne
  have hclose : |c - ((rha c : ℚ) + (fracPart params c : ℚ) / 4000)| ≤ 1 / 8000 := by
    rw [(coefficient_parts_of_lt_half hc hhi).1, ← sub_sub, Int.self_sub_floor]
    exact abs_fract_sub_fracPart_le hc hhi
  refine ⟨(h.int_eq hplan hcoeff).trans (if_neg hne), by rwa [hn, hfrac], ?_⟩
  calc |f - realizedAt pfd u|
      = |c - ((rha c : ℚ) + (fracPart params c : ℚ) / 4000)| * (pfd / 2 ^ plan.diva) := by
        rw [h.error_eq hplan hcoeff hpos, mul_div_assoc, abs_mul,
          abs_of_pos (a := pfd / 2 ^ plan.diva) (by positivity)]
    _ ≤ 1 / 8000 * (pfd / 2 ^ plan.diva) := by gcongr
    _ = pfd / (8000 * 2 ^ plan.diva) := by field_simp

/-- The second range: the whole fractional part is dropped. -/
theorem Tuned.error_of_small (hpos : 0 < pfd) (hc : 0 ≤ c) (hlo : Int.fract c < 1 / 8000) :
    fieldValue .int u = 1 ∧ rha c = ⌊c⌋ ∧
      f - realizedAt pfd u = Int.fract c * pfd / 2 ^ plan.diva := by
  have hzero := fracPart_eq_zero_of_small hc hlo
  obtain ⟨hrha, -⟩ := coefficient_parts_of_lt_half hc (by linarith)
  refine ⟨(h.int_eq hplan hcoeff).trans (if_pos hzero), hrha, ?_⟩
  rw [h.error_eq hplan hcoeff hpos, hzero, hrha, Int.cast_zero, zero_div, add_zero,
    Int.self_sub_floor]

/-- The third range: the coefficient is rounded up to the next integer. -/
theorem Tuned.error_of_half_le (hpos : 0 < pfd) (hc : 0 ≤ c) (hhi : 1 / 2 ≤ Int.fract c) :
    fieldValue .int u = 1 ∧ rha c = ⌊c⌋ + 1 ∧
      realizedAt pfd u - f = (1 - Int.fract c) * pfd / 2 ^ plan.diva := by
  obtain ⟨hrha, hzero⟩ := coefficient_parts_of_half_le hc hhi
  refine ⟨(h.int_eq hplan hcoeff).trans (if_pos hzero), hrha, ?_⟩
  rw [← neg_sub, h.error_eq hplan hcoeff hpos, hzero, hrha, ← Int.self_sub_floor]
  push_cast
  ring

end

/-- Settles O49: the plan that passed the checks is in the fields, and the error is that of its coefficient,
by the three ranges of the fractional part. -/
theorem realizedFrequencyError : Obligations.RealizedFrequencyError := by
  intro a s u pfd hs hpfd hpos hexec hok f d c t
  obtain ⟨plan, hplan, hu⟩ := exec_setfreq_inv hs hpfd hpos hexec hok
  obtain ⟨hc, -, hreach, hbelow, -⟩ := planTuning_inv hpos hplan
  have hd : plan.diva = d := hu.diva.symm
  have hcoeff : coefficient pfd f plan.diva = c := by rw [hd]; rfl
  rw [hcoeff] at hc
  rw [← hd, ← fracPart_eq]
  exact ⟨hreach, hbelow, hu.realizedAt_eq hplan hcoeff, hu.error_of_fractional hplan hcoeff hpos hc,
    hu.error_of_small hplan hcoeff hpos hc, hu.error_of_half_le hplan hcoeff hpos hc⟩

/-! ### GETFREQ (R109, R110) -/

theorem getFreq_accept (op : BitVec 8) (s : State) : getFreq params (accept op s) = getFreq params s := rfl

theorem realFreq_eq_realizedAt (pfd : ℚ) (s : State) : realFreq params pfd s = realizedAt pfd s := by
  simp only [realFreq, integerMode, params_layout, params_intOn, beq_iff_eq, getField_eq_fieldValue,
    realizedAt]

/-- The answer of `GETFREQ` once `F_PFD` is set: the zero denominator matters in fractional mode alone. -/
theorem getFreq_of_some {s : State} {pfd : ℚ} (h : s.fPfd = some pfd) :
    getFreq params s = if fieldValue .int s = 0 ∧ fieldValue .m s = 0 then .error .zero
      else .ok (realizedAt pfd s) := by
  simp only [getFreq, h, params_layout, params_intOff, getField_eq_fieldValue,
    realFreq_eq_realizedAt]

/-- A coherent `F_PFD` is the quotient of a reference operand by a divider that is not zero (R19, R96). -/
theorem SynthOk.pfd_bounds {s : State} {pfd : ℚ} (hs : SynthOk s) (h : s.fPfd = some pfd) :
    0 ≤ pfd ∧ pfd < 2 ^ 32 / 1000 := by
  obtain ⟨⟨-, -, hnone, -⟩ | ⟨a, b, -, hb, -, -, -, hset⟩, -⟩ := hs
  · simp [h] at hnone
  · obtain rfl := Option.some.inj (h.symm.trans hset)
    have ha : (a.toNat : ℚ) < 2 ^ 32 := by exact_mod_cast a.isLt
    have hb1 : (1 : ℚ) ≤ b.toNat := by
      have hpos : 0 < b.toNat := Nat.pos_of_ne_zero fun h0 => hb (BitVec.eq_of_toNat_eq h0)
      exact_mod_cast hpos
    refine ⟨by positivity, ?_⟩
    calc (a.toNat : ℚ) / 1000 / b.toNat ≤ a.toNat / 1000 := div_le_self (by positivity) hb1
      _ < 2 ^ 32 / 1000 := by gcongr

/-- The coefficient that the fields can hold is that of 16 bits and a numerator of 12 bits at most. -/
theorem realizedAt_bounds {pfd : ℚ} (h : 0 ≤ pfd) (s : State) :
    0 ≤ realizedAt pfd s ∧ realizedAt pfd s ≤ pfd * (2 ^ 16 + 2 ^ 12) := by
  have hn : (fieldValue .n s : ℚ) ≤ 2 ^ 16 := by exact_mod_cast (fieldValue_lt .n s).le
  have hfrac : (fieldValue .frac s : ℚ) ≤ 2 ^ 12 := by exact_mod_cast (fieldValue_lt .frac s).le
  have hquot : (fieldValue .frac s : ℚ) / fieldValue .m s ≤ 2 ^ 12 :=
    (div_nat_le_self_of_nonnneg (by positivity) _).trans hfrac
  unfold realizedAt
  split
  · exact ⟨by positivity, by gcongr; linarith⟩
  · refine ⟨by positivity, ?_⟩
    calc _ ≤ pfd * ((fieldValue .n s : ℚ) + (fieldValue .frac s : ℚ) / fieldValue .m s) :=
          div_le_self (by positivity) (one_le_pow₀ (by norm_num))
      _ ≤ pfd * (2 ^ 16 + 2 ^ 12) := by gcongr

/-- A frequency whose count of Hz fits 64 bits is answered as that count (R67). -/
theorem dataOfFreq_toNat {f : ℚ} (h0 : 0 ≤ f) (h : f * 10 ^ 6 < 2 ^ 64) :
    ((dataOfFreq f).toNat : ℤ) = ⌊f * 10 ^ 6⌋ := by
  have hlo : 0 ≤ ⌊f * 10 ^ 6⌋ := Int.floor_nonneg.2 (by positivity)
  have hhi : ⌊f * 10 ^ 6⌋ < 2 ^ 64 := Int.floor_lt.2 (by exact_mod_cast h)
  rw [dataOfFreq, BitVec.toNat_ofInt]
  omega

/-- Settles O50: the rule answers `F_REAL`, whose count of Hz fits the result data, since a coherent `F_PFD`
is below `2^32` kHz and the fields hold a coefficient below `2^17`. -/
theorem getfreqReportsTheRealizedFrequency : Obligations.GetfreqReportsTheRealizedFrequency := by
  intro s hs
  refine ⟨fun pfd hpfd hdefined => ?_, fun hnone => ?_, fun pfd hpfd hint hm => ?_⟩
  · have hran := Ran.getfreq (accept (opcodeOf .getfreq) s) (realizedAt pfd s)
      (by rw [getFreq_accept, getFreq_of_some hpfd, if_neg hdefined])
    obtain ⟨hpfd0, hpfd'⟩ := hs.pfd_bounds hpfd
    obtain ⟨hreal0, hreal⟩ := realizedAt_bounds hpfd0 s
    exact ⟨_, _, exec_ran hran, hran.answered, dataOfFreq_toNat hreal0 (by linarith), fun _ => rfl,
      respond_regs_frame _ _ s _⟩
  · exact ⟨_, exec_getfreq_error (by rw [getFreq_accept, getFreq, hnone]),
      raiseError_failed (c := .noPfd) (by decide) s⟩
  · exact ⟨_, exec_getfreq_error (by rw [getFreq_accept, getFreq_of_some hpfd, if_pos ⟨hint, hm⟩]),
      raiseError_failed (c := .zero) (by decide) s⟩

end Sys2Proof.Machine
end

section
/-!
PROOFS. The Diagnostics Reader: what a word read back decodes to (R16, R118, R120), how a reading is packed
(R67, R68), and `READADC`, `READTEMP`, `READVCO`, `READLD` and `READDIAG` (R116 to R123).
-/

namespace Sys2Proof.Machine

/-! ### What a diagnostic command leaves alone (R19, R115) -/

theorem exec_synthSame {i : Instr} {s t : State} (h : exec i s = .next t)
    (hpfd : ∀ a b, i ≠ .setpfd a b) (hfreq : ∀ a, i ≠ .setfreq a) : SynthSame s t := by
  obtain ⟨hwritten, htarget⟩ := synthesizerStateHasTwoWriters i s t h
  obtain ⟨href, hrdiv, hfpfd⟩ := hwritten hpfd
  exact ⟨href, hrdiv, hfpfd, htarget hfreq⟩

/-! ### READLD (R122) -/

theorem dataOfLevel_eq_ofNat (b : Bool) : dataOfLevel b = BitVec.ofNat 64 b.toNat := by
  cases b <;> rfl

/-- Settles O57: the rule is one sample, and the sample moves no pin. -/
theorem readldSamplesThePin : Obligations.ReadldSamplesThePin := by
  intro s
  have hran := Ran.readld (accept (opcodeOf .readld) s)
  rw [readLdIn_level, dataOfLevel_eq_ofNat, ← levelAt_zero, accept_ldIn] at hran
  have hexec := exec_ran hran
  refine ⟨_, hexec, hran.answered, fun i => ?_, exec_synthSame hexec nofun nofun, ?_, ?_, ?_, ?_, ?_,
    ?_, ?_, ?_⟩
  all_goals simp [levelAt_zero, afterSample_eq]

/-! ### The fields of the word applied to register 6 (R16, R81) -/

theorem toNat_beq_toNat (a b : Bool) : (a.toNat == b.toNat) = (a == b) := by
  cases a <;> cases b <;> rfl

section
variable {s : State} {w : Word} (h : readReg 6 s = applied6 w)
include h

theorem fieldValue_adc_of_applied6 : fieldValue .adc s = codeOf w := fieldValue_of_applied6 rfl h

theorem fieldValue_vco_of_applied6 : fieldValue .vco s = vcoOf w := fieldValue_of_applied6 rfl h

theorem fieldValue_adcv_of_applied6 : fieldValue .adcv s = (w.getLsbD 10).toNat :=
  (fieldValue_of_applied6 rfl h).trans (Nat.toNat_testBit w.toNat 10).symm

theorem fieldValue_vasa_of_applied6 : fieldValue .vasa s = (w.getLsbD 9).toNat :=
  (fieldValue_of_applied6 rfl h).trans (Nat.toNat_testBit w.toNat 9).symm

theorem degreesValid_of_applied6 : degreesValid params s = adcValidOf w := by
  rw [degreesValid, params_layout, getField_eq_fieldValue, fieldValue_adcv_of_applied6 h,
    Bool.toNat_beq_one, adcValidOf]

theorem voltsValid_of_applied6 : voltsValid params s = voltsValidOf w := by
  have hadc : (getField params.layout .adcv s == 1) = w.getLsbD 10 := degreesValid_of_applied6 h
  rw [voltsValid, hadc, params_layout, getField_eq_fieldValue, fieldValue_vasa_of_applied6 h,
    params_vasaExpected, toNat_beq_toNat, voltsValidOf]

theorem fixedPoint_volts_of_applied6 :
    fixedPoint params (decodeVolts params s).2 = BitVec.ofInt 32 (voltsResult w) := by
  have hscaled : voltsScaled s = voltsResult w := by
    rw [voltsScaled, voltsResult, voltsValid_of_applied6 h, fieldValue_adc_of_applied6 h]
  rw [← hscaled, ← fixedPoint_decodeVolts, BitVec.ofInt_toInt]

theorem fixedPoint_degrees_of_applied6 :
    fixedPoint params (decodeDegrees params s).2 = BitVec.ofInt 32 (degreesResult w) := by
  have hscaled : degreesScaled s = degreesResult w := by
    rw [degreesScaled, degreesResult, degreesValid_of_applied6 h, fieldValue_adc_of_applied6 h]
  rw [← hscaled, ← fixedPoint_decodeDegrees, BitVec.ofInt_toInt]

end

theorem codeOf_lt (w : Word) : codeOf w < 2 ^ 7 := Nat.mod_lt _ (by decide)

theorem vcoOf_lt (w : Word) : vcoOf w < 2 ^ 6 := Nat.mod_lt _ (by decide)

/-! ### The packing of a reading (R67) -/

/-- The number of a packed reading: its parts at their places, the bits between them 0. -/
theorem dataOfReading_toNat (valid : Bool) (x : ℚ) {code : Nat} (hcode : code < 2 ^ 8) :
    (dataOfReading params valid x code).toNat =
      code * 2 ^ 40 + valid.toNat * 2 ^ 32 + (fixedPoint params x).toNat := by
  rw [dataOfReading, BitVec.toNat_setWidth_of_le (by decide)]
  simp only [toNat_append_eq_add, BitVec.ofNat_eq_ofNat, BitVec.toNat_ofNat, BitVec.toNat_ofBool,
    Nat.mod_eq_of_lt hcode]
  omega

/-- The number of packed diagnostics: their parts at their places. -/
theorem dataOfDiag_toNat (vv tv : Bool) {cv ct vco : Nat} (hcv : cv < 2 ^ 16) (hct : ct < 2 ^ 16)
    (hvco : vco < 2 ^ 16) : (dataOfDiag vv tv cv ct vco).toNat =
      tv.toNat * 2 ^ 49 + vv.toNat * 2 ^ 48 + vco * 2 ^ 32 + ct * 2 ^ 16 + cv := by
  rw [dataOfDiag, BitVec.toNat_setWidth_of_le (by decide)]
  simp only [toNat_append_eq_add, BitVec.toNat_ofNat, BitVec.toNat_ofBool, Nat.mod_eq_of_lt hcv,
    Nat.mod_eq_of_lt hct, Nat.mod_eq_of_lt hvco]
  omega

theorem extractLsb'_toNat_eq {w start len n : Nat} {d : BitVec w}
    (h : d.toNat / 2 ^ start % 2 ^ len = n) : (d.extractLsb' start len).toNat = n := by
  rw [BitVec.extractLsb'_toNat, Nat.shiftRight_eq_div_pow, h]

theorem getLsbD_of_toNat {w k : Nat} {d : BitVec w} {b : Bool} (h : d.toNat / 2 ^ k % 2 = b.toNat) :
    d.getLsbD k = b := by
  rw [← BitVec.testBit_toNat, Nat.testBit_eq_decide_div_mod_eq, h]
  cases b <;> rfl

theorem readingData_dataOfReading {x : ℚ} {value : ℤ} (valid : Bool) {code : Nat}
    (hx : fixedPoint params x = BitVec.ofInt 32 value) (hcode : code < 2 ^ 8) :
    ReadingData (dataOfReading params valid x code) value valid code := by
  have hd := dataOfReading_toNat valid x hcode
  have hvalid := valid.toNat_lt
  have hvalue := (fixedPoint params x).isLt
  rw [ReadingData, ← hx]
  refine ⟨BitVec.eq_of_toNat_eq (extractLsb'_toNat_eq ?_), getLsbD_of_toNat ?_, extractLsb'_toNat_eq ?_,
    BitVec.eq_of_toNat_eq (extractLsb'_toNat_eq ?_), BitVec.eq_of_toNat_eq (extractLsb'_toNat_eq ?_)⟩
  all_goals simp only [hd, BitVec.ofNat_eq_ofNat, BitVec.toNat_ofNat]; omega

/-- The parts of packed diagnostics are read back from their places. -/
theorem dataOfDiag_parts (vv tv : Bool) {cv ct vco : Nat} (hcv : cv < 2 ^ 16) (hct : ct < 2 ^ 16)
    (hvco : vco < 2 ^ 16) {d : ResultData} (h : d = dataOfDiag vv tv cv ct vco) :
    (d.extractLsb' 0 16).toNat = cv ∧ (d.extractLsb' 16 16).toNat = ct ∧
      (d.extractLsb' 32 16).toNat = vco ∧ d.getLsbD 48 = vv ∧ d.getLsbD 49 = tv ∧
      d.extractLsb' 50 14 = 0 := by
  have hd := dataOfDiag_toNat vv tv hcv hct hvco
  have hvv := vv.toNat_lt
  have htv := tv.toNat_lt
  rw [← h] at hd
  refine ⟨extractLsb'_toNat_eq ?_, extractLsb'_toNat_eq ?_, extractLsb'_toNat_eq ?_,
    getLsbD_of_toNat ?_, getLsbD_of_toNat ?_, BitVec.eq_of_toNat_eq (extractLsb'_toNat_eq ?_)⟩
  all_goals simp only [hd, BitVec.ofNat_eq_ofNat, BitVec.toNat_ofNat]; omega

/-! ### What a reading and a readback leave (R116, R117, R121) -/

/-- The registers, the link and the inputs after an ADC reading in a mode (R117, R119). -/
structure AdcRead (mode : Nat) (s t : State) : Prop where
  applied : ReadingApplied (answeredWord s 0) s t
  trace : t.pinTrace = s.pinTrace ++ adcTrace mode (readReg 5 s) (readReg 2 s) s 0
  link : LinkLeft s t (readReg 5 t) (routed2 (readReg 2 s)) true
  dataIn : t.dataIn = samplesTaken 32 s.dataIn
  ldIn : t.ldIn = s.ldIn

/-- The registers, the link and the inputs after a bare readback applied to register 6 (R116, R121). -/
structure VcoRead (s t : State) : Prop where
  others : RegsSameBut [6] s t
  reg6 : readReg 6 t = applied6 (answeredWord s 0)
  trace : t.pinTrace = s.pinTrace ++ readbackTrace (readReg 5 s) (readReg 2 s) s 0
  link : LinkLeft s t (routed5 (readReg 5 s)) (routed2 (readReg 2 s)) false
  dataIn : t.dataIn = samplesTaken 32 s.dataIn
  ldIn : t.ldIn = s.ldIn

theorem sampleAdc_read (mode : Nat) {s : State} (hs : TagsOk s) :
    AdcRead mode s (sampleAdc params mode s) := by
  obtain ⟨happlied, hdata, htrace, hlink⟩ := sampleAdc_exact mode hs
  exact ⟨happlied, htrace, hlink, hdata, by simp [sampleAdc]⟩

theorem LinkLeft.writeReg {s u : State} {c5 c2 : Word} {b : Bool} (h : LinkLeft s u c5 c2 b) (i : RegIndex)
    (v : Word) : LinkLeft s (writeReg i v u) c5 c2 b := h

theorem readVco_state (s : State) :
    (readVco params s).2 = writeReg 6 (readReg6 params s).1 (readReg6 params s).2 := rfl

theorem readVco_read {s : State} (hs : TagsOk s) : VcoRead s (readVco params s).2 := by
  obtain ⟨hword, hregs, hdata, htrace, hlink⟩ := readReg6_exact hs
  rw [readVco_state]
  refine ⟨fun i hi => ?_, ?_, ?_, hlink.writeReg _ _, ?_, ?_⟩
  · have hne : i ≠ 6 := by simpa using hi
    rw [readReg_writeReg_ne hne, readReg_of_regs hregs]
  · rw [readReg_writeReg_same, hword, tagged_eq_ofNat]
    rfl
  · rw [writeReg_pinTrace, htrace]
  · rw [writeReg_dataIn, hdata]
  · rw [writeReg_ldIn, readReg6_ldIn]

/-- Accepting and answering a command touch nothing that `AdcRead` speaks of (R66, R73). -/
theorem AdcRead.command {mode : Nat} {op : BitVec 8} {c : Code} {d : ResultData} {s u : State}
    (h : AdcRead mode (accept op s) u) : AdcRead mode s (respond c d u) where
  applied := h.applied
  trace := h.trace
  link := h.link
  dataIn := h.dataIn
  ldIn := h.ldIn

/-- Accepting and answering a command touch nothing that `VcoRead` speaks of (R66, R73). -/
theorem VcoRead.command {op : BitVec 8} {c : Code} {d : ResultData} {s u : State}
    (h : VcoRead (accept op s) u) : VcoRead s (respond c d u) where
  others := h.others
  reg6 := h.reg6
  trace := h.trace
  link := h.link
  dataIn := h.dataIn
  ldIn := h.ldIn

/-! ### READADC and READTEMP (R117 to R120) -/

/-- A reading is that of the word `w` by a decode with the result `value` and the guard `valid` (R68). -/
structure Reading.Of (r : Reading) (w : Word) (value : ℤ) (valid : Bool) : Prop where
  value : fixedPoint params r.value = BitVec.ofInt 32 value
  valid : r.valid = valid
  code : r.code = codeOf w

theorem readAdc_reading {s : State} (hs : TagsOk s) : (readAdc params s).1.Of (answeredWord s 0)
    (voltsResult (answeredWord s 0)) (voltsValidOf (answeredWord s 0)) := by
  obtain ⟨-, -, hword⟩ := (sampleAdc_read params.adcmVtune hs).applied
  exact ⟨fixedPoint_volts_of_applied6 hword, voltsValid_of_applied6 hword,
    (getField_eq_fieldValue _ _).trans (fieldValue_adc_of_applied6 hword)⟩

theorem readTemp_reading {s : State} (hs : TagsOk s) : (readTemp params s).1.Of (answeredWord s 0)
    (degreesResult (answeredWord s 0)) (adcValidOf (answeredWord s 0)) := by
  obtain ⟨-, -, hword⟩ := (sampleAdc_read params.adcmTemp hs).applied
  exact ⟨fixedPoint_degrees_of_applied6 hword, degreesValid_of_applied6 hword,
    (getField_eq_fieldValue _ _).trans (fieldValue_adc_of_applied6 hword)⟩

/-- A command whose rule is one ADC reading: `READADC` and `READTEMP`, which differ in the mode and in the
decode. -/
theorem exec_reading {i : Instr} {mode : Nat} {r : Reading} {s u : State} {value : ℤ} {valid : Bool}
    (hpfd : ∀ a b, i ≠ .setpfd a b) (hfreq : ∀ a, i ≠ .setfreq a)
    (hran : Ran i (accept (opcodeOf i) s) (dataOfReading params r.valid r.value r.code) u)
    (hr : r.Of (answeredWord s 0) value valid) (hu : AdcRead mode (accept (opcodeOf i) s) u) :
    ∃ t d, exec i s = .next t ∧ Answered s t d ∧
      ReadingData d value valid (codeOf (answeredWord s 0)) ∧
      ReadingApplied (answeredWord s 0) s t ∧ SynthSame s t ∧
      t.pinTrace = s.pinTrace ++ adcTrace mode (readReg 5 s) (readReg 2 s) s 0 ∧
      LinkLeft s t (readReg 5 t) (routed2 (readReg 2 s)) true ∧
      t.dataIn = samplesTaken 32 s.dataIn ∧ t.ldIn = s.ldIn := by
  have hpacked : ReadingData (dataOfReading params r.valid r.value r.code) value valid
      (codeOf (answeredWord s 0)) := by
    rw [hr.valid, hr.code]
    exact readingData_dataOfReading valid hr.value ((codeOf_lt _).trans (by decide))
  have hread := hu.command (c := .ok) (d := dataOfReading params r.valid r.value r.code)
  exact ⟨_, _, exec_ran hran, hran.answered, hpacked, hread.applied,
    exec_synthSame (exec_ran hran) hpfd hfreq, hread.trace, hread.link, hread.dataIn, hread.ldIn⟩

/-- Settles O54: the reading of the accepted state with the voltage mode and decode. -/
theorem readadcSamplesTheVoltage : Obligations.ReadadcSamplesTheVoltage := fun s hs =>
  have haccepted := tagsOk_accept (opcodeOf .readadc) hs
  exec_reading nofun nofun (Ran.readadc (accept (opcodeOf .readadc) s))
    (answeredWord_congr (accept_dataIn _ s) 0 ▸ readAdc_reading haccepted)
    (sampleAdc_read params.adcmVtune haccepted)

/-- Settles O55: the reading of the accepted state with the temperature mode and decode. -/
theorem readtempSamplesTheTemperature : Obligations.ReadtempSamplesTheTemperature := fun s hs =>
  have haccepted := tagsOk_accept (opcodeOf .readtemp) hs
  exec_reading nofun nofun (Ran.readtemp (accept (opcodeOf .readtemp) s))
    (answeredWord_congr (accept_dataIn _ s) 0 ▸ readTemp_reading haccepted)
    (sampleAdc_read params.adcmTemp haccepted)

/-! ### READVCO (R121) -/

theorem readVco_index {s : State} (hs : TagsOk s) :
    (readVco params s).1 = vcoOf (answeredWord s 0) :=
  calc (readVco params s).1
    _ = fieldValue .vco (readVco params s).2 := getField_eq_fieldValue .vco _
    _ = vcoOf (answeredWord s 0) := fieldValue_vco_of_applied6 (readVco_read hs).reg6

/-- An index, of 6 bits, fills the low bits of the result data (R67). -/
theorem dataOfField_vcoOf (w : Word) : dataOfField (vcoOf w) = BitVec.ofNat 64 (vcoOf w) := by
  have hfits : (dataOfField (vcoOf w)).toNat = vcoOf w :=
    getBits_dataOfField ((vcoOf_lt w).trans (by decide))
  rw [← BitVec.toNat_inj, hfits, BitVec.toNat_ofNat, Nat.mod_eq_of_lt ((vcoOf_lt w).trans (by decide))]

/-- Settles O56: the readback of the accepted state and its index. -/
theorem readvcoReadsTheIndex : Obligations.ReadvcoReadsTheIndex := by
  intro s hs
  have haccepted := tagsOk_accept (opcodeOf .readvco) hs
  have hran := Ran.readvco (accept (opcodeOf .readvco) s)
  rw [readVco_index haccepted, dataOfField_vcoOf, answeredWord_congr (accept_dataIn _ s)] at hran
  have hread := (readVco_read haccepted).command (c := .ok)
    (d := BitVec.ofNat 64 (vcoOf (answeredWord s 0)))
  exact ⟨_, exec_ran hran, hran.answered, hread.others, hread.reg6,
    exec_synthSame (exec_ran hran) nofun nofun, hread.trace, hread.link, hread.dataIn, hread.ldIn⟩

/-! ### READDIAG (R123) -/

/-- The ADC fields at idle stay as they are when they are put to idle again. -/
theorem adcAtIdle_adcAtIdle (v : Word) : adcAtIdle (adcAtIdle v) = adcAtIdle v := by
  apply BitVec.eq_of_getLsbD_eq
  intro k _
  simp only [adcAtIdle, replaceBits_getLsbD (by decide : 6 + 1 ≤ 32),
    replaceBits_getLsbD (by decide : 3 + 3 ≤ 32)]
  split <;> [rfl; (split <;> rfl)]

theorem ReadingApplied.trans {w w' : Word} {s t u : State} (hst : ReadingApplied w s t)
    (htu : ReadingApplied w' t u) : ReadingApplied w' s u := by
  obtain ⟨hothers, h5, -⟩ := hst
  obtain ⟨hothers', h5', h6'⟩ := htu
  exact ⟨fun i hi => (hothers' i hi).trans (hothers i hi), by rw [h5', h5, adcAtIdle_adcAtIdle], h6'⟩

theorem ReadingApplied.vcoRead {w : Word} {s t u : State} (hst : ReadingApplied w s t)
    (htu : VcoRead t u) : ReadingApplied (answeredWord t 0) s u := by
  obtain ⟨hothers, h5, -⟩ := hst
  refine ⟨fun i hi => ?_, (htu.others 5 (by decide)).trans h5, htu.reg6⟩
  have hi6 : i ∉ ([6] : List RegIndex) := fun h => hi (List.mem_cons_of_mem 5 h)
  exact (htu.others i hi6).trans (hothers i hi)

theorem LinkLeft.trans {s t u : State} {c5 c2 c5' c2' : Word} {d d' : Bool}
    (hst : LinkLeft s t c5 c2 d) (htu : LinkLeft t u c5' c2' d') : LinkLeft s u c5' c2' d' := by
  obtain ⟨-, -, -, -, -, -, hothers⟩ := hst
  obtain ⟨hle, hclk, hdata, hrb, h5, h2, hothers'⟩ := htu
  exact ⟨hle, hclk, hdata, hrb, h5, h2, fun i hi5 hi2 => (hothers' i hi5 hi2).trans (hothers i hi5 hi2)⟩

/-- What a voltage reading, a temperature reading and a readback in a row leave (R123). -/
structure DiagRead (s t : State) : Prop where
  applied : ReadingApplied (answeredWord s 64) s t
  trace : t.pinTrace = s.pinTrace ++ adcTrace 4 (readReg 5 s) (readReg 2 s) s 0 ++
    adcTrace 1 (readReg 5 t) (readReg 2 s) s 32 ++ readbackTrace (readReg 5 t) (readReg 2 s) s 64
  link : LinkLeft s t (routed5 (readReg 5 t)) (routed2 (readReg 2 s)) false
  dataIn : t.dataIn = samplesTaken 96 s.dataIn
  ldIn : t.ldIn = s.ldIn

/-- The three sequences joined: each goes on with the registers and the samples the one before left. -/
theorem DiagRead.of_reads {s u v t : State} (hu : AdcRead 4 s u) (hv : AdcRead 1 u v)
    (ht : VcoRead v t) : DiagRead s t := by
  have happlied := hu.applied.trans hv.applied
  have hdata : v.dataIn = samplesTaken 64 s.dataIn := by rw [hv.dataIn, hu.dataIn, samplesTaken_add]
  have hfinal := happlied.vcoRead ht
  obtain ⟨hothersu, h5u, -⟩ := hu.applied
  obtain ⟨hothersv, h5v, -⟩ := happlied
  have ⟨_, h5, _⟩ := hfinal
  have hu5 : readReg 5 u = readReg 5 t := h5u.trans h5.symm
  have hv5 : readReg 5 v = readReg 5 t := h5v.trans h5.symm
  have hu2 : readReg 2 u = readReg 2 s := hothersu 2 (by decide)
  have hv2 : readReg 2 v = readReg 2 s := hothersv 2 (by decide)
  have hlink := (hu.link.trans hv.link).trans ht.link
  refine ⟨?_, ?_, ?_, ?_, ?_⟩
  · rw [← answeredWord_samplesTaken hdata 0]
    exact hfinal
  · rw [ht.trace, hv.trace, hu.trace, hv5, hv2, hu5, hu2, readbackTrace_samplesTaken hdata,
      adcTrace_samplesTaken hu.dataIn]
  · rwa [hv5, hv2] at hlink
  · rw [ht.dataIn, hdata, samplesTaken_add]
  · rw [ht.ldIn, hv.ldIn, hu.ldIn]

/-- Accepting and answering a command touch nothing that `DiagRead` speaks of (R66, R73). -/
theorem DiagRead.command {op : BitVec 8} {c : Code} {d : ResultData} {s u : State}
    (h : DiagRead (accept op s) u) : DiagRead s (respond c d u) where
  applied := h.applied
  trace := h.trace
  link := h.link
  dataIn := h.dataIn
  ldIn := h.ldIn

theorem readDiag_read {s : State} (hs : TagsOk s) : DiagRead s (readDiag params s).2 :=
  have hs' := sampleAdc_tagsOk params.adcmVtune hs
  .of_reads (sampleAdc_read params.adcmVtune hs) (sampleAdc_read params.adcmTemp hs')
    (readVco_read (sampleAdc_tagsOk params.adcmTemp hs'))

/-- The readings are of the 32 samples each sequence takes, one after the other. -/
theorem readDiag_reading {s : State} (hs : TagsOk s) :
    (readDiag params s).1.1.Of (answeredWord s 0) (voltsResult (answeredWord s 0))
      (voltsValidOf (answeredWord s 0)) ∧
    (readDiag params s).1.2.1.Of (answeredWord s 32) (degreesResult (answeredWord s 32))
      (adcValidOf (answeredWord s 32)) ∧
    (readDiag params s).1.2.2 = vcoOf (answeredWord s 64) := by
  have hs' := sampleAdc_tagsOk params.adcmVtune hs
  have hs'' := sampleAdc_tagsOk params.adcmTemp hs'
  have hdata := (sampleAdc_read params.adcmVtune hs).dataIn
  have hdata' := (sampleAdc_read params.adcmTemp hs').dataIn
  rw [hdata, samplesTaken_add] at hdata'
  refine ⟨readAdc_reading hs, ?_, ?_⟩
  · rw [← answeredWord_samplesTaken hdata 0]
    exact readTemp_reading hs'
  · rw [← answeredWord_samplesTaken hdata' 0]
    exact readVco_index hs''

/-- Settles O58: the three sequences of the accepted state, and the parts of the packed result. -/
theorem readdiagRunsAllThree : Obligations.ReaddiagRunsAllThree := by
  intro s hs
  have haccepted := tagsOk_accept (opcodeOf .readdiag) hs
  have hran := Ran.readdiag (accept (opcodeOf .readdiag) s)
  obtain ⟨hvolts, hdegrees, hvco⟩ := readDiag_reading haccepted
  have hword (k : Nat) : answeredWord (accept (opcodeOf .readdiag) s) k = answeredWord s k :=
    answeredWord_congr (accept_dataIn _ s) k
  rw [hvolts.valid, hvolts.code, hdegrees.valid, hdegrees.code, hvco, hword, hword, hword] at hran
  generalize hd : dataOfDiag _ _ _ _ _ = d at hran
  obtain ⟨hcv, hct, hindex, hvv, htv, hzero⟩ := dataOfDiag_parts _ _
    ((codeOf_lt _).trans (by decide)) ((codeOf_lt _).trans (by decide)) ((vcoOf_lt _).trans (by decide))
    hd.symm
  have hread := (readDiag_read haccepted).command (c := .ok) (d := d)
  exact ⟨_, d, exec_ran hran, hran.answered, hcv, hct, hindex, hvv, htv, hzero, hread.applied,
    exec_synthSame (exec_ran hran) nofun nofun, hread.trace, hread.link, hread.dataIn, hread.ldIn⟩

end Sys2Proof.Machine
end

section
/-!
PROOFS. The exceptions of the block: every instruction answers (R144, R159), and an error leaves nothing but
the record of itself (R149).
-/

namespace Sys2Proof.Machine

/-! ### Errors (R149) -/

/-- Settles O21: a status other than `OK` is the byte of a raised error, and `raiseError_failed` says what a
raised error leaves. -/
theorem errorsChangeNothing : Obligations.ErrorsChangeNothing := by
  intro i s t h hstatus
  obtain ⟨c, hc, rfl⟩ := exec_eq_raiseError h hstatus
  exact raiseError_failed hc s

/-! ### Every step has a next state (R144, R159) -/

/-- A command answers, whether its body completes or ends with an error (R73, R149). -/
theorem runCommand_next (op : BitVec 8) (body : State → Except Code (ResultData × State)) (s : State) :
    ∃ t, runCommand op body s = .next t := by
  cases hbody : body (accept op s) with
  | ok du => exact ⟨_, runCommand_ok hbody⟩
  | error c => exact ⟨_, runCommand_error hbody⟩

theorem runSerial_next (v : Word) (s : State) : ∃ t, runSerial v s = .next t :=
  runCommand_next _ _ s

/-- Every instruction answers, for each is run as one command, a serial word as its `WRITEWORD` (R61, R73;
log entry 4). -/
theorem exec_next (i : Instr) (s : State) : ∃ t, exec i s = .next t := by
  unfold exec
  cases i with
  | w0 | w1 | w2 | w3 | w4 | w5 | w6 | rbreq => exact runSerial_next _ s
  | _ => exact runCommand_next _ _ s

/-- The command port answers every command word: its instruction, or `E_ILLEGAL` (R70). -/
theorem runWord_next (w : CommandWord) (s : State) : ∃ t, runWord w s = .next t := by
  unfold runWord
  split
  · exact exec_next _ s
  · exact ⟨_, rfl⟩

/-- The branches of the step: idle, reset, and a command offered while the block is busy or not. -/
theorem step_next (s : State) : ∃ t, step s = .next t := by
  unfold step
  split
  · exact ⟨s, rfl⟩
  · exact ⟨_, rfl⟩
  · split
    · exact ⟨s, rfl⟩
    · exact runWord_next _ _

/-- Settles O10: the step by its branches, the instruction as the command it is run as. -/
theorem everyStepAnswers : Obligations.EveryStepAnswers := fun s =>
  ⟨step_next s, fun i => exec_next i s⟩

end Sys2Proof.Machine
end
